-- ==== Sys2Proof/Word.lean ====
section
/-! DEFINITION. The words of the HUFF core: host words, DMEM bytes and arena indices (R8, R10). All values are
unsigned; the core has no signed quantity. -/

namespace Sys2Proof

/-- A host bus word, a register or a command word: 32 bits (R8). -/
abbrev Word := BitVec 32

/-- A DMEM byte, which is also HUF's Symbol: "one byte value (0–255)" (R12). -/
abbrev Byte := BitVec 8

/-- An index into the NODE arena: 9 bits (R8). -/
abbrev NodeIx := BitVec 9

/-- "NIL: node index 0x1FF, meaning 'no node'" (R12). -/
abbrev nil : NodeIx := 0x1FF#9

end Sys2Proof
end

