-- ==== Sys2Proof/Syntax.lean ====
section
/-! DEFINITION. The commands of the HUFF core, one constructor per row of spec/opcode_table.json (R67, R68). A command has
no operand in its word: "No command word carries an immediate, a register number or an address" (R69). -/

namespace Sys2Proof

/-- A legal command word (R68: "Exactly nine words are legal"). -/
inductive Instr where
  /-- `nop`, R83. -/
  | nop
  /-- `clrf`, R85. -/
  | clrf
  /-- `count`: COUNT with ACC = 0, R86. -/
  | count
  /-- `count.acc`: COUNT with ACC = 1, R86. -/
  | countAcc
  /-- `build`, R95. -/
  | build
  /-- `gencode`, R102. -/
  | gencode
  /-- `encode`, R107. -/
  | encode
  /-- `decode`: DECODE with CHK = 0, R116. -/
  | decode
  /-- `decode.chk`: DECODE with CHK = 1, R116. -/
  | decodeChk
  deriving DecidableEq, Repr

/-- The nine commands, in the opcode table's order. -/
def Instr.all : List Instr :=
  [.nop, .clrf, .count, .countAcc, .build, .gencode, .encode, .decode, .decodeChk]

end Sys2Proof
end

