-- ==== Sys2Proof/WellFormed.lean ====
section
/-! DEFINITION. The fields of a command word (R66) and which of them make a legal command (R67, R70). -/

namespace Sys2Proof

/-- The four fields of the one format CMD32 (R66). -/
structure CmdFields where
  /-- [31:10] RSV, "reserved, must be 0". -/
  rsv : BitVec 22
  /-- [9] CHK, "tree-check flag, defined for DECODE only". -/
  chk : Bool
  /-- [8] ACC, "accumulate flag, defined for COUNT only". -/
  acc : Bool
  /-- [7:0] OPC, the opcode. -/
  opc : Byte
  deriving DecidableEq, Repr

/-- RSV is zero (R66). -/
def CmdFields.rsvZero (f : CmdFields) : Bool := f.rsv == 0#22

/-- The opcode is one of the map's, 0x00 to 0x06 (R67). -/
def CmdFields.opcKnown (f : CmdFields) : Bool := decide (f.opc.toNat ≤ 6)

/-- ACC stands on COUNT only (R67). -/
def CmdFields.accAllowed (f : CmdFields) : Bool := !f.acc || f.opc == 0x02#8

/-- CHK stands on DECODE only (R67). -/
def CmdFields.chkAllowed (f : CmdFields) : Bool := !f.chk || f.opc == 0x06#8

/-- The fields of a legal command word (R68, R70). -/
def CmdFields.wf (f : CmdFields) : Bool := f.rsvZero && f.opcKnown && f.accAllowed && f.chkAllowed

/-- A command's fields, from the opcode map (R67) and the flags its mnemonic spells (R73). -/
def Instr.fields : Instr → CmdFields
  | .nop       => ⟨0, false, false, 0x00⟩
  | .clrf      => ⟨0, false, false, 0x01⟩
  | .count     => ⟨0, false, false, 0x02⟩
  | .countAcc  => ⟨0, false, true,  0x02⟩
  | .build     => ⟨0, false, false, 0x03⟩
  | .gencode   => ⟨0, false, false, 0x04⟩
  | .encode    => ⟨0, false, false, 0x05⟩
  | .decode    => ⟨0, false, false, 0x06⟩
  | .decodeChk => ⟨0, true,  false, 0x06⟩

/-- A command is well formed when its fields are. -/
def Instr.wellFormed (i : Instr) : Bool := i.fields.wf

/-- R53: a transaction is admitted "only if it moves a full 32-bit word and `off` is a multiple of 4". `width` is in
bits. -/
def transactionAdmitted (off : BitVec 21) (width : Nat) : Bool := decide (width = 32) && decide (off.toNat % 4 = 0)

end Sys2Proof
end

