-- ==== Sys2Proof/Decode.lean ====
section
/-! DEFINITION. Decoding a command word, total on all 2^32 words and rejecting by name (R68), and the encoder beside it
(R66, R67). -/

namespace Sys2Proof

/-- Why a word is Illegal (R70: "opcodes 0x07 to 0xFF, any word with a reserved bit RSV set, and a flag bit set on a
command that does not define it"). The machine does not tell them apart: all end in ILLEGAL_COMMAND. -/
inductive DecodeError where
  /-- A bit of RSV is set. -/
  | reservedBits
  /-- The opcode is 0x07 to 0xFF. -/
  | unknownOpcode
  /-- ACC or CHK is set on a command that does not define it. -/
  | flagNotDefined
  deriving DecidableEq, Repr

/-- The fields of a word (R66). -/
def splitWord (w : Word) : CmdFields where
  rsv := w.extractLsb' 10 22
  chk := w.getLsbD 9
  acc := w.getLsbD 8
  opc := w.extractLsb' 0 8

/-- The word of the fields (R66). -/
def joinFields (f : CmdFields) : Word :=
  f.rsv ++ BitVec.ofBool f.chk ++ BitVec.ofBool f.acc ++ f.opc

/-- `decode_cmd` of R68. -/
def decode (w : Word) : Except DecodeError Instr :=
  let f := splitWord w
  if f.rsv ≠ 0#22 then .error .reservedBits
  else
    match f.opc.toNat, f.acc, f.chk with
    | 0, false, false => .ok .nop
    | 1, false, false => .ok .clrf
    | 2, false, false => .ok .count
    | 2, true,  false => .ok .countAcc
    | 3, false, false => .ok .build
    | 4, false, false => .ok .gencode
    | 5, false, false => .ok .encode
    | 6, false, false => .ok .decode
    | 6, false, true  => .ok .decodeChk
    | opc, _, _       => if opc ≤ 6 then .error .flagNotDefined else .error .unknownOpcode

/-- The word of a command (R66, R67). -/
def encode (i : Instr) : Word := joinFields i.fields

/-- The command the decoder reads from an opcode-table word of `nbits` bits (the table numbers a command word's bits as
R66 does). -/
def decodeTableWord (nbits w : Nat) : Option Instr :=
  match decode (BitVec.ofNat 32 (w % 2 ^ nbits)) with
  | .ok i    => some i
  | .error _ => none

end Sys2Proof
end

