-- ==== Sys2Proof/Config.lean ====
section
/-! DEFINITION. What is fixed for one machine, and the free values: the parameters of R9 and the draws of R50, R58 and R82.
A constant without a body is uninterpreted: nothing can be proved of its value, so a claim holds for every value. -/

namespace Sys2Proof

/-- DMEM0 (R50): the content of DMEM at power-on, "a draw taken once at power-on". The first argument numbers the
draw, so that a claim over all memories is a claim over any number of draws; the second is the byte address. Free value; log
entry 1. -/
opaque Config.dmem0 : Nat → Nat → Byte

/-- LATENCY (R9, R82): how many host steps a command stays BUSY, "any finite number, chosen anew for each command".
The argument is the draw number. Free value; log entry 2. -/
opaque Config.latency : Nat → Nat

/-- What a read of the FREQ, NODE, CODE or DMEM window returns while BUSY = 1 (R58): "a fresh draw for each read, under
no law". The argument is the draw number. Free value; log entry 3. -/
opaque Config.windowDraw : Nat → Word

/-- BASE (R9): the platform address of the block's register space. "No rule of the core depends on it." -/
opaque Config.base : Nat

/-- The platform address of a register-space offset (R48, R23: offsets are counted from BASE). -/
def Config.platformAddress (off : Nat) : Nat := Config.base + off

/-- DMEM_SIZE's default (R9). The size itself is the constant field `Memory.size` of the state, so that a claim over all
states is a claim over all sizes. -/
def Config.defaultDmemSize : Nat := 65536

/-- The sizes R9 admits: "a multiple of 4 with 4 ≤ DMEM_SIZE ≤ 2^20". -/
def Config.dmemSizeOk (n : Nat) : Bool := decide (4 ≤ n) && decide (n ≤ 2 ^ 20) && decide (n % 4 = 0)

/-- "ID reads 0x48554646" (R24). -/
def Config.idWord : Word := 0x48554646#32

/-- "VERSION reads 0x00010000" (R24). -/
def Config.versionWord : Word := 0x00010000#32

end Sys2Proof
end

