-- ==== Sys2Proof/Machine/State.lean ====
section
/-! DEFINITION. The state of the HUFF core (R22), the host's side of it as plain data (R59, R74), the reasons a step can
stop, and the state after power-on reset (R133). -/

namespace Sys2Proof.Machine

/-! ## Error report and events -/

/-- ERRCODE: "takes exactly these values. Any other value never occurs" (R120). -/
inductive ErrCode where
  /-- 0x00 OK. -/
  | ok
  /-- 0x01 EMPTY_INPUT: BUILD with every FREQ entry 0, or ENCODE with LEN = 0. -/
  | emptyInput
  /-- 0x02 ENCODING_CONSISTENCY: ENCODE met a byte without a code. -/
  | encodingConsistency
  /-- 0x03 CORRUPT_STREAM: DECODE, three causes. -/
  | corruptStream
  /-- 0x04 TREE_MISMATCH: DECODE with CHK = 1 and LEAFSET ≠ EXPSET. -/
  | treeMismatch
  /-- 0x10 ILLEGAL_COMMAND: the word is not a command. -/
  | illegalCommand
  /-- 0x11 ADDRESS_RANGE: an invalid DMEM range. -/
  | addressRange
  /-- 0x12 NO_TREE: TREE_VALID = 0. -/
  | noTree
  /-- 0x13 NO_CODE: CODE_VALID = 0. -/
  | noCode
  /-- 0x14 COUNT_OVERFLOW: a count would pass 2^32 − 1. -/
  | countOverflow
  deriving DecidableEq, Repr

/-- The error report registers ERRCODE and ERRINFO (R28, R29). -/
structure ErrReport where
  code : ErrCode
  info : Word
  deriving DecidableEq, Repr

/-- The bits of EVENT (R27). -/
structure Event where
  done : Bool
  err  : Bool
  ovr  : Bool
  deriving DecidableEq, Repr

/-! ## Operands and results -/

/-- The operand registers SRC, LEN, DST and BITS (R31). -/
structure Operands where
  src  : Word
  len  : Word
  dst  : Word
  bits : Word
  deriving DecidableEq, Repr

/-- PEND's record `(word, SRC, LEN, DST, BITS)` (R44). -/
structure Pend where
  word : Word
  ops  : Operands
  deriving DecidableEq, Repr

/-- The result registers OUT_LEN and OUT_BITS (R32). -/
structure OutRegs where
  len  : Word
  bits : Word
  deriving DecidableEq, Repr

/-! ## The tables -/

/-- KIND of an arena entry (R37): 0 = Leaf, 1 = Internal. -/
inductive Kind where
  | leaf
  | internal
  deriving DecidableEq, Repr

/-- An entry of the NODE arena (R37). -/
structure Node where
  valid : Bool
  kind  : Kind
  sym   : Byte
  freq  : BitVec 40
  left  : NodeIx
  right : NodeIx
  deriving DecidableEq, Repr

/-- The empty entry of R40. -/
def Node.empty : Node := ⟨false, .leaf, 0, 0, nil, nil⟩

/-- What BUILD writes and only BUILD and reset change: STATUS.TREE_VALID (R26), LEAF_COUNT, NODE_COUNT, ROOT (R33),
LEAFSET0..7 (R34) and the NODE arena (R38). -/
structure Tree where
  valid     : Bool
  leafCount : BitVec 9
  nodeCount : BitVec 9
  root      : NodeIx
  leafset   : BitVec 256
  node      : Vector Node 511
  deriving DecidableEq, Repr

/-- No tree: the values of R133. -/
def Tree.empty : Tree := ⟨false, 0, 0, nil, 0, Vector.replicate 511 Node.empty⟩

/-- An entry of the CODE table (R41): the code's length and the code as a number, first bit most significant. -/
structure Code where
  len  : BitVec 8
  bits : BitVec 255
  deriving DecidableEq, Repr

/-- "LEN = 0, BITS = 0": the symbol has no code (R41). -/
def Code.empty : Code := ⟨0, 0⟩

/-- STATUS.CODE_VALID (R26), MAX_CODE_LEN (R33) and the CODE table (R41). -/
structure Codes where
  valid  : Bool
  maxLen : BitVec 8
  entry  : Vector Code 256
  deriving DecidableEq, Repr

/-- No code table: the values of R133, and what BUILD leaves (R95). -/
def Codes.empty : Codes := ⟨false, 0, Vector.replicate 256 Code.empty⟩

/-- The FREQ table (R36): 256 entries of 32 bits. -/
abbrev FreqTable := Vector Word 256

/-- The FREQ table with every entry 0 (R36, R85). -/
def FreqTable.empty : FreqTable := Vector.replicate 256 0

/-- DMEM (R43, R48, R50): its size DMEM_SIZE (R9), which draw DMEM0 its unwritten bytes hold, and the bytes that differ from
that draw, by rising address. No step changes the first two: the draw is "taken once at power-on". -/
structure Memory where
  size  : Nat
  draw  : Nat
  cells : List Host.Cell
  deriving DecidableEq, Repr

/-! ## The host's side -/

/-- One statement the host agent still has to run (R53, R74), or the platform's reset input (R132). `width` is the
transaction's width in bits. -/
inductive HostOp where
  /-- `HostRead(off) -> v` (R53), `rd` (R74). -/
  | read (off : BitVec 21) (width : Nat)
  /-- `HostWrite(off, v)` (R53), `wr` (R74). -/
  | write (off : BitVec 21) (width : Nat) (v : Word)
  /-- `wait R, m, v`: repeat `HostRead(R)` until `(value & m) = v` (R74). -/
  | wait (off : BitVec 21) (mask value : Word)
  /-- `check R, v`: a read and a test of its value, which writes nothing (R74). -/
  | check (off : BitVec 21) (value : Word)
  /-- The platform asserts power-on reset once more (R132); the power-up itself is `State.reset`. -/
  | powerOn
  deriving DecidableEq, Repr

/-- A value the host has read by `rd` or `check`, and what a `check` expected. -/
structure ReadRecord where
  off      : BitVec 21
  value    : Word
  expected : Option Word
  deriving DecidableEq, Repr

/-! ## The state -/

/-- The architectural state of one HUFF core (R22), then the model's own four fields: the host program still to run, what
it has read, and the two counters the draws need (log entries 2, 3 and 4). STATUS, CTRL and EVENT words, ID, VERSION, DMEM_SIZE
and `irq` are functions of these fields (Flags.lean, HostBus.lean). -/
structure State where
  /-- CTRL.IE, the interrupt enable (R25). -/
  ie      : Bool
  /-- EVENT (R27). -/
  event   : Event
  /-- ERRCODE and ERRINFO (R28, R29). -/
  err     : ErrReport
  /-- CMD, the last accepted command word (R30). -/
  cmd     : Word
  /-- SRC, LEN, DST, BITS (R31). -/
  ops     : Operands
  /-- OUT_LEN, OUT_BITS (R32). -/
  out     : OutRegs
  /-- TREE_VALID, LEAF_COUNT, NODE_COUNT, ROOT, LEAFSET and the NODE arena (R26, R33, R34, R38). -/
  tree    : Tree
  /-- CODE_VALID, MAX_CODE_LEN and the CODE table (R26, R33, R41). -/
  codes   : Codes
  /-- EXPSET0..7, the expected leaf set: bit `32w + b` is bit `b` of EXPSETw (R35). -/
  expset  : BitVec 256
  /-- FREQ (R36). -/
  freq    : FreqTable
  /-- DMEM and the constant DMEM_SIZE (R43, R9). -/
  mem     : Memory
  /-- PEND, the pending-command latch (R44). -/
  pend    : Option Pend
  /-- The model's own: the host steps the core still lets pass before it completes the pending command (LATENCY, R82). -/
  latency : Nat
  /-- The model's own: the number of the next draw. -/
  draws   : Nat
  /-- The model's own: the host's statements still to run, next first (R59, R74). -/
  host    : List HostOp
  /-- The model's own: the values the host has read, newest first (R74). -/
  reads   : List ReadRecord
  deriving DecidableEq, Repr

/-- The state right after power-on reset (R133), with DMEM_SIZE at its default (R9), DMEM holding draw 0 (R50), and a host
that has nothing to do. -/
def State.reset : State where
  ie      := false
  event   := ⟨false, false, false⟩
  err     := ⟨.ok, 0⟩
  cmd     := 0
  ops     := ⟨0, 0, 0, 0⟩
  out     := ⟨0, 0⟩
  tree    := Tree.empty
  codes   := Codes.empty
  expset  := 0
  freq    := FreqTable.empty
  mem     := ⟨Config.defaultDmemSize, 0, []⟩
  pend    := none
  latency := 0
  draws   := 1
  host    := []
  reads   := []

/-! ## Why a step can stop -/

/-- The faults. A command's errors are no faults: "Errors are command outcomes, not traps" (R119). -/
inductive Fault where
  /-- Raised by GENCODE when its traversal never ends, because the arena holds a cycle: a stuck state (the spec's D30: "A
  host-written tree could be cyclic and hang the walker; read-only keeps every tree well formed"). No run from a reset
  reaches it. Safe. -/
  | endlessTraversal
  deriving DecidableEq, Repr

/-- The refusals. -/
inductive Refusal where
  /-- Raised by `exec` for an instruction the model does not give a meaning. None is left. Safe. -/
  | notModelled (mnemonic : String)
  /-- Raised by a host step whose transaction R53 does not admit (not 32 bits wide, or the offset no multiple of 4): "the
  model refuses it (no meaning is given)". Safe. -/
  | inadmissibleTransaction
  deriving DecidableEq, Repr

/-- What a step answers. -/
abbrev Outcome := Host.Outcome State Fault Refusal

end Sys2Proof.Machine
end

