-- ==== Sys2Proof/Machine/Flags.lean ====
section
/-! DEFINITION. The block's flags (R46) as the words the host reads, and every rule that sets or clears one. -/

namespace Sys2Proof.Machine

/-- ERRCODE.CODE (R120). -/
def ErrCode.byte : ErrCode → Byte
  | .ok                  => 0x00
  | .emptyInput          => 0x01
  | .encodingConsistency => 0x02
  | .corruptStream       => 0x03
  | .treeMismatch        => 0x04
  | .illegalCommand      => 0x10
  | .addressRange        => 0x11
  | .noTree              => 0x12
  | .noCode              => 0x13
  | .countOverflow       => 0x14

/-- STATUS.BUSY is 1 "exactly when PEND holds a command" (R26). -/
def State.busy (s : State) : Bool := s.pend.isSome

/-- CTRL as read (R25): [1] IE; SRST reads 0. -/
def State.ctrlWord (s : State) : Word := 0#30 ++ BitVec.ofBool s.ie ++ 0#1

/-- STATUS (R23): [0] BUSY, [1] TREE_VALID, [2] CODE_VALID. -/
def State.statusWord (s : State) : Word :=
  0#29 ++ BitVec.ofBool s.codes.valid ++ BitVec.ofBool s.tree.valid ++ BitVec.ofBool s.busy

/-- EVENT as read (R23): [0] DONE, [1] ERR, [2] OVR. -/
def Event.word (e : Event) : Word :=
  0#29 ++ BitVec.ofBool e.ovr ++ BitVec.ofBool e.err ++ BitVec.ofBool e.done

/-- `EVENT <- EVENT & ~v[2:0]` (R27). -/
def Event.clear (e : Event) (v : Word) : Event where
  done := e.done && !v.getLsbD 0
  err  := e.err && !v.getLsbD 1
  ovr  := e.ovr && !v.getLsbD 2

/-- `irq = CTRL.IE & (EVENT.DONE | EVENT.ERR | EVENT.OVR)` (R47). -/
def State.irq (s : State) : Bool := s.ie && (s.event.done || s.event.err || s.event.ovr)

/-- EVENT.OVR is set "when a host write is dropped because BUSY = 1" (R27). -/
def State.setOvr (s : State) : State := { s with event := { s.event with ovr := true } }

end Sys2Proof.Machine
end

