-- ==== Sys2Proof/Machine/Ops.lean ====
section
/-! DEFINITION. The operations the commands and the host share: DMEM (R48, R50, R56), the byte-indexed tables (R36, R38,
R41), bitmaps of symbols (R34, R35), issue and completion of a command (R76, R77), and the resets (R132, R133). -/

namespace Sys2Proof.Machine

/-! ## DMEM -/

/-- What a byte nothing has written reads as: the draw DMEM0, taken once at power-on (R50). -/
def Memory.unlisted (m : Memory) (a : Nat) : Byte := Config.dmem0 m.draw a

/-- The byte listed at an address, if one is. -/
def cellGet : List Host.Cell → Nat → Option Byte
  | [], _ => none
  | (a', b) :: rest, a => if a' = a then some b else cellGet rest a

/-- Take an address out of the list. -/
def cellErase : List Host.Cell → Nat → List Host.Cell
  | [], _ => []
  | (a', b) :: rest, a => if a' = a then rest else (a', b) :: cellErase rest a

/-- List a byte at an address, keeping the addresses rising. -/
def cellInsert : List Host.Cell → Nat → Byte → List Host.Cell
  | [], a, b => [(a, b)]
  | (a', b') :: rest, a, b =>
    if a < a' then (a, b) :: (a', b') :: rest
    else if a = a' then (a, b) :: rest
    else (a', b') :: cellInsert rest a b

/-- `MemRead(a, 1)` (R11). -/
def Memory.read (m : Memory) (a : Nat) : Byte := (cellGet m.cells a).getD (m.unlisted a)

/-- `MemWrite(a, 1, v)` (R11). Writing what the unwritten byte reads as takes the entry out, so that equal contents are
equal data. -/
def Memory.write (m : Memory) (a : Nat) (v : Byte) : Memory :=
  { m with cells := if v = m.unlisted a then cellErase m.cells a else cellInsert m.cells a v }

/-- Bytes written one after another from address `a` up. -/
def Memory.writeBytes (m : Memory) (a : Nat) : List Byte → Memory
  | [] => m
  | v :: vs => Memory.writeBytes (m.write a v) (a + 1) vs

/-- The `n` bytes from address `a` up, in order. -/
def Memory.readBytes (m : Memory) (a n : Nat) : List Byte := (List.range n).map (fun k => m.read (a + k))

/-- The canonical form: addresses rise, lie below DMEM_SIZE, and no entry equals what the unwritten byte reads as. -/
def Memory.wf (m : Memory) : Bool :=
  decide (m.cells.Pairwise (fun x y => x.1 < y.1)) &&
    m.cells.all (fun c => decide (c.1 < m.size) && decide (c.2 ≠ m.unlisted c.1))

/-- The host word at byte address `a`: "the four DMEM bytes 4k..4k+3 in little-endian order" (R51). -/
def Memory.readWord (m : Memory) (a : Nat) : Word :=
  m.read (a + 3) ++ m.read (a + 2) ++ m.read (a + 1) ++ m.read a

/-- `MemWrite(4k+j, 1, v[8j+7:8j])` for j = 0..3 (R51). -/
def Memory.writeWord (m : Memory) (a : Nat) (v : Word) : Memory :=
  m.writeBytes a [v.extractLsb' 0 8, v.extractLsb' 8 8, v.extractLsb' 16 8, v.extractLsb' 24 8]

/-! ## Tables indexed by a symbol or a node index -/

/-- The entry of a symbol in a 256-entry table (R36, R41). -/
def symGet {α : Type} (t : Vector α 256) (b : Byte) : α := t[b.toNat]'(b.isLt)

/-- A table with one symbol's entry replaced. -/
def symSet {α : Type} (t : Vector α 256) (b : Byte) (x : α) : Vector α 256 := t.set b.toNat x b.isLt

/-- `NODE[i]` (R37). "NIL names no node": the reader's rules never ask for it in a state a run reaches (log entry 6). -/
def nodeAt (t : Vector Node 511) (i : NodeIx) : Node := (t[i.toNat]?).getD Node.empty

/-- The bitmap whose bit `k` is `p k`, for `k < n`. -/
def bitmap (p : Nat → Bool) : (n : Nat) → BitVec n
  | 0 => 0#0
  | n + 1 => BitVec.cons (p n) (bitmap p n)

/-- Word `w` of a 256-bit bitmap: bit `b` of the word is bit `32w + b` (R34, R35). -/
def bitmapWord (x : BitVec 256) (w : BitVec 3) : Word := x.extractLsb' (32 * w.toNat) 32

/-- A 256-bit bitmap with word `w` replaced (R35). -/
def bitmapSetWord (x : BitVec 256) (w : BitVec 3) (v : Word) : BitVec 256 :=
  bitmap (fun k => if k / 32 = w.toNat then v.getLsbD (k % 32) else x.getLsbD k) 256

/-! ## Issue and completion -/

/-- Acceptance of a command word (R76): CMD and PEND are written, BUSY reads 1 from now on, and the time the command
stays pending is drawn (R82). -/
def State.accept (s : State) (v : Word) : State :=
  { s with cmd := v, pend := some ⟨v, s.ops⟩, latency := Config.latency s.draws, draws := s.draws + 1 }

/-- A command word accepted (R76) and due at once: the state in which the very next step completes it. -/
def State.placeCommand (s : State) (v : Word) : State :=
  { s with cmd := v, pend := some ⟨v, s.ops⟩, latency := 0 }

/-- The `Ok` arm of completion (R77), over the state that already holds the command's writes. -/
def State.succeed (s : State) : State :=
  { s with err := ⟨.ok, 0⟩, event := { s.event with done := true }, pend := none, latency := 0 }

/-- The `Err` arm of completion (R77, R123): the error report, EVENT.ERR and, for ENCODE and DECODE (`zeroOut`), OUT_LEN
and OUT_BITS set to 0. Nothing else changes (R78). -/
def State.failWith (s : State) (zeroOut : Bool) (e : ErrReport) : State :=
  { s with err := e, event := { s.event with err := true }, out := if zeroOut then ⟨0, 0⟩ else s.out, pend := none, latency := 0 }

/-- What a command's `execute` gives (R77): `Ok(writes)` as the state with the writes applied, `Err(code, info)`, or, for a
traversal that never ends, neither. -/
inductive CmdResult where
  | done (s : State)
  | fail (e : ErrReport)
  | hang
  deriving DecidableEq, Repr

/-- Completion of a command (R77) from the result of its `execute`. -/
def State.complete (s : State) (zeroOut : Bool) : CmdResult → Outcome
  | .done t => .next t.succeed
  | .fail e => .next (s.failWith zeroOut e)
  | .hang   => .fault .endlessTraversal

/-- The core's step for one command: enabled exactly when PEND ≠ none (R77). With PEND = none "the core takes no step"
(R131), and the state stays as it is. -/
def State.runPending (s : State) (zeroOut : Bool) (execute : Pend → CmdResult) : Outcome :=
  match s.pend with
  | none => .next s
  | some p => s.complete zeroOut (execute p)

/-! ## Reset -/

/-- What both resets do (R133): every element at its reset value, a pending command discarded (R134), and DMEM as it was: "No
reset of any kind changes DMEM" (R50). The host's side goes on. -/
def State.resetElements (s : State) : State :=
  { State.reset with mem := s.mem, host := s.host, reads := s.reads, draws := s.draws }

/-- Soft reset (R132, R133). -/
def State.softReset (s : State) : State := s.resetElements

/-- Power-on reset asserted again by the platform (R132, R133). DMEM0 is "a draw taken once at power-on", in `State.reset`, and
is not taken again (R50; log entry 1). -/
def State.powerOnReset (s : State) : State := s.resetElements

end Sys2Proof.Machine
end

