-- ==== Sys2Proof/Machine/Operands.lean ====
section
/-! DEFINITION. How the commands use their operands (R69, R72): DMEM ranges (R57), input bytes (R86, R107) and the bits of a
packed stream (R106). Every operand is "a 32-bit unsigned value, used as given". -/

namespace Sys2Proof.Machine

/-- "A DMEM range with start A and length L ... is valid exactly when A + L ≤ DMEM_SIZE, computed on unbounded naturals
with no wrap-around" (R57). -/
def Memory.rangeOk (m : Memory) (a l : Nat) : Bool := decide (a + l ≤ m.size)

/-- "ceil8(T) = (T + 7) div 8 is the number of bytes that hold T bits" (R10). -/
def ceil8 (t : Nat) : Nat := (t + 7) / 8

/-- The bytes of the input range [SRC, SRC + LEN), in input order (R84, R107). -/
def Operands.inputBytes (o : Operands) (m : Memory) : List Byte := m.readBytes o.src.toNat o.len.toNat

/-- `bit(P, i)`: "Stream bit i is bit 7 − (i mod 8) of the byte at P + (i div 8)" (R106). -/
def Memory.streamBit (m : Memory) (p i : Nat) : Bool := (m.read (p + i / 8)).getLsbD (7 - i % 8)

/-- The bits a DECODE takes: stream bits 0 to BITS − 1 from SRC (R112). The padding bits are never read (R111). -/
def Operands.stream (o : Operands) (m : Memory) : List Bool :=
  (List.range o.bits.toNat).map (m.streamBit o.src.toNat)

/-- A natural number as error information (R120); the ones the commands report are below 2^32. -/
def infoOf (n : Nat) : Word := BitVec.ofNat 32 n

end Sys2Proof.Machine
end

