-- ==== Sys2Proof/Machine/BitPacker.lean ====
section
/-! DEFINITION. The bit packer: ENCODE (R105 to R110). -/

namespace Sys2Proof.Machine

/-- `code_string(s)`: "CODE[s].BITS[L−1], CODE[s].BITS[L−2], ..., CODE[s].BITS[0]" (R105). -/
def Code.string (c : Code) : List Bool :=
  (List.range c.len.toNat).map (fun j => c.bits.getLsbD (c.len.toNat - 1 - j))

/-- The logical bit sequence of the input (R105), or the offset of the first byte that has no code (R107). `k` is the offset
of the first byte of the list. -/
def encodeBits (c : Vector Code 256) : (k : Nat) → List Byte → Except Nat (List Bool)
  | _, [] => .ok []
  | k, b :: bs =>
    if (symGet c b).len = 0#8 then .error k
    else
      match encodeBits c (k + 1) bs with
      | .ok rest => .ok ((symGet c b).string ++ rest)
      | .error j => .error j

/-- One byte of a packed stream: bit `7 − m` is stream bit `m`, and 0 past the end (R106, R107). -/
def packByte (bits : List Bool) : Byte := bitmap (fun k => bits.getD (7 - k) false) 8

/-- The first `n` bytes of a packed stream (R106). -/
def packBytes : (n : Nat) → List Bool → List Byte
  | 0, _ => []
  | n + 1, bits => packByte bits :: packBytes n (bits.drop 8)

/-- The packed bytes of a bit sequence: `ceil8(T)` of them (R106). -/
def pack (bits : List Bool) : List Byte := packBytes (ceil8 bits.length) bits

/-- `execute_ENCODE(src, len, dst)`, its checks in the rule's order (R107). -/
def encodeCommand (s : State) (p : Pend) : CmdResult :=
  if s.codes.valid then
    if s.mem.rangeOk p.ops.src.toNat p.ops.len.toNat then
      if p.ops.len = 0#32 then .fail ⟨.emptyInput, 0⟩
      else
        match encodeBits s.codes.entry 0 (p.ops.inputBytes s.mem) with
        | .error k => .fail ⟨.encodingConsistency, infoOf k⟩
        | .ok bits =>
          if s.mem.rangeOk p.ops.dst.toNat (ceil8 bits.length) then
            .done { s with
              mem := s.mem.writeBytes p.ops.dst.toNat (pack bits)
              out := ⟨BitVec.ofNat 32 (ceil8 bits.length), BitVec.ofNat 32 bits.length⟩ }
          else .fail ⟨.addressRange, 1⟩
    else .fail ⟨.addressRange, 0⟩
  else .fail ⟨.noCode, 0⟩

/-- ENCODE (R107). -/
def execEncode (s : State) : Outcome := s.runPending true (encodeCommand s)

end Sys2Proof.Machine
end

