-- ==== Sys2Proof/Machine/BitUnpacker.lean ====
section
/-! DEFINITION. The bit unpacker: DECODE (R111 to R118). -/

namespace Sys2Proof.Machine

/-- The child a bit selects: "RIGHT if b = 1, else LEFT" (R112). -/
def Node.child (n : Node) (b : Bool) : NodeIx := if b then n.right else n.left

/-- The walk over the stream's bits (R112 to R114, R116): `i` counts the bits taken, `n` the bytes emitted, and `pos` and `d`
are the walk's node and depth. `size` is DMEM_SIZE and `dst` the output start. The first error met in bit order is the result,
otherwise the output bytes. -/
def walk (t : Tree) (size dst : Nat) : List Bool → (i n : Nat) → (pos : NodeIx) → (d : Nat) → Except ErrReport (List Byte)
  | [], i, _, _, d => if d = 0 then .ok [] else .error ⟨.corruptStream, infoOf i⟩
  | b :: bs, i, n, pos, d =>
    if (nodeAt t.node pos).child b = nil then .error ⟨.corruptStream, infoOf i⟩
    else
      match (nodeAt t.node ((nodeAt t.node pos).child b)).kind with
      | .leaf =>
        if dst + n + 1 > size then .error ⟨.addressRange, 1⟩
        else
          match walk t size dst bs (i + 1) (n + 1) t.root 0 with
          | .ok out  => .ok ((nodeAt t.node ((nodeAt t.node pos).child b)).sym :: out)
          | .error e => .error e
      | .internal => walk t size dst bs (i + 1) n ((nodeAt t.node pos).child b) (d + 1)

/-- "the least symbol s whose bits differ" (R115), if LEAFSET and EXPSET differ. -/
def leastDifference (x y : BitVec 256) : Option Nat :=
  (List.range 256).find? (fun k => x.getLsbD k != y.getLsbD k)

/-- `execute_DECODE(chk, src, len, dst, bits)` after its tree check (R116). -/
def decodeStream (s : State) (p : Pend) : CmdResult :=
  if p.ops.len.toNat = ceil8 p.ops.bits.toNat then
    if s.mem.rangeOk p.ops.src.toNat p.ops.len.toNat then
      match walk s.tree s.mem.size p.ops.dst.toNat (p.ops.stream s.mem) 0 0 s.tree.root 0 with
      | .error e => .fail e
      | .ok out =>
        .done { s with
          mem := s.mem.writeBytes p.ops.dst.toNat out
          out := ⟨BitVec.ofNat 32 out.length, p.ops.bits⟩ }
    else .fail ⟨.addressRange, 0⟩
  else .fail ⟨.corruptStream, 0xFFFFFFFF#32⟩

/-- `execute_DECODE(chk, src, len, dst, bits)`, its checks in the rule's order (R116). -/
def decodeCommand (chk : Bool) (s : State) (p : Pend) : CmdResult :=
  if s.tree.valid then
    match if chk then leastDifference s.tree.leafset s.expset else none with
    | some k => .fail ⟨.treeMismatch, infoOf k⟩
    | none => decodeStream s p
  else .fail ⟨.noTree, 0⟩

/-- DECODE with CHK = 0 (R116). -/
def execDecode (s : State) : Outcome := s.runPending true (decodeCommand false s)

/-- DECODE with CHK = 1 (R116). -/
def execDecodeChk (s : State) : Outcome := s.runPending true (decodeCommand true s)

end Sys2Proof.Machine
end

