-- ==== Sys2Proof/Machine/CodeTable.lean ====
section
/-! DEFINITION. The code table generator: GENCODE (R100 to R104). -/

namespace Sys2Proof.Machine

/-- The entries `C[NODE[n].SYM] <- {LEN: l, BITS: v}` of the leaves under node `n`, left before right (R102), where `n` is
reached by the path of length `l` and value `v` (R100). `fuel` bounds the depth: a path of more than 511 nodes passes a
node twice, and then the traversal never ends (`none`). -/
def leafCodes (t : Vector Node 511) : (fuel : Nat) → (n : NodeIx) → (l v : Nat) → Option (List (Byte × Code))
  | 0, _, _, _ => none
  | fuel + 1, n, l, v =>
    match (nodeAt t n).kind with
    | .leaf => some [((nodeAt t n).sym, ⟨BitVec.ofNat 8 l, BitVec.ofNat 255 v⟩)]
    | .internal =>
      match (if (nodeAt t n).left = nil then some [] else leafCodes t fuel (nodeAt t n).left (l + 1) (2 * v)),
            (if (nodeAt t n).right = nil then some [] else leafCodes t fuel (nodeAt t n).right (l + 1) (2 * v + 1)) with
      | some xs, some ys => some (xs ++ ys)
      | _, _ => none

/-- The CODE table with the entries set in turn, every other entry empty (R102: "GENCODE rewrites every entry"). -/
def codeTableOf (xs : List (Byte × Code)) : Vector Code 256 :=
  xs.foldl (fun c x => symSet c x.1 x.2) (Vector.replicate 256 Code.empty)

/-- `max over s of C[s].LEN` (R102). -/
def maxCodeLen (c : Vector Code 256) : BitVec 8 :=
  BitVec.ofNat 8 (c.toList.foldl (fun m x => max m x.len.toNat) 0)

/-- `execute_GENCODE(state)` (R102). -/
def gencodeCommand (s : State) (_p : Pend) : CmdResult :=
  if s.tree.valid then
    match leafCodes s.tree.node 512 s.tree.root 0 0 with
    | some xs => .done { s with codes := ⟨true, maxCodeLen (codeTableOf xs), codeTableOf xs⟩ }
    | none => .hang
  else .fail ⟨.noTree, 0⟩

/-- GENCODE (R102). -/
def execGencode (s : State) : Outcome := s.runPending false (gencodeCommand s)

end Sys2Proof.Machine
end

