-- ==== Sys2Proof/Machine/Control.lean ====
section
/-! DEFINITION. NOP (R83). -/

namespace Sys2Proof.Machine

/-- `execute_NOP(state) = complete()`, with no writes (R83). -/
def execNop (s : State) : Outcome := s.runPending false (fun _ => .done s)

end Sys2Proof.Machine
end

