-- ==== Sys2Proof/Machine/Frequency.lean ====
section
/-! DEFINITION. Frequency analysis: CLRF and COUNT (R84 to R87). -/

namespace Sys2Proof.Machine

/-- "a single pass in input order over the bytes of the range, adding 1 to the entry of each byte value read" (R84); the
symbol whose entry would pass 2^32 − 1 otherwise (R86, R87). -/
def countBytes : List Byte → FreqTable → Except Byte FreqTable
  | [], f => .ok f
  | b :: bs, f =>
    if symGet f b = 0xFFFFFFFF#32 then .error b
    else countBytes bs (symSet f b (symGet f b + 1))

/-- `execute_COUNT(acc, src, len)` (R86). -/
def countCommand (acc : Bool) (s : State) (p : Pend) : CmdResult :=
  if s.mem.rangeOk p.ops.src.toNat p.ops.len.toNat then
    match countBytes (p.ops.inputBytes s.mem) (if acc then s.freq else FreqTable.empty) with
    | .ok f    => .done { s with freq := f }
    | .error b => .fail ⟨.countOverflow, infoOf b.toNat⟩
  else .fail ⟨.addressRange, 0⟩

/-- CLRF: every FREQ entry becomes 0 (R85). -/
def execClrf (s : State) : Outcome := s.runPending false (fun _ => .done { s with freq := FreqTable.empty })

/-- COUNT with ACC = 0 (R86). -/
def execCount (s : State) : Outcome := s.runPending false (countCommand false s)

/-- COUNT with ACC = 1 (R86). -/
def execCountAcc (s : State) : Outcome := s.runPending false (countCommand true s)

end Sys2Proof.Machine
end

