-- ==== Sys2Proof/Machine/TreeBuilder.lean ====
section
/-! DEFINITION. The Huffman tree builder: BUILD (R88 to R99). -/

namespace Sys2Proof.Machine

/-- The distinct symbols, FREQ[s] ≠ 0, "in ascending symbol order" (R89). -/
def presentSymbols (f : FreqTable) : List Byte :=
  ((List.range 256).map (BitVec.ofNat 8)).filter (fun b => symGet f b != 0#32)

/-- The Leaf of a symbol, with FREQ = zext_40(FREQ[s]) (R89). -/
def leafNode (f : FreqTable) (b : Byte) : Node := ⟨true, .leaf, b, (symGet f b).setWidth 40, nil, nil⟩

/-- The order key `(NODE[i].FREQ, i)` of an entry of the min-priority structure (R90). -/
structure Key where
  freq : BitVec 40
  ix   : Nat
  deriving DecidableEq, Repr

/-- "compared lexicographically: smaller FREQ first, and on equal FREQ the smaller arena index first" (R90). -/
def Key.lt (a b : Key) : Bool :=
  decide (a.freq.toNat < b.freq.toNat) || (decide (a.freq = b.freq) && decide (a.ix < b.ix))

/-- Extract the node of least key, with the nodes left (R91). The structure's layout is not architectural (R99). -/
def extractMin : List Key → Option (Key × List Key)
  | [] => none
  | k :: ks =>
    match extractMin ks with
    | none => some (k, [])
    | some (m, rest) => if k.lt m then some (k, ks) else some (m, k :: rest)

/-- The Internal node over the first extracted `a` and the second `b`: "LEFT = b, RIGHT = a and
FREQ = NODE[a].FREQ + NODE[b].FREQ" (R91). -/
def mergedNode (a b : Key) : Node :=
  ⟨true, .internal, 0, a.freq + b.freq, BitVec.ofNat 9 b.ix, BitVec.ofNat 9 a.ix⟩

/-- The merge step, "repeated while the structure holds two or more nodes" (R91), at most `n` times. The arena grows at its
end, so `next`, the lowest unused index, is its length. -/
def mergeForest : (n : Nat) → List Node → List Key → List Node
  | 0, arena, _ => arena
  | n + 1, arena, heap =>
    match extractMin heap with
    | none => arena
    | some (a, heap1) =>
      match extractMin heap1 with
      | none => arena
      | some (b, heap2) =>
        mergeForest n (arena ++ [mergedNode a b]) (⟨a.freq + b.freq, arena.length⟩ :: heap2)

/-- The keys of the leaves, whose arena indices count from 0 (R89, R90). -/
def leafKeys (leaves : List Node) : List Key :=
  (List.range leaves.length).zipWith (fun i n => ⟨n.freq, i⟩) leaves

/-- The arena of the leaves' tree: the single-symbol case of R94, otherwise the merges of R91. -/
def arenaOf (leaves : List Node) : List Node :=
  match leaves with
  | [leaf] => [leaf, ⟨true, .internal, 0, leaf.freq, 0, nil⟩]
  | _ => mergeForest leaves.length leaves (leafKeys leaves)

/-- The tree BUILD writes for a FREQ table with at least one symbol (R95). -/
def buildTree (f : FreqTable) : Tree :=
  let leaves := (presentSymbols f).map (leafNode f)
  let arena := arenaOf leaves
  { valid := true
    leafCount := BitVec.ofNat 9 leaves.length
    nodeCount := BitVec.ofNat 9 arena.length
    root := BitVec.ofNat 9 (arena.length - 1)
    leafset := bitmap (fun k => symGet f (BitVec.ofNat 8 k) != 0#32) 256
    node := Vector.ofFn (fun i => (arena[i.val]?).getD Node.empty) }

/-- `execute_BUILD(state)` (R95). -/
def buildCommand (s : State) (_p : Pend) : CmdResult :=
  if presentSymbols s.freq = [] then .fail ⟨.emptyInput, 0⟩
  else .done { s with tree := buildTree s.freq, codes := Codes.empty }

/-- BUILD (R95). -/
def execBuild (s : State) : Outcome := s.runPending false (buildCommand s)

end Sys2Proof.Machine
end

