-- ==== Sys2Proof/Machine/Dispatch.lean ====
section
/-! DEFINITION. The meaning of each command: the core's completion step (R77) of the pending command. -/

namespace Sys2Proof.Machine

def exec (i : Instr) (s : State) : Host.Outcome State Fault Refusal :=
  match i with
  | .nop => Sys2Proof.Machine.execNop s
  | .clrf => Sys2Proof.Machine.execClrf s
  | .count => Sys2Proof.Machine.execCount s
  | .countAcc => Sys2Proof.Machine.execCountAcc s
  | .build => Sys2Proof.Machine.execBuild s
  | .gencode => Sys2Proof.Machine.execGencode s
  | .encode => Sys2Proof.Machine.execEncode s
  | .decode => Sys2Proof.Machine.execDecode s
  | .decodeChk => Sys2Proof.Machine.execDecodeChk s

end Sys2Proof.Machine
end

