-- ==== Sys2Proof/Machine/HostBus.lean ====
section
/-! DEFINITION. The host bus: the register map (R23), the windows (R39, R42, R51), what a read returns and what a write does
(R25 to R35, R53 to R55), and the accesses made while BUSY = 1 (R58). -/

namespace Sys2Proof.Machine

/-! ## The register map -/

/-- The control registers of R23 that stand alone. -/
inductive Reg where
  | id | version | ctrl | status | event | errcode | errinfo | cmd | src | len | dst | bits | outLen | outBits
  | leafCount | nodeCount | root | maxCodeLen | dmemSize
  deriving DecidableEq, Repr

/-- Their offsets (R23). -/
def Reg.offset : Reg → Nat
  | .id         => 0x000
  | .version    => 0x004
  | .ctrl       => 0x008
  | .status     => 0x00C
  | .event      => 0x010
  | .errcode    => 0x014
  | .errinfo    => 0x018
  | .cmd        => 0x01C
  | .src        => 0x020
  | .len        => 0x024
  | .dst        => 0x028
  | .bits       => 0x02C
  | .outLen     => 0x030
  | .outBits    => 0x034
  | .leafCount  => 0x038
  | .nodeCount  => 0x03C
  | .root       => 0x040
  | .maxCodeLen => 0x044
  | .dmemSize   => 0x048

/-- The stand-alone registers, in the map's order. -/
def Reg.all : List Reg :=
  [.id, .version, .ctrl, .status, .event, .errcode, .errinfo, .cmd, .src, .len, .dst, .bits, .outLen, .outBits,
   .leafCount, .nodeCount, .root, .maxCodeLen, .dmemSize]

/-- What an offset of the register space names (R23, R55). -/
inductive Target where
  /-- A stand-alone register. -/
  | reg (r : Reg)
  /-- LEAFSETw. -/
  | leafset (w : BitVec 3)
  /-- EXPSETw. -/
  | expset (w : BitVec 3)
  /-- FREQ[s]. -/
  | freq (s : Byte)
  /-- Word `k` of NODE[i]. -/
  | node (i : NodeIx) (k : BitVec 2)
  /-- Word `k` of CODE[s]. -/
  | code (s : Byte) (k : BitVec 4)
  /-- The DMEM word at byte address `a`. -/
  | dmem (a : Nat)
  /-- An unmapped offset or a reserved word (R55). -/
  | unmapped
  deriving DecidableEq, Repr

/-- The offset of a target (R23); 0x04C, a reserved word, stands for the unmapped ones. -/
def Target.offset : Target → Nat
  | .reg r     => r.offset
  | .leafset w => 0x060 + 4 * w.toNat
  | .expset w  => 0x080 + 4 * w.toNat
  | .freq s    => 0x400 + 4 * s.toNat
  | .node i k  => 0x1000 + 16 * i.toNat + 4 * k.toNat
  | .code s k  => 0x4000 + 64 * s.toNat + 4 * k.toNat
  | .dmem a    => 0x100000 + a
  | .unmapped  => 0x04C

/-- The target of an offset below 0x400 (R23, R55). -/
def controlTarget (off : Nat) : Target :=
  match Reg.all.find? (fun r => r.offset == off) with
  | some r => .reg r
  | none =>
    if 0x060 ≤ off ∧ off < 0x080 then .leafset (BitVec.ofNat 3 ((off - 0x060) / 4))
    else if 0x080 ≤ off ∧ off < 0x0A0 then .expset (BitVec.ofNat 3 ((off - 0x080) / 4))
    else .unmapped

/-- The target of a word-aligned offset, for a DMEM of `size` bytes (R23, R51, R55). -/
def target (size off : Nat) : Target :=
  if off < 0x400 then controlTarget off
  else if off < 0x800 then .freq (BitVec.ofNat 8 ((off - 0x400) / 4))
  else if off < 0x1000 then .unmapped
  else if off < 0x2FF0 then .node (BitVec.ofNat 9 ((off - 0x1000) / 16)) (BitVec.ofNat 2 ((off - 0x1000) / 4))
  else if off < 0x4000 then .unmapped
  else if off < 0x8000 then .code (BitVec.ofNat 8 ((off - 0x4000) / 64)) (BitVec.ofNat 4 ((off - 0x4000) / 4))
  else if off < 0x100000 then .unmapped
  else if off - 0x100000 < size then .dmem (off - 0x100000)
  else .unmapped

/-- The FREQ, NODE, CODE and DMEM windows, whose reads while BUSY = 1 are unspecified (R58). -/
def Target.isWindow : Target → Bool
  | .freq _ | .node _ _ | .code _ _ | .dmem _ => true
  | .reg _ | .leafset _ | .expset _ | .unmapped => false

/-- "CMD, SRC, LEN, DST, BITS, EXPSET0..7, the FREQ window or the DMEM window": the writes that are dropped while BUSY = 1
(R58). -/
def Target.dropsWhenBusy : Target → Bool
  | .reg .cmd | .reg .src | .reg .len | .reg .dst | .reg .bits => true
  | .expset _ | .freq _ | .dmem _ => true
  | .reg _ | .leafset _ | .node _ _ | .code _ _ | .unmapped => false

/-! ## Reads -/

/-- KIND as a bit: "0 = Leaf, 1 = Internal" (R37). -/
def Kind.bit : Kind → Bool
  | .leaf     => false
  | .internal => true

/-- Word `k` of an arena entry (R39). -/
def Node.word (n : Node) (k : BitVec 2) : Word :=
  match k.toNat with
  | 0 => 0#16 ++ n.sym ++ 0#6 ++ BitVec.ofBool n.kind.bit ++ BitVec.ofBool n.valid
  | 1 => n.freq.extractLsb' 0 32
  | 2 => 0#24 ++ n.freq.extractLsb' 32 8
  | _ => 0#7 ++ n.right ++ 0#7 ++ n.left

/-- Word `k` of a code table entry (R42). -/
def Code.word (c : Code) (k : BitVec 4) : Word :=
  if k.toNat = 0 then c.len.setWidth 32
  else if k.toNat ≤ 8 then (c.bits.setWidth 256).extractLsb' (32 * (k.toNat - 1)) 32
  else 0#32

/-- What a stand-alone register reads (R23). -/
def State.readReg (s : State) : Reg → Word
  | .id         => Config.idWord
  | .version    => Config.versionWord
  | .ctrl       => s.ctrlWord
  | .status     => s.statusWord
  | .event      => s.event.word
  | .errcode    => s.err.code.byte.setWidth 32
  | .errinfo    => s.err.info
  | .cmd        => s.cmd
  | .src        => s.ops.src
  | .len        => s.ops.len
  | .dst        => s.ops.dst
  | .bits       => s.ops.bits
  | .outLen     => s.out.len
  | .outBits    => s.out.bits
  | .leafCount  => s.tree.leafCount.setWidth 32
  | .nodeCount  => s.tree.nodeCount.setWidth 32
  | .root       => s.tree.root.setWidth 32
  | .maxCodeLen => s.codes.maxLen.setWidth 32
  | .dmemSize   => BitVec.ofNat 32 s.mem.size

/-- What a target holds (R23, R39, R42, R51); an unmapped offset reads 0 (R55). -/
def State.readTarget (s : State) : Target → Word
  | .reg r     => s.readReg r
  | .leafset w => bitmapWord s.tree.leafset w
  | .expset w  => bitmapWord s.expset w
  | .freq b    => symGet s.freq b
  | .node i k  => (nodeAt s.tree.node i).word k
  | .code b k  => (symGet s.codes.entry b).word k
  | .dmem a    => s.mem.readWord a
  | .unmapped  => 0#32

/-- `HostRead(off)` of an admitted transaction: the value and the state after. A read has no side effect (R54); a window read
while BUSY = 1 returns a fresh draw (R58), which only counts the draw. -/
def State.busRead (s : State) (off : BitVec 21) : Word × State :=
  if s.busy && (target s.mem.size off.toNat).isWindow then
    (Config.windowDraw s.draws, { s with draws := s.draws + 1 })
  else (s.readTarget (target s.mem.size off.toNat), s)

/-! ## Writes -/

/-- A write to CTRL (R25): SRST resets the block and bit 1 is then ignored; otherwise IE takes bit 1. -/
def State.writeCtrl (s : State) (v : Word) : State :=
  if v.getLsbD 0 then s.softReset else { s with ie := v.getLsbD 1 }

/-- A write to a stand-alone register. Read-only registers ignore it (R55). -/
def State.writeReg (s : State) (v : Word) : Reg → State
  | .ctrl  => s.writeCtrl v
  | .event => { s with event := s.event.clear v }
  | .cmd   => s.accept v
  | .src   => { s with ops := { s.ops with src := v } }
  | .len   => { s with ops := { s.ops with len := v } }
  | .dst   => { s with ops := { s.ops with dst := v } }
  | .bits  => { s with ops := { s.ops with bits := v } }
  | .id | .version | .status | .errcode | .errinfo | .outLen | .outBits | .leafCount | .nodeCount | .root
  | .maxCodeLen | .dmemSize => s

/-- What a write does to a target (R23); LEAFSET, the NODE and CODE windows and unmapped offsets ignore it (R55). -/
def State.writeTarget (s : State) (v : Word) : Target → State
  | .reg r     => s.writeReg v r
  | .expset w  => { s with expset := bitmapSetWord s.expset w v }
  | .freq b    => { s with freq := symSet s.freq b v }
  | .dmem a    => { s with mem := s.mem.writeWord a v }
  | .leafset _ | .node _ _ | .code _ _ | .unmapped => s

/-- `HostWrite(off, v)` of an admitted transaction; while BUSY = 1 some writes are dropped and set EVENT.OVR (R58). -/
def State.busWrite (s : State) (off : BitVec 21) (v : Word) : State :=
  if s.busy && (target s.mem.size off.toNat).dropsWhenBusy then s.setOvr
  else s.writeTarget v (target s.mem.size off.toNat)

/-! ## The host's step -/

/-- The host goes on to the statements `rest`; the pending command has waited one host step more. -/
def State.hostAdvance (s : State) (rest : List HostOp) : State :=
  { s with host := rest, latency := s.latency - 1 }

/-- The host notes a value it has read (R74). -/
def State.record (s : State) (off : BitVec 21) (v : Word) (expected : Option Word) : State :=
  { s with reads := ⟨off, v, expected⟩ :: s.reads }

/-- One step of the host agent: one transaction (R53, R59, R74), or the platform's reset step (R132). A transaction R53 does
not admit is refused. -/
def hostStep (s : State) (op : HostOp) (rest : List HostOp) : Outcome :=
  match op with
  | .write off width v =>
    if transactionAdmitted off width then .next ((s.hostAdvance rest).busWrite off v)
    else .refused .inadmissibleTransaction
  | .read off width =>
    if transactionAdmitted off width then
      .next (((s.hostAdvance rest).busRead off).2.record off ((s.hostAdvance rest).busRead off).1 none)
    else .refused .inadmissibleTransaction
  | .check off value =>
    if transactionAdmitted off 32 then
      .next (((s.hostAdvance rest).busRead off).2.record off ((s.hostAdvance rest).busRead off).1 (some value))
    else .refused .inadmissibleTransaction
  | .wait off mask value =>
    if transactionAdmitted off 32 then
      if ((s.hostAdvance rest).busRead off).1 &&& mask = value then .next ((s.hostAdvance rest).busRead off).2
      else .next ((s.hostAdvance (op :: rest)).busRead off).2
    else .refused .inadmissibleTransaction
  | .powerOn => .next (s.hostAdvance rest).powerOnReset

/-- Who takes the next step (R59). -/
inductive Turn where
  /-- Neither agent has a step: no command is pending and the host has nothing left to do (R131, R143). -/
  | idle
  /-- The core completes the pending command (R77). -/
  | core
  /-- The host runs its next statement. -/
  | host (op : HostOp) (rest : List HostOp)
  deriving DecidableEq, Repr

/-- "Any enabled agent may take the next step" (R59): which one does is the draw LATENCY (R82). The core waits that many host
steps, and no longer than the host has steps to take, so an enabled core step is always taken in the end. -/
def nextTurn (s : State) : Turn :=
  match s.pend, s.host with
  | none, [] => .idle
  | none, op :: rest => .host op rest
  | some _, [] => .core
  | some _, op :: rest => if s.latency = 0 then .core else .host op rest

end Sys2Proof.Machine
end

