-- ==== Sys2Proof/Machine/Cycle.lean ====
section
/-! DEFINITION. The core's completion step (R77): decode the pending word and run it, or report ILLEGAL_COMMAND (R70). -/

namespace Sys2Proof.Machine

/-- `raise Error(ILLEGAL_COMMAND, w)` (R70, R77): "no other state change". -/
def illegalCommand (s : State) : Outcome := s.runPending false (fun p => .fail ⟨.illegalCommand, p.word⟩)

/-- The core's step (R77). "The core decodes the word when it completes the command" (R68). -/
def coreStep (s : State) : Outcome :=
  match s.pend with
  | none => .next s
  | some p =>
    match decode p.word with
    | .ok i    => exec i s
    | .error _ => illegalCommand s

/-- One step of the agent whose turn it is (R59). -/
def stepTurn (s : State) : Turn → Outcome
  | .idle         => .next s
  | .core         => coreStep s
  | .host op rest => hostStep s op rest

end Sys2Proof.Machine
end

