-- ==== Sys2Proof/Machine/Step.lean ====
section
/-! DEFINITION. One step of the machine: one atomic step of the host or of the core (R59). -/

namespace Sys2Proof.Machine

/-- "Each step is atomic, so the execution is one interleaving of host and core steps" (R59). A machine in which neither
agent has a step stays as it is (R131). -/
def step (s : State) : Host.Outcome State Fault Refusal := stepTurn s (nextTurn s)

/-- The state whose very next step runs the command word `w` of `nbits` bits: the core fetches nothing (R21), so the word is
placed where an accepted command stands, in PEND with the operand registers beside it (R76), and is due at once. -/
def State.withFetchWord (s : State) (nbits w : Nat) : State := s.placeCommand (BitVec.ofNat 32 (w % 2 ^ nbits))

end Sys2Proof.Machine
end

