-- ==== Sys2Proof/Machine/HostProgram.lean ====
section
/-! DEFINITION. The host program notation (R73, R74) and its pseudo-instructions (R75), as lists of the host agent's
statements. A program is loaded into the machine as the field `State.host`. -/

namespace Sys2Proof.Machine

/-- A target's offset on the bus (R73: "Register names in host programs stand for their offsets"). -/
def Target.busOffset (t : Target) : BitVec 21 := BitVec.ofNat 21 t.offset

/-- `wr R, v` (R74). -/
def wr (t : Target) (v : Word) : HostOp := .write t.busOffset 32 v

/-- `rd R -> name` (R74). -/
def rd (t : Target) : HostOp := .read t.busOffset 32

/-- `wait R, m, v` (R74). -/
def waitFor (t : Target) (m v : Word) : HostOp := .wait t.busOffset m v

/-- `check R, v` (R74). -/
def checkReg (t : Target) (v : Word) : HostOp := .check t.busOffset v

/-- `run c`: "`wr CMD, word(c)` followed by `wait STATUS, 0x1, 0x0`" (R74). -/
def run (i : Instr) : List HostOp := [wr (.reg .cmd) (encode i), waitFor (.reg .status) 0x1 0x0]

/-- `count S, L` (R75). -/
def countAt (src len : Word) : List HostOp := [wr (.reg .src) src, wr (.reg .len) len] ++ run .count

/-- `count.acc S, L` (R75). -/
def countAccAt (src len : Word) : List HostOp := [wr (.reg .src) src, wr (.reg .len) len] ++ run .countAcc

/-- `encode S, L, D` (R75). -/
def encodeAt (src len dst : Word) : List HostOp :=
  [wr (.reg .src) src, wr (.reg .len) len, wr (.reg .dst) dst] ++ run .encode

/-- `decode S, L, B, D` (R75). -/
def decodeAt (src len bits dst : Word) : List HostOp :=
  [wr (.reg .src) src, wr (.reg .len) len, wr (.reg .bits) bits, wr (.reg .dst) dst] ++ run .decode

/-- `decode.chk S, L, B, D` (R75). -/
def decodeChkAt (src len bits dst : Word) : List HostOp :=
  [wr (.reg .src) src, wr (.reg .len) len, wr (.reg .bits) bits, wr (.reg .dst) dst] ++ run .decodeChk

/-- `huff.encode S, L, D` (R75). -/
def huffEncode (src len dst : Word) : List HostOp :=
  countAt src len ++ run .build ++ run .gencode ++ encodeAt src len dst

/-- `clrev` (R75). -/
def clrev : HostOp := wr (.reg .event) 0x7

end Sys2Proof.Machine
end

