-- ==== Sys2Proof/Safety.lean ====
section
/-! DEFINITION. What a safe state is, and the terms claims are made in: the invariants every step keeps, the paths of a code
tree (R100), the tree's shape (R96), the host's turn (R59), the explicit-stack traversal of R102, what a host read returns
(R23) and the outcome of a command by its checks in order (R79, R121). -/

namespace Sys2Proof

open Machine

/-! ## Whose turn it is -/

/-- The core completes the pending command `p` in the next step (R59, R77). -/
def CoreTurn (s : State) (p : Pend) : Prop := s.pend = some p ∧ (s.host = [] ∨ s.latency = 0)

/-- The host runs its statement `op` in the next step (R59). -/
def HostTurn (s : State) (op : HostOp) (rest : List HostOp) : Prop :=
  s.host = op :: rest ∧ (s.pend = none ∨ s.latency ≠ 0)

/-- The state after a successful completion (R77), over a state that holds the command's writes: "ERRCODE <- 0x00; ERRINFO <-
0; EVENT.DONE <- 1; PEND <- none". -/
def completed (s : State) : State :=
  { s with err := ⟨.ok, 0⟩, event := { s.event with done := true }, pend := none, latency := 0 }

/-- The state after a completion with an error (R77): "ERRCODE <- code; ERRINFO <- info; EVENT.ERR <- 1; PEND <- none". -/
def erred (s : State) (code : ErrCode) (info : Word) : State :=
  { s with err := ⟨code, info⟩, event := { s.event with err := true }, pend := none, latency := 0 }

/-- The state after ENCODE or DECODE completes with an error (R77): also "OUT_LEN <- 0; OUT_BITS <- 0". -/
def erredCodec (s : State) (code : ErrCode) (info : Word) : State := { erred s code info with out := ⟨0, 0⟩ }

/-- A command word pending with given operands, the operand registers holding them (R31, R44), due at once. -/
def issued (s : State) (i : Instr) (o : Operands) : State :=
  { s with ops := o, cmd := encode i, pend := some ⟨encode i, o⟩, latency := 0 }

/-! ## DMEM ranges -/

/-- The bytes of [SRC, SRC + LEN) in input order (R84). -/
def inputOf (s : State) (o : Operands) : List Byte :=
  (List.range o.len.toNat).map (fun k => s.mem.read (o.src.toNat + k))

/-- `MemWrite(a + k, 1, bytes[k])` for every `k` and nothing else: what memory `m'` holds after it (R56, R78). -/
def Stored (m m' : Memory) (a : Nat) (bytes : List Byte) : Prop :=
  m'.size = m.size ∧ m'.draw = m.draw ∧
    (∀ k (h : k < bytes.length), m'.read (a + k) = bytes[k]) ∧
    (∀ x, x < a ∨ a + bytes.length ≤ x → m'.read x = m.read x)

/-! ## The tree -/

/-- The key `(NODE[i].FREQ, i)` orders node `i` before node `j` (R90). -/
def keyBefore (t : Tree) (i j : NodeIx) : Prop :=
  (nodeAt t.node i).freq.toNat < (nodeAt t.node j).freq.toNat ∨
    ((nodeAt t.node i).freq = (nodeAt t.node j).freq ∧ i.toNat < j.toNat)

/-- Node `i` is one of the tree's Internal entries: their indices run from N to NODE_COUNT − 1 (R89, R91, R94). -/
def Machine.Tree.internalAt (t : Tree) (i : NodeIx) : Prop := t.leafCount.toNat ≤ i.toNat ∧ i.toNat < t.nodeCount.toNat

/-- The shape of a tree BUILD has built (R89, R91, R92, R94, R96; LEAFSET: R34; empty entries: R40). -/
structure TreeShape (t : Tree) : Prop where
  leafCount_range : 1 ≤ t.leafCount.toNat ∧ t.leafCount.toNat ≤ 256
  nodeCount_eq : t.nodeCount.toNat = if t.leafCount.toNat = 1 then 2 else 2 * t.leafCount.toNat - 1
  root_last : t.root.toNat + 1 = t.nodeCount.toNat
  empty_above : ∀ i : NodeIx, t.nodeCount.toNat ≤ i.toNat → nodeAt t.node i = Node.empty
  leaf_entry : ∀ i : NodeIx, i.toNat < t.leafCount.toNat →
    (nodeAt t.node i).valid = true ∧ (nodeAt t.node i).kind = .leaf ∧ (nodeAt t.node i).left = nil ∧
      (nodeAt t.node i).right = nil
  symbols_rise : ∀ i j : NodeIx, i.toNat < j.toNat → j.toNat < t.leafCount.toNat →
    (nodeAt t.node i).sym.toNat < (nodeAt t.node j).sym.toNat
  leafset_iff : ∀ b : Byte, t.leafset.getLsbD b.toNat = true ↔
    ∃ i : NodeIx, i.toNat < t.leafCount.toNat ∧ (nodeAt t.node i).sym = b
  internal_entry : ∀ i : NodeIx, t.internalAt i →
    (nodeAt t.node i).valid = true ∧ (nodeAt t.node i).kind = .internal ∧ (nodeAt t.node i).sym = 0 ∧
      (nodeAt t.node i).left.toNat < i.toNat
  right_child : ∀ i : NodeIx, t.internalAt i →
    if t.leafCount.toNat = 1 then (nodeAt t.node i).right = nil
    else (nodeAt t.node i).right.toNat < i.toNat ∧ (nodeAt t.node i).left ≠ (nodeAt t.node i).right
  one_parent : ∀ i : NodeIx, i.toNat < t.root.toNat →
    ∃! j : NodeIx, t.internalAt j ∧ ((nodeAt t.node j).left = i ∨ (nodeAt t.node j).right = i)
  freq_sum : ∀ i : NodeIx, t.internalAt i →
    (nodeAt t.node i).freq.toNat = (nodeAt t.node (nodeAt t.node i).left).freq.toNat +
      (if (nodeAt t.node i).right = nil then 0 else (nodeAt t.node (nodeAt t.node i).right).freq.toNat)

/-- The node the bits lead to from node `n`, each step as R112 takes it, every node before the last being Internal. -/
def Machine.Tree.descend (t : Tree) : NodeIx → List Bool → Option NodeIx
  | n, [] => some n
  | n, b :: bs =>
    match (nodeAt t.node n).kind with
    | .leaf => none
    | .internal =>
      if (nodeAt t.node n).child b = nil then none else Tree.descend t ((nodeAt t.node n).child b) bs

/-- The bits are a path from ROOT to the Leaf of symbol `b` (R100). -/
def Machine.Tree.pathTo (t : Tree) (bs : List Bool) (b : Byte) : Prop :=
  ∃ n : NodeIx, t.descend t.root bs = some n ∧ (nodeAt t.node n).kind = .leaf ∧ (nodeAt t.node n).sym = b

/-- The bits lead from ROOT to an Internal node (R112, R114). -/
def Machine.Tree.pathInside (t : Tree) (bs : List Bool) (n : NodeIx) : Prop :=
  t.descend t.root bs = some n ∧ (nodeAt t.node n).kind = .internal

/-- A path as a number: "v = sum over j of d_j · 2^(L−j)" (R100). -/
def pathValue (bs : List Bool) : Nat := bs.foldl (fun v b => 2 * v + b.toNat) 0

/-- The traversal of R102 with its explicit stack, at most `fuel` pops; `none` when the stack is not yet empty then. -/
def stackTraverse (t : Vector Node 511) : (fuel : Nat) → List (NodeIx × Nat × Nat) → Vector Code 256 →
    Option (Vector Code 256)
  | _, [], c => some c
  | 0, _ :: _, _ => none
  | fuel + 1, (n, l, v) :: stack, c =>
    match (nodeAt t n).kind with
    | .leaf => stackTraverse t fuel stack (symSet c (nodeAt t n).sym ⟨BitVec.ofNat 8 l, BitVec.ofNat 255 v⟩)
    | .internal =>
      stackTraverse t fuel
        ((if (nodeAt t n).left = nil then [] else [((nodeAt t n).left, l + 1, 2 * v)]) ++
          (if (nodeAt t n).right = nil then [] else [((nodeAt t n).right, l + 1, 2 * v + 1)]) ++ stack) c

/-! ## Reset -/

/-- "Both resets set every architectural state element" to these values (R133); DMEM apart. -/
structure ResetValues (t : State) : Prop where
  ctrl      : t.ctrlWord = 0 ∧ t.irq = false
  status    : t.statusWord = 0
  event     : t.event.word = 0
  err       : t.err = ⟨.ok, 0⟩
  cmd       : t.cmd = 0
  operands  : t.ops.src = 0 ∧ t.ops.len = 0 ∧ t.ops.dst = 0 ∧ t.ops.bits = 0
  results   : t.out.len = 0 ∧ t.out.bits = 0
  summary   : t.tree.leafCount = 0 ∧ t.tree.nodeCount = 0 ∧ t.codes.maxLen = 0
  root      : t.tree.root = 0x1FF#9
  bitmaps   : ∀ w : BitVec 3, bitmapWord t.tree.leafset w = 0 ∧ bitmapWord t.expset w = 0
  freq      : ∀ b : Byte, symGet t.freq b = 0
  node      : ∀ i : NodeIx, nodeAt t.tree.node i = ⟨false, .leaf, 0, 0, 0x1FF#9, 0x1FF#9⟩
  code      : ∀ b : Byte, symGet t.codes.entry b = ⟨0, 0⟩
  pend      : t.pend = none

/-! ## DECODE -/

/-- The bits DECODE takes: `bit(SRC, i)` for i = 0 .. BITS − 1 (R106, R112). -/
def streamOf (s : State) (o : Operands) : List Bool :=
  (List.range o.bits.toNat).map (fun i => (s.mem.read (o.src.toNat + i / 8)).getLsbD (7 - i % 8))

/-- `i` is a DECODE whose checks before the walk all pass (R116): a tree, with CHK = 1 the expected leaf set, a packed length
that fits BITS, a valid source range. -/
def DecodeReady (i : Instr) (s : State) (o : Operands) : Prop :=
  (i = .decode ∨ (i = .decodeChk ∧ s.tree.leafset = s.expset)) ∧ s.tree.valid = true ∧
    o.len.toNat = (o.bits.toNat + 7) / 8 ∧ o.src.toNat + o.len.toNat ≤ s.mem.size

/-- The bits are whole codes, one after another: each is the path to the Leaf of its symbol (R100, R112). -/
def WholeCodes (t : Tree) (ps : List (List Bool × Byte)) : Prop := ∀ x ∈ ps, x.1 ≠ [] ∧ t.pathTo x.1 x.2

/-- The symbols' output bytes lie below DMEM_SIZE (R116). -/
def OutputFits (s : State) (o : Operands) (ps : List (List Bool × Byte)) : Prop :=
  ps = [] ∨ o.dst.toNat + ps.length ≤ s.mem.size

/-! ## What a host read returns -/

/-- `v` is the current value of the word at offset `off` (R23, R24 to R37, R39, R41, R42, R51): the register or the table entry
that stands there, its reserved bits 0. -/
structure RegisterReads (s : State) (off : Nat) (v : Word) : Prop where
  id         : off = 0x000 → v = 0x48554646#32
  version    : off = 0x004 → v = 0x00010000#32
  ctrl       : off = 0x008 → v.toNat = 2 * s.ie.toNat
  status     : off = 0x00C → v.toNat = s.pend.isSome.toNat + 2 * s.tree.valid.toNat + 4 * s.codes.valid.toNat
  event      : off = 0x010 → v.toNat = s.event.done.toNat + 2 * s.event.err.toNat + 4 * s.event.ovr.toNat
  errcode    : off = 0x014 → v.toNat = s.err.code.byte.toNat
  errinfo    : off = 0x018 → v = s.err.info
  cmd        : off = 0x01C → v = s.cmd
  operands   : (off = 0x020 → v = s.ops.src) ∧ (off = 0x024 → v = s.ops.len) ∧ (off = 0x028 → v = s.ops.dst) ∧
    (off = 0x02C → v = s.ops.bits)
  results    : (off = 0x030 → v = s.out.len) ∧ (off = 0x034 → v = s.out.bits)
  leafCount  : off = 0x038 → v.toNat = s.tree.leafCount.toNat
  nodeCount  : off = 0x03C → v.toNat = s.tree.nodeCount.toNat
  root       : off = 0x040 → v.toNat = s.tree.root.toNat
  maxCodeLen : off = 0x044 → v.toNat = s.codes.maxLen.toNat
  dmemSize   : off = 0x048 → v = BitVec.ofNat 32 s.mem.size
  bitmaps    : ∀ w b : Nat, w < 8 → b < 32 →
    (off = 0x060 + 4 * w → v.getLsbD b = s.tree.leafset.getLsbD (32 * w + b)) ∧
      (off = 0x080 + 4 * w → v.getLsbD b = s.expset.getLsbD (32 * w + b))
  freq       : ∀ b : Byte, off = 0x400 + 4 * b.toNat → v = symGet s.freq b
  node       : ∀ (i : NodeIx) (k : BitVec 2), i.toNat < 511 → off = 0x1000 + 16 * i.toNat + 4 * k.toNat →
    v = (nodeAt s.tree.node i).word k
  code       : ∀ (b : Byte) (k : BitVec 4), off = 0x4000 + 64 * b.toNat + 4 * k.toNat → v = (symGet s.codes.entry b).word k
  dmem       : ∀ k : Nat, 4 * k < s.mem.size → off = 0x100000 + 4 * k →
    v.toNat = (s.mem.read (4 * k)).toNat + 2 ^ 8 * (s.mem.read (4 * k + 1)).toNat +
      2 ^ 16 * (s.mem.read (4 * k + 2)).toNat + 2 ^ 24 * (s.mem.read (4 * k + 3)).toNat

/-! ## The outcome of a command -/

/-- A check of a command and the error report it gives: `fails` says that the check fails. -/
structure Check where
  fails  : Bool
  report : ErrReport

/-- The walk of R112 between two bits: how many bytes it has emitted, and its node and depth. -/
structure WalkState where
  emitted : Nat
  pos     : NodeIx
  depth   : Nat

/-- The child a bit selects at the walk's node (R112). -/
def WalkState.child (t : Tree) (w : WalkState) (b : Bool) : NodeIx := (nodeAt t.node w.pos).child b

/-- The walk step of R112, for a bit that meets no error. -/
def WalkState.take (t : Tree) (w : WalkState) (b : Bool) : WalkState :=
  match (nodeAt t.node (w.child t b)).kind with
  | .leaf     => ⟨w.emitted + 1, t.root, 0⟩
  | .internal => ⟨w.emitted, w.child t b, w.depth + 1⟩

/-- The walk after the bits, from ROOT (R112). -/
def walkAfter (t : Tree) (bits : List Bool) : WalkState := bits.foldl (WalkState.take t) ⟨0, t.root, 0⟩

/-- The two checks DECODE makes as it takes stream bit `i`, which is `b` (R113, R116): no child there, and no room for the
symbol. -/
def bitChecks (t : Tree) (size dst i : Nat) (w : WalkState) (b : Bool) : List Check :=
  [⟨decide (w.child t b = nil), ⟨.corruptStream, BitVec.ofNat 32 i⟩⟩,
    ⟨decide ((nodeAt t.node (w.child t b)).kind = .leaf) && decide (size < dst + w.emitted + 1), ⟨.addressRange, 1⟩⟩]

/-- DECODE's checks after its tree check, in their order (R116, R121). -/
def decodeChecks (s : State) (o : Operands) : List Check :=
  [⟨decide (o.len.toNat ≠ (o.bits.toNat + 7) / 8), ⟨.corruptStream, 0xFFFFFFFF⟩⟩,
    ⟨decide (s.mem.size < o.src.toNat + o.len.toNat), ⟨.addressRange, 0⟩⟩] ++
  (List.range o.bits.toNat).flatMap (fun i => bitChecks s.tree s.mem.size o.dst.toNat i
    (walkAfter s.tree ((streamOf s o).take i)) ((streamOf s o).getD i false)) ++
  [⟨(walkAfter s.tree (streamOf s o)).depth != 0, ⟨.corruptStream, o.bits⟩⟩]

/-- The checks of each command, in the order the core makes them (R79, R121), with the code and the information of R120. -/
def checksOf (s : State) (o : Operands) : Instr → List Check
  | .nop | .clrf => []
  | .count => [⟨decide (s.mem.size < o.src.toNat + o.len.toNat), ⟨.addressRange, 0⟩⟩]
  | .countAcc =>
    ⟨decide (s.mem.size < o.src.toNat + o.len.toNat), ⟨.addressRange, 0⟩⟩ ::
      (List.range o.len.toNat).map (fun k =>
        let b := s.mem.read (o.src.toNat + k)
        ⟨decide (2 ^ 32 ≤ (symGet s.freq b).toNat + ((inputOf s o).take k).count b + 1),
          ⟨.countOverflow, b.setWidth 32⟩⟩)
  | .build => [⟨(List.range 256).all (fun k => symGet s.freq (BitVec.ofNat 8 k) == 0), ⟨.emptyInput, 0⟩⟩]
  | .gencode => [⟨!s.tree.valid, ⟨.noTree, 0⟩⟩]
  | .encode =>
    [⟨!s.codes.valid, ⟨.noCode, 0⟩⟩, ⟨decide (s.mem.size < o.src.toNat + o.len.toNat), ⟨.addressRange, 0⟩⟩,
      ⟨decide (o.len = 0), ⟨.emptyInput, 0⟩⟩] ++
    (List.range o.len.toNat).map (fun k =>
      ⟨decide ((symGet s.codes.entry (s.mem.read (o.src.toNat + k))).len = 0),
        ⟨.encodingConsistency, BitVec.ofNat 32 k⟩⟩) ++
    [⟨decide (s.mem.size < o.dst.toNat +
        (((inputOf s o).map (fun b => (symGet s.codes.entry b).len.toNat)).sum + 7) / 8), ⟨.addressRange, 1⟩⟩]
  | .decode => ⟨!s.tree.valid, ⟨.noTree, 0⟩⟩ :: decodeChecks s o
  | .decodeChk =>
    ⟨!s.tree.valid, ⟨.noTree, 0⟩⟩ ::
      (List.range 256).map (fun k =>
        ⟨s.tree.leafset.getLsbD k != s.expset.getLsbD k, ⟨.treeMismatch, BitVec.ofNat 32 k⟩⟩) ++ decodeChecks s o

/-- "the first check that fails is the error reported" (R79). -/
def firstError (cs : List Check) : Option ErrReport := (cs.find? Check.fails).map Check.report

/-- The outcome of a pending command (R77, R79): ILLEGAL_COMMAND for a word that is none; otherwise the report of the first
check that fails, or OK with information 0. -/
def outcomeOf (s : State) (p : Pend) : ErrReport :=
  match decode p.word with
  | .error _ => ⟨.illegalCommand, p.word⟩
  | .ok i    => (firstError (checksOf s p.ops i)).getD ⟨.ok, 0⟩

/-! ## The invariants -/

/-- DMEM_SIZE is one R9 admits and the byte list is in its canonical form. -/
def MemoryOk (s : State) : Prop := Config.dmemSizeOk s.mem.size = true ∧ s.mem.wf = true

/-- A pending command is the last accepted word with the operand registers' values (R30, R31, R44). -/
def PendOk (s : State) : Prop := ∀ p, s.pend = some p → p.word = s.cmd ∧ p.ops = s.ops

/-- Without TREE_VALID the tree is that of reset; with it, it has the shape of R96 (R26, R38). -/
def TreeOk (s : State) : Prop := (s.tree.valid = false ∧ s.tree = Tree.empty) ∨ (s.tree.valid = true ∧ TreeShape s.tree)

/-- The code table holds the path codes of the tree (R100), every symbol that is no leaf without a code, and the length of
the longest. -/
structure PathCodes (t : Tree) (c : Codes) : Prop where
  leaf_code : ∀ bs b, t.pathTo bs b →
    1 ≤ bs.length ∧ bs.length ≤ 255 ∧ symGet c.entry b = ⟨BitVec.ofNat 8 bs.length, BitVec.ofNat 255 (pathValue bs)⟩
  no_code : ∀ b : Byte, t.leafset.getLsbD b.toNat = false → symGet c.entry b = Code.empty
  longest : (∀ b : Byte, (symGet c.entry b).len.toNat ≤ c.maxLen.toNat) ∧ ∃ b : Byte, (symGet c.entry b).len = c.maxLen

/-- Without CODE_VALID the code table is empty; with it, it is the current tree's (R26, R41). -/
def CodesOk (s : State) : Prop :=
  (s.codes.valid = false ∧ s.codes = Codes.empty) ∨
    (s.codes.valid = true ∧ s.tree.valid = true ∧ PathCodes s.tree s.codes)

/-- The invariant of the machine. -/
structure Inv (s : State) : Prop where
  memory : MemoryOk s
  pend   : PendOk s
  tree   : TreeOk s
  codes  : CodesOk s

/-- A safe state: its next step is no fault. -/
def Safe (s : State) : Prop := ∀ f, step s ≠ .fault f

/-- Every statement the host has still to run is a transaction R53 admits, or the platform's reset. -/
def Machine.HostOp.admitted : HostOp → Bool
  | .read off width    => transactionAdmitted off width
  | .write off width _ => transactionAdmitted off width
  | .wait off _ _      => transactionAdmitted off 32
  | .check off _       => transactionAdmitted off 32
  | .powerOn           => true

end Sys2Proof
end

