-- ==== Sys2Proof/Certificates/Slice0/Obligations.lean ====
section
/-! DEFINITION. The statements for the provers, in the order of OBLIGATIONS.json. Each docstring names the rules of spec/
it formalises. The state's fields `latency`, `draws`, `host` and `reads` are the model's own (log entries 2, 3 and 4), so that
what a statement says of them is the model's choice and no rule of the spec. -/

open Sys2Proof Sys2Proof.Machine

/-! ## Command words -/

/-- R66, R67, R70: some words written out bit by bit, the nine legal ones and one of each illegal kind. A sanity
statement. -/
def Obligations.WrittenWordsDecode : Prop :=
  decode 0b00000000000000000000000000000000#32 = .ok .nop ∧
  decode 0b00000000000000000000000000000001#32 = .ok .clrf ∧
  decode 0b00000000000000000000000000000010#32 = .ok .count ∧
  decode 0b00000000000000000000000100000010#32 = .ok .countAcc ∧
  decode 0b00000000000000000000000000000011#32 = .ok .build ∧
  decode 0b00000000000000000000000000000100#32 = .ok .gencode ∧
  decode 0b00000000000000000000000000000101#32 = .ok .encode ∧
  decode 0b00000000000000000000000000000110#32 = .ok .decode ∧
  decode 0b00000000000000000000001000000110#32 = .ok .decodeChk ∧
  decode 0b00000000000000000000000000000111#32 = .error .unknownOpcode ∧
  decode 0b00000000000000000000000100000000#32 = .error .flagNotDefined ∧
  decode 0b00000000000000000000010000000101#32 = .error .reservedBits

/-- R68: decode_cmd is total on all 2^32 words, exactly nine of them are legal, and which command each is. -/
def Obligations.LegalWordsAreExactlyNine : Prop :=
  ∀ (w : Word) (i : Instr), decode w = .ok i ↔
    (w, i) ∈ [(0x00000000#32, Instr.nop), (0x00000001#32, .clrf), (0x00000002#32, .count), (0x00000102#32, .countAcc),
      (0x00000003#32, .build), (0x00000004#32, .gencode), (0x00000005#32, .encode), (0x00000006#32, .decode),
      (0x00000206#32, .decodeChk)]

/-- R66, R67: decoding an encoded command gives it back, and every word that decodes is the encoding of its command: no bit
of the 32 is dropped. -/
def Obligations.DecodeAndEncodeAgree : Prop :=
  (∀ i : Instr, decode (encode i) = .ok i) ∧ ∀ (w : Word) (i : Instr), decode w = .ok i → encode i = w

/-! ## The step -/

/-- R59, R77: when it is the core's turn and the pending word decodes to a command, the step is that command's meaning, and
nothing is added around it. -/
def Obligations.StepRunsThePendingCommand : Prop :=
  ∀ (s : State) (p : Pend) (i : Instr), CoreTurn s p → decode p.word = .ok i → step s = exec i s

/-- R70: every word that is none of the nine completes with ILLEGAL_COMMAND, ERRINFO = the word, and no other state
change. -/
def Obligations.IllegalWordReportsItself : Prop :=
  ∀ (s : State) (p : Pend), CoreTurn s p →
    p.word ∉ [0x00000000#32, 0x00000001#32, 0x00000002#32, 0x00000102#32, 0x00000003#32, 0x00000004#32, 0x00000005#32,
      0x00000006#32, 0x00000206#32] →
    step s = .next (erred s .illegalCommand p.word)

/-- R131, R143: with no command pending and nothing left for the host to do, the machine keeps every register and table. That
such a step answers the same state is the model's choice (log entry 5). -/
def Obligations.IdleMachineStays : Prop :=
  ∀ s : State, s.pend = none → s.host = [] → step s = .next s

/-- R76: a CMD write while PEND = none writes CMD and latches the word, legal or not, with the operand registers in PEND;
STATUS.BUSY reads 1 from now on. While PEND ≠ none it is dropped as R58 gives. The two counters `latency` and `draws` are the
model's own. -/
def Obligations.CmdWriteIsAccepted : Prop :=
  (∀ (s : State) (v : Word) (rest : List HostOp), s.host = .write 0x01C 32 v :: rest → s.pend = none →
    ∃ (t : State) (l n : Nat), step s = .next t ∧
      t = { s with host := rest, cmd := v, pend := some ⟨v, s.ops⟩, latency := l, draws := n } ∧
      t.statusWord.getLsbD 0 = true) ∧
  (∀ (s : State) (v : Word) (rest : List HostOp), HostTurn s (.write 0x01C 32 v) rest → s.pend ≠ none →
    step s = .next { s with host := rest, latency := s.latency - 1, event := { s.event with ovr := true } })

/-- R138, R58: a write to CMD, SRC, LEN, DST, BITS, EXPSET0..7, the FREQ window or the DMEM window made while BUSY = 1 is
lost and sets EVENT.OVR; nothing else changes. -/
def Obligations.BusyWritesAreDropped : Prop :=
  ∀ (s : State) (off : BitVec 21) (v : Word) (rest : List HostOp), HostTurn s (.write off 32 v) rest → s.pend ≠ none →
    off.toNat % 4 = 0 →
    (off.toNat ∈ [0x01C, 0x020, 0x024, 0x028, 0x02C] ∨ (0x080 ≤ off.toNat ∧ off.toNat < 0x0A0) ∨
      (0x400 ≤ off.toNat ∧ off.toNat < 0x800) ∨ (0x100000 ≤ off.toNat ∧ off.toNat < 0x100000 + s.mem.size)) →
    step s = .next { s with
      host := rest, latency := s.latency - 1, event := { s.event with ovr := true } }

/-- R55: a read of an unmapped offset or a reserved word returns 0; a write to one, to a read-only register or to the NODE or
CODE window is ignored and does not set EVENT.OVR, whether or not a command is pending; reserved bits read 0, and writes to
them are ignored. Where a command is pending, that a read of an unmapped offset at or above 0x400 returns 0 is the model's
reading of R55 beside R58 (log entry 14, DEDUCED and unsafe). -/
def Obligations.UnmappedAndReadOnlyWritesAreIgnored : Prop :=
  let unmapped := fun (size off : Nat) =>
    (0x04C ≤ off ∧ off ≤ 0x05C) ∨ (0x0A0 ≤ off ∧ off ≤ 0x3FC) ∨ (0x800 ≤ off ∧ off ≤ 0xFFC) ∨
      (0x2FF0 ≤ off ∧ off ≤ 0x3FFC) ∨ (0x8000 ≤ off ∧ off ≤ 0xFFFFC) ∨ 0x100000 + size ≤ off
  let readOnly := fun (off : Nat) =>
    off ∈ [0x000, 0x004, 0x00C, 0x014, 0x018, 0x030, 0x034, 0x038, 0x03C, 0x040, 0x044, 0x048] ∨
      (0x060 ≤ off ∧ off ≤ 0x07C) ∨ (0x1000 ≤ off ∧ off ≤ 0x2FEC) ∨ (0x4000 ≤ off ∧ off ≤ 0x7FFC)
  (∀ (s : State) (off : BitVec 21) (rest : List HostOp), HostTurn s (.read off 32) rest → off.toNat % 4 = 0 →
    unmapped s.mem.size off.toNat →
    step s = .next { s with host := rest, latency := s.latency - 1, reads := ⟨off, 0, none⟩ :: s.reads }) ∧
  (∀ (s : State) (off : BitVec 21) (v : Word) (rest : List HostOp), HostTurn s (.write off 32 v) rest →
    off.toNat % 4 = 0 → (unmapped s.mem.size off.toNat ∨ readOnly off.toNat) →
    step s = .next { s with host := rest, latency := s.latency - 1 }) ∧
  (∀ s : State, s.readReg .ctrl &&& 0xFFFFFFFD = 0 ∧ s.readReg .status &&& 0xFFFFFFF8 = 0 ∧
    s.readReg .event &&& 0xFFFFFFF8 = 0 ∧ s.readReg .errcode &&& 0xFFFFFF00 = 0 ∧
    s.readReg .leafCount &&& 0xFFFFFE00 = 0 ∧ s.readReg .nodeCount &&& 0xFFFFFE00 = 0 ∧
    s.readReg .root &&& 0xFFFFFE00 = 0 ∧ s.readReg .maxCodeLen &&& 0xFFFFFF00 = 0) ∧
  (∀ (s : State) (v : Word), s.busWrite 0x008 v = s.busWrite 0x008 (v &&& 3) ∧
    s.busWrite 0x010 v = s.busWrite 0x010 (v &&& 7))

/-- R54, R58, R26: a read returns the current value of what stands at its offset and has no side effect: it changes nothing but
what the host has read, and a second read right after it returns the same value. While BUSY = 1 this holds of the control
registers (offsets below 0x400). -/
def Obligations.ReadsHaveNoSideEffect : Prop :=
  ∀ (s : State) (off : BitVec 21) (rest : List HostOp), HostTurn s (.read off 32) rest → off.toNat % 4 = 0 →
    (s.pend = none ∨ off.toNat < 0x400) →
    let v := s.readTarget (target s.mem.size off.toNat)
    RegisterReads s off.toNat v ∧
    step s = .next { s with host := rest, latency := s.latency - 1, reads := ⟨off, v, none⟩ :: s.reads } ∧
      ∀ rest', rest = .read off 32 :: rest' →
        ∀ t, step s = .next t → HostTurn t (.read off 32) rest' →
          step t = .next { s with
            host := rest', latency := s.latency - 1 - 1, reads := ⟨off, v, none⟩ :: ⟨off, v, none⟩ :: s.reads }

/-- R58: a read of the FREQ, NODE, CODE or DMEM window while BUSY = 1 returns a fresh draw, and a later one another draw. -/
def Obligations.BusyWindowReadIsADraw : Prop :=
  ∀ (s : State) (off : BitVec 21) (rest : List HostOp), HostTurn s (.read off 32) rest → off.toNat % 4 = 0 →
    s.pend ≠ none →
    ((0x400 ≤ off.toNat ∧ off.toNat < 0x800) ∨ (0x1000 ≤ off.toNat ∧ off.toNat < 0x2FF0) ∨
      (0x4000 ≤ off.toNat ∧ off.toNat < 0x8000) ∨ (0x100000 ≤ off.toNat ∧ off.toNat < 0x100000 + s.mem.size)) →
    step s = .next { s with
      host := rest, latency := s.latency - 1, draws := s.draws + 1
      reads := ⟨off, Config.windowDraw s.draws, none⟩ :: s.reads }

/-- R53: a transaction that does not move 32 bits, or whose offset is no multiple of 4, is refused; every other one is one step
of the host, which then goes on to its next statement. -/
def Obligations.InadmissibleTransactionIsRefused : Prop :=
  ∀ (s : State) (off : BitVec 21) (width : Nat) (v : Word) (rest : List HostOp),
    (HostTurn s (.read off width) rest ∨ HostTurn s (.write off width v) rest) →
    if width = 32 ∧ off.toNat % 4 = 0 then ∃ t, step s = .next t ∧ t.host = rest
    else step s = .refused .inadmissibleTransaction

/-! ## The register map -/

/-- R23, R36, R39, R42, R51: every register, and every word of every window, stands at the offset the map gives it. -/
def Obligations.RegisterMapOffsets : Prop :=
  ∀ size : Nat,
    (∀ x ∈ [(0x000, Reg.id), (0x004, .version), (0x008, .ctrl), (0x00C, .status), (0x010, .event), (0x014, .errcode),
        (0x018, .errinfo), (0x01C, .cmd), (0x020, .src), (0x024, .len), (0x028, .dst), (0x02C, .bits), (0x030, .outLen),
        (0x034, .outBits), (0x038, .leafCount), (0x03C, .nodeCount), (0x040, .root), (0x044, .maxCodeLen),
        (0x048, .dmemSize)], target size x.1 = .reg x.2) ∧
    (∀ w : BitVec 3, target size (0x060 + 4 * w.toNat) = .leafset w ∧ target size (0x080 + 4 * w.toNat) = .expset w) ∧
    (∀ b : Byte, target size (0x400 + 4 * b.toNat) = .freq b) ∧
    (∀ (i : NodeIx) (k : BitVec 2), i.toNat < 511 → target size (0x1000 + 16 * i.toNat + 4 * k.toNat) = .node i k) ∧
    (∀ (b : Byte) (k : BitVec 4), target size (0x4000 + 64 * b.toNat + 4 * k.toNat) = .code b k) ∧
    (∀ k : Nat, 4 * k < size → target size (0x100000 + 4 * k) = .dmem (4 * k))

/-- R23, R24: what each register, LEAFSET0..7 and EXPSET0..7 among them, and each word of the FREQ, NODE and CODE windows reads
in the state after power-on reset, written out from the map's reset column. -/
def Obligations.ResetRegisterReads : Prop :=
  (∀ x ∈ [(0x000#21, 0x48554646#32), (0x004#21, 0x00010000#32), (0x008#21, 0#32), (0x00C#21, 0#32), (0x010#21, 0#32),
      (0x014#21, 0#32), (0x018#21, 0#32), (0x01C#21, 0#32), (0x020#21, 0#32), (0x024#21, 0#32), (0x028#21, 0#32),
      (0x02C#21, 0#32), (0x030#21, 0#32), (0x034#21, 0#32), (0x038#21, 0#32), (0x03C#21, 0#32), (0x040#21, 0x1FF#32),
      (0x044#21, 0#32), (0x048#21, 0x00010000#32)], (State.reset.busRead x.1).1 = x.2) ∧
    (∀ off ∈ [0x060#21, 0x064#21, 0x068#21, 0x06C#21, 0x070#21, 0x074#21, 0x078#21, 0x07C#21, 0x080#21, 0x084#21, 0x088#21,
      0x08C#21, 0x090#21, 0x094#21, 0x098#21, 0x09C#21], (State.reset.busRead off).1 = 0) ∧
    (∀ b : Byte, State.reset.readTarget (.freq b) = 0) ∧
    (∀ i : NodeIx, State.reset.readTarget (.node i 0) = 0 ∧ State.reset.readTarget (.node i 1) = 0 ∧
      State.reset.readTarget (.node i 2) = 0 ∧ State.reset.readTarget (.node i 3) = 0x01FF01FF) ∧
    (∀ (b : Byte) (k : BitVec 4), State.reset.readTarget (.code b k) = 0)

/-- R39, R42, R34: the words of the NODE, CODE and LEAFSET windows, bit by bit. -/
def Obligations.WindowWordLayout : Prop :=
  (∀ (n : Node) (b : Nat), b < 32 →
    (n.word 0).getLsbD b =
      (if b = 0 then n.valid else if b = 1 then decide (n.kind = .internal)
        else if 8 ≤ b ∧ b < 16 then n.sym.getLsbD (b - 8) else false) ∧
    (n.word 1).getLsbD b = n.freq.getLsbD b ∧
    (n.word 2).getLsbD b = (if b < 8 then n.freq.getLsbD (32 + b) else false) ∧
    (n.word 3).getLsbD b =
      (if b < 9 then n.left.getLsbD b else if 16 ≤ b ∧ b < 25 then n.right.getLsbD (b - 16) else false)) ∧
  (∀ (c : Code) (b : Nat), b < 32 →
    (c.word 0).getLsbD b = c.len.getLsbD b ∧
    (∀ w : Nat, w < 8 → (c.word (BitVec.ofNat 4 (1 + w))).getLsbD b = c.bits.getLsbD (32 * w + b)) ∧
    (∀ w : Nat, 9 ≤ w → w < 16 → (c.word (BitVec.ofNat 4 w)).getLsbD b = false)) ∧
  (∀ (x : BitVec 256) (w : BitVec 3) (b : Nat), b < 32 → (bitmapWord x w).getLsbD b = x.getLsbD (32 * w.toNat + b))

/-- R133, R132, R134, R50: the state after power-on, after a soft reset and after a later power-on reset: every element at its
reset value, a pending command discarded. At power-on DMEM holds the draw DMEM0; "No reset of any kind changes DMEM" after
that, the platform's power-on reset included (log entry 1). -/
def Obligations.ResetsSetEveryElement : Prop :=
  (ResetValues State.reset ∧ ∀ a, State.reset.mem.read a = Config.dmem0 State.reset.mem.draw a) ∧
  (∀ (s : State) (v : Word) (rest : List HostOp), HostTurn s (.write 0x008 32 v) rest → v.getLsbD 0 = true →
    ∃ t, step s = .next t ∧ ResetValues t ∧ t.mem = s.mem ∧ t.host = rest ∧ t.reads = s.reads) ∧
  (∀ (s : State) (rest : List HostOp), HostTurn s .powerOn rest →
    ∃ t, step s = .next t ∧ ResetValues t ∧ t.mem = s.mem ∧ t.host = rest ∧ t.reads = s.reads)

/-- R25: a CTRL write with bit 0 = 0 sets IE to bit 1 and changes nothing else, whether or not a command is pending; CTRL then
reads that bit and 0 in SRST. -/
def Obligations.CtrlWriteSetsIe : Prop :=
  ∀ (s : State) (v : Word) (rest : List HostOp), HostTurn s (.write 0x008 32 v) rest → v.getLsbD 0 = false →
    ∃ t, step s = .next t ∧ t = { s with host := rest, latency := s.latency - 1, ie := v.getLsbD 1 } ∧
      t.readReg .ctrl = v &&& 2

/-- R27: `EVENT <- EVENT & ~v[2:0]`, whether or not a command is pending; nothing else changes. -/
def Obligations.EventWriteClearsBits : Prop :=
  ∀ (s : State) (v : Word) (rest : List HostOp), HostTurn s (.write 0x010 32 v) rest →
    ∃ e, step s = .next { s with host := rest, latency := s.latency - 1, event := e } ∧
      e.word = s.event.word &&& ~~~(v &&& 7)

/-- R27: a step clears an EVENT bit only where the host writes EVENT or the block is reset: "The core never clears an EVENT
bit; only a host write or a reset does". -/
def Obligations.EventBitsAreSticky : Prop :=
  ∀ s t : State, step s = .next t →
    ((s.event.done = true → t.event.done = true) ∧ (s.event.err = true → t.event.err = true) ∧
      (s.event.ovr = true → t.event.ovr = true)) ∨
    (∃ rest, HostTurn s .powerOn rest) ∨ (∃ v rest, HostTurn s (.write 0x010 32 v) rest) ∨
    (∃ v rest, HostTurn s (.write 0x008 32 v) rest ∧ v.getLsbD 0 = true)

/-- R30, R31, R35, R36: while no command is pending, a write to SRC, LEN, DST, BITS, EXPSETw or FREQ[s] stores the word there
and nowhere else. -/
def Obligations.IdleWritesStoreTheWord : Prop :=
  ∀ (s : State) (off : BitVec 21) (v : Word) (rest : List HostOp), s.host = .write off 32 v :: rest → s.pend = none →
    let stored := fun (u : State) => step s = .next { u with host := rest, latency := s.latency - 1 }
    (off = 0x020 → stored { s with ops := { s.ops with src := v } }) ∧
    (off = 0x024 → stored { s with ops := { s.ops with len := v } }) ∧
    (off = 0x028 → stored { s with ops := { s.ops with dst := v } }) ∧
    (off = 0x02C → stored { s with ops := { s.ops with bits := v } }) ∧
    (∀ w : BitVec 3, off.toNat = 0x080 + 4 * w.toNat →
      ∃ x, stored { s with expset := x } ∧ bitmapWord x w = v ∧
        ∀ u : BitVec 3, u ≠ w → bitmapWord x u = bitmapWord s.expset u) ∧
    (∀ b : Byte, off.toNat = 0x400 + 4 * b.toNat →
      ∃ f, stored { s with freq := f } ∧ symGet f b = v ∧ ∀ c : Byte, c ≠ b → symGet f c = symGet s.freq c)

/-- R51: the DMEM window: a host word is the bytes 4k..4k+3 in little-endian order, for a read and for a write, and a write
changes no other byte and nothing else. -/
def Obligations.DmemWindowIsLittleEndian : Prop :=
  ∀ (s : State) (off : BitVec 21) (v : Word) (rest : List HostOp) (k : Nat), s.mem.wf = true → s.pend = none →
    off.toNat = 0x100000 + 4 * k → 4 * k < s.mem.size →
    (s.host = .write off 32 v :: rest →
      ∃ m, step s = .next { s with host := rest, latency := s.latency - 1, mem := m } ∧
        Stored s.mem m (4 * k)
          [v.extractLsb' 0 8, v.extractLsb' 8 8, v.extractLsb' 16 8, v.extractLsb' 24 8]) ∧
    (s.host = .read off 32 :: rest →
      ∃ x : Word, step s = .next { s with
          host := rest, latency := s.latency - 1, reads := ⟨off, x, none⟩ :: s.reads } ∧
        x.toNat = (s.mem.read (4 * k)).toNat + 2 ^ 8 * (s.mem.read (4 * k + 1)).toNat +
          2 ^ 16 * (s.mem.read (4 * k + 2)).toNat + 2 ^ 24 * (s.mem.read (4 * k + 3)).toNat)

/-- R47, R122: the interrupt output follows the events: a completed command asserts it exactly when IE is set, the host's
clearing every event or clearing IE takes it down. -/
def Obligations.IrqFollowsEvents : Prop :=
  (∀ (i : Instr) (s t : State) (p : Pend), s.pend = some p → exec i s = .next t → t.irq = s.ie) ∧
  (∀ (s : State) (rest : List HostOp), HostTurn s (.write 0x010 32 7) rest → ∃ t, step s = .next t ∧ t.irq = false) ∧
  (∀ (s : State) (rest : List HostOp), HostTurn s (.write 0x008 32 0) rest → ∃ t, step s = .next t ∧ t.irq = false) ∧
  (∀ (s : State) (rest : List HostOp), HostTurn s (.write 0x008 32 2) rest →
    ∃ t, step s = .next t ∧ t.irq = (s.event.done || s.event.err || s.event.ovr))

/-! ## NOP, CLRF, COUNT -/

/-- R83: NOP completes with no writes: ERRCODE and ERRINFO 0, EVENT.DONE set, PEND empty, all else as it was. -/
def Obligations.NopCompletes : Prop :=
  ∀ (s : State) (p : Pend), s.pend = some p → exec .nop s = .next (completed s)

/-- R85: CLRF sets every FREQ entry to 0 and changes nothing else, TREE_VALID and CODE_VALID included. -/
def Obligations.ClrfClearsFreq : Prop :=
  ∀ (s : State) (p : Pend), s.pend = some p →
    ∃ f, exec .clrf s = .next (completed { s with freq := f }) ∧ ∀ b : Byte, symGet f b = 0

/-- R84, R86, R87: COUNT with ACC = 0 on a valid range always succeeds; every entry is the number of times its symbol occurs in
the range, and the entries sum to LEN. -/
def Obligations.CountCountsTheRange : Prop :=
  ∀ (s : State) (p : Pend), s.pend = some p → p.ops.src.toNat + p.ops.len.toNat ≤ s.mem.size →
    ∃ f, exec .count s = .next (completed { s with freq := f }) ∧
      (∀ b : Byte, (symGet f b).toNat = (inputOf s p.ops).count b) ∧
      ((List.range 256).map (fun k => (symGet f (BitVec.ofNat 8 k)).toNat)).sum = p.ops.len.toNat

/-- R86, R87: COUNT with ACC = 1 adds the occurrences to the entries when no entry would pass 2^32 − 1, and otherwise fails
with COUNT_OVERFLOW at the first byte, in input order, that overflows, FREQ unchanged. -/
def Obligations.CountAccAddsOrOverflows : Prop :=
  ∀ (s : State) (p : Pend), s.pend = some p → p.ops.src.toNat + p.ops.len.toNat ≤ s.mem.size →
    ((∀ b : Byte, (symGet s.freq b).toNat + (inputOf s p.ops).count b < 2 ^ 32) →
      ∃ f, exec .countAcc s = .next (completed { s with freq := f }) ∧
        (∀ b : Byte, (symGet f b).toNat = (symGet s.freq b).toNat + (inputOf s p.ops).count b) ∧
        ((List.range 256).map (fun k => (symGet f (BitVec.ofNat 8 k)).toNat)).sum =
          ((List.range 256).map (fun k => (symGet s.freq (BitVec.ofNat 8 k)).toNat)).sum + p.ops.len.toNat) ∧
    (∀ (k : Nat) (b : Byte), (inputOf s p.ops)[k]? = some b →
      (symGet s.freq b).toNat + ((inputOf s p.ops).take k).count b = 2 ^ 32 - 1 →
      (∀ (j : Nat) (c : Byte), j < k → (inputOf s p.ops)[j]? = some c →
        (symGet s.freq c).toNat + ((inputOf s p.ops).take j).count c < 2 ^ 32 - 1) →
      exec .countAcc s = .next (erred s .countOverflow (b.setWidth 32)))

/-- R86, R57: COUNT on a range that passes DMEM_SIZE, with no wrap-around, fails with ADDRESS_RANGE and ERRINFO 0, FREQ
unchanged. -/
def Obligations.CountRangeError : Prop :=
  ∀ (i : Instr) (s : State) (p : Pend), (i = .count ∨ i = .countAcc) → s.pend = some p →
    s.mem.size < p.ops.src.toNat + p.ops.len.toNat → exec i s = .next (erred s .addressRange 0)

/-! ## BUILD -/

/-- R93: BUILD on an empty FREQ table fails with EMPTY_INPUT, and no state other than the error report changes. -/
def Obligations.BuildRefusesAnEmptyTable : Prop :=
  ∀ (s : State) (p : Pend), s.pend = some p → (∀ b : Byte, symGet s.freq b = 0) →
    exec .build s = .next (erred s .emptyInput 0)

/-- R94, R95, R34, R40: BUILD on a table with one symbol makes the one-level tree. -/
def Obligations.BuildOneSymbol : Prop :=
  ∀ (s : State) (p : Pend) (b : Byte), s.pend = some p → symGet s.freq b ≠ 0 → (∀ c : Byte, c ≠ b → symGet s.freq c = 0) →
    ∃ tr, exec .build s = .next (completed { s with tree := tr, codes := Codes.empty }) ∧
      tr.valid = true ∧ tr.leafCount = 1 ∧ tr.nodeCount = 2 ∧ tr.root = 1 ∧
      (∀ c : Byte, tr.leafset.getLsbD c.toNat = decide (c = b)) ∧
      nodeAt tr.node 0 = ⟨true, .leaf, b, (symGet s.freq b).setWidth 40, 0x1FF, 0x1FF⟩ ∧
      nodeAt tr.node 1 = ⟨true, .internal, 0, (symGet s.freq b).setWidth 40, 0, 0x1FF⟩ ∧
      (∀ i : NodeIx, 2 ≤ i.toNat → nodeAt tr.node i = Node.empty)

/-- R89, R92, R96, R97: BUILD on a table with N ≥ 1 symbols succeeds, clears the code table, and leaves a tree of the shape of
R96: the Leaf entries in ascending symbol order with the symbols' counts, every Internal FREQ the exact sum of its children's,
every entry but ROOT the child of exactly one Internal entry, and ROOT's FREQ the sum of all FREQ entries. -/
def Obligations.BuildMakesTheTree : Prop :=
  ∀ (s : State) (p : Pend), s.pend = some p →
    let symbols := ((List.range 256).map (BitVec.ofNat 8)).filter (fun b => symGet s.freq b != 0)
    symbols ≠ [] →
    ∃ tr, exec .build s = .next (completed { s with tree := tr, codes := Codes.empty }) ∧
      tr.valid = true ∧ TreeShape tr ∧ tr.leafCount.toNat = symbols.length ∧
      (∀ (i : Nat) (h : i < symbols.length), nodeAt tr.node (BitVec.ofNat 9 i) =
        ⟨true, .leaf, symbols[i], (symGet s.freq symbols[i]).setWidth 40, 0x1FF, 0x1FF⟩) ∧
      (nodeAt tr.node tr.root).freq.toNat = ((List.range 256).map (fun k => (symGet s.freq (BitVec.ofNat 8 k)).toNat)).sum

/-- R88, R90, R91: for N ≥ 2, every Internal entry `j` joins the two least nodes of those that are left when it is made, in
the order of the key (FREQ, index): the first is its RIGHT child, the second its LEFT, and every other node below `j` that
has no parent yet comes after both. -/
def Obligations.BuildMergesTheTwoLeast : Prop :=
  ∀ (s t : State) (p : Pend), s.pend = some p → exec .build s = .next t → t.err.code = .ok →
    2 ≤ t.tree.leafCount.toNat → ∀ j : NodeIx, t.tree.internalAt j →
      keyBefore t.tree (nodeAt t.tree.node j).right (nodeAt t.tree.node j).left ∧
      (nodeAt t.tree.node j).freq =
        (nodeAt t.tree.node (nodeAt t.tree.node j).right).freq + (nodeAt t.tree.node (nodeAt t.tree.node j).left).freq ∧
      ∀ c : NodeIx, c.toNat < j.toNat → c ≠ (nodeAt t.tree.node j).right → c ≠ (nodeAt t.tree.node j).left →
        (∀ i : NodeIx, t.tree.internalAt i → i.toNat < j.toNat →
          (nodeAt t.tree.node i).left ≠ c ∧ (nodeAt t.tree.node i).right ≠ c) →
        keyBefore t.tree (nodeAt t.tree.node j).left c

/-- R98: "HUF claims the tree minimises the total encoded bit length (sum over symbols of frequency × code length) among
prefix-free binary codes": with `d b` the depth of symbol `b`'s leaf, no prefix-free code `c` of the symbols costs less. -/
def Obligations.BuildIsOptimal : Prop :=
  ∀ (s t : State) (p : Pend) (d : Byte → Nat) (c : Byte → List Bool), s.pend = some p → exec .build s = .next t →
    t.err.code = .ok → (∀ bs b, t.tree.pathTo bs b → d b = bs.length) →
    (∀ b : Byte, symGet s.freq b ≠ 0 → c b ≠ []) →
    (∀ a b : Byte, a ≠ b → symGet s.freq a ≠ 0 → symGet s.freq b ≠ 0 → ¬ c a <+: c b) →
    ((List.range 256).map (fun k => (symGet s.freq (BitVec.ofNat 8 k)).toNat * d (BitVec.ofNat 8 k))).sum ≤
      ((List.range 256).map (fun k => (symGet s.freq (BitVec.ofNat 8 k)).toNat * (c (BitVec.ofNat 8 k)).length)).sum

/-! ## GENCODE -/

/-- R100, R102: on a tree of the shape BUILD makes, GENCODE succeeds, sets CODE_VALID, gives every leaf's symbol its path as
code and every other symbol none, sets MAX_CODE_LEN to the longest length, and changes nothing else. -/
def Obligations.GencodeWritesThePathCodes : Prop :=
  ∀ (s : State) (p : Pend), s.pend = some p → s.tree.valid = true → TreeShape s.tree →
    ∃ c, exec .gencode s = .next (completed { s with codes := c }) ∧ c.valid = true ∧ PathCodes s.tree c

/-- R101: the lone leaf of a single-symbol tree gets the code "0". -/
def Obligations.GencodeOneSymbol : Prop :=
  ∀ (s t : State) (p : Pend) (b : Byte), s.pend = some p → s.tree.valid = true → TreeShape s.tree →
    s.tree.leafCount = 1 → s.tree.leafset.getLsbD b.toNat = true → exec .gencode s = .next t →
    symGet t.codes.entry b = ⟨1, 0⟩ ∧ t.codes.maxLen = 1 ∧ ∀ c : Byte, c ≠ b → symGet t.codes.entry c = ⟨0, 0⟩

/-- R80, R102: GENCODE without a tree fails with NO_TREE and ERRINFO 0, and the code table stands. -/
def Obligations.GencodeNeedsATree : Prop :=
  ∀ (s : State) (p : Pend), s.pend = some p → s.tree.valid = false → exec .gencode s = .next (erred s .noTree 0)

/-- R102, R104: the table GENCODE writes is the one the rule's traversal with its explicit stack writes. -/
def Obligations.GencodeIsTheStackTraversal : Prop :=
  ∀ (s t : State) (p : Pend), s.pend = some p → exec .gencode s = .next t → t.err.code = .ok →
    ∃ fuel, stackTraverse s.tree.node fuel [(s.tree.root, 0, 0)] (Vector.replicate 256 Code.empty) = some t.codes.entry

/-- R102 (the spec's D30): GENCODE faults only where the rule's traversal never ends: whatever the number of pops, its stack is
not empty then. -/
def Obligations.GencodeFaultsOnlyOnEndlessTraversal : Prop :=
  ∀ (s : State) (p : Pend) (f : Fault), s.pend = some p → exec .gencode s = .fault f →
    ∀ fuel, stackTraverse s.tree.node fuel [(s.tree.root, 0, 0)] (Vector.replicate 256 Code.empty) = none

/-- R103: in a state the invariant allows, with CODE_VALID = 1, exactly the tree's symbols have a code, and no code is a prefix
of another. -/
def Obligations.CodesArePrefixFree : Prop :=
  ∀ s : State, Inv s → s.codes.valid = true →
    (∀ b : Byte, (symGet s.codes.entry b).len ≠ 0 ↔ s.tree.leafset.getLsbD b.toNat = true) ∧
    (∀ b c : Byte, b ≠ c → s.tree.leafset.getLsbD b.toNat = true → s.tree.leafset.getLsbD c.toNat = true →
      ¬ (symGet s.codes.entry b).string <+: (symGet s.codes.entry c).string)

/-- R103: "For N ≥ 2 the Kraft sum over the leaves of 2^(−LEN) is exactly 1. For N = 1 it is 1/2", here over 2^255. -/
def Obligations.KraftSumIsExact : Prop :=
  ∀ s : State, Inv s → s.codes.valid = true →
    (((List.range 256).filter (fun k => s.tree.leafset.getLsbD k)).map
      (fun k => 2 ^ (255 - (symGet s.codes.entry (BitVec.ofNat 8 k)).len.toNat))).sum =
      if s.tree.leafCount.toNat = 1 then 2 ^ 254 else 2 ^ 255

/-! ## ENCODE -/

/-- R105, R106, R107, R110: ENCODE of an input whose bytes all have codes, with room for the output, stores the codes one after
another, first bit in the most significant bit of the first byte, padding bits 0; OUT_BITS is their number T and OUT_LEN is
ceil8(T); no other byte and nothing else changes. -/
def Obligations.EncodePacksTheCodes : Prop :=
  ∀ (s : State) (p : Pend), s.pend = some p → Config.dmemSizeOk s.mem.size = true → s.mem.wf = true →
    s.codes.valid = true → p.ops.src.toNat + p.ops.len.toNat ≤ s.mem.size → p.ops.len ≠ 0 →
    (∀ b ∈ inputOf s p.ops, (symGet s.codes.entry b).len ≠ 0) →
    let bits := (inputOf s p.ops).flatMap (fun b => (List.range (symGet s.codes.entry b).len.toNat).map
      (fun j => (symGet s.codes.entry b).bits.getLsbD ((symGet s.codes.entry b).len.toNat - 1 - j)))
    p.ops.dst.toNat + (bits.length + 7) / 8 ≤ s.mem.size →
    ∃ (m : Memory) (o : OutRegs) (bytes : List Byte),
      exec .encode s = .next (completed { s with mem := m, out := o }) ∧
      Stored s.mem m p.ops.dst.toNat bytes ∧ bytes.length = (bits.length + 7) / 8 ∧
      (∀ (k : Nat) (b : Byte) (j : Nat), bytes[k]? = some b → j < 8 → b.getLsbD (7 - j) = bits.getD (8 * k + j) false) ∧
      o.bits.toNat = bits.length ∧ o.len.toNat = bytes.length

/-- R107, R108, R121: ENCODE's errors, in check order: NO_CODE; ADDRESS_RANGE(0); EMPTY_INPUT; ENCODING_CONSISTENCY with the
offset of the first byte that has no code; ADDRESS_RANGE(1). Each leaves DMEM as it was and sets OUT_LEN and OUT_BITS to 0. -/
def Obligations.EncodeErrorsInOrder : Prop :=
  ∀ (s : State) (p : Pend), s.pend = some p →
    (s.codes.valid = false → exec .encode s = .next (erredCodec s .noCode 0)) ∧
    (s.codes.valid = true → s.mem.size < p.ops.src.toNat + p.ops.len.toNat →
      exec .encode s = .next (erredCodec s .addressRange 0)) ∧
    (s.codes.valid = true → p.ops.src.toNat + p.ops.len.toNat ≤ s.mem.size → p.ops.len = 0 →
      exec .encode s = .next (erredCodec s .emptyInput 0)) ∧
    (∀ (k : Nat) (b : Byte), s.codes.valid = true → p.ops.src.toNat + p.ops.len.toNat ≤ s.mem.size →
      (inputOf s p.ops)[k]? = some b → (symGet s.codes.entry b).len = 0 →
      (∀ c ∈ (inputOf s p.ops).take k, (symGet s.codes.entry c).len ≠ 0) →
      exec .encode s = .next (erredCodec s .encodingConsistency (BitVec.ofNat 32 k))) ∧
    (s.codes.valid = true → p.ops.src.toNat + p.ops.len.toNat ≤ s.mem.size → p.ops.len ≠ 0 →
      (∀ b ∈ inputOf s p.ops, (symGet s.codes.entry b).len ≠ 0) →
      s.mem.size < p.ops.dst.toNat +
        (((inputOf s p.ops).map (fun b => (symGet s.codes.entry b).len.toNat)).sum + 7) / 8 →
      exec .encode s = .next (erredCodec s .addressRange 1))

/-- R110: for an input that the FREQ table counts, OUT_BITS is the cost: the sum over the symbols of FREQ[s] · CODE[s].LEN. -/
def Obligations.EncodedBitCountIsTheCost : Prop :=
  ∀ (s t : State) (p : Pend), s.pend = some p → Config.dmemSizeOk s.mem.size = true → exec .encode s = .next t →
    t.err.code = .ok → (∀ b : Byte, (symGet s.freq b).toNat = (inputOf s p.ops).count b) →
    t.out.bits.toNat = ((List.range 256).map (fun k => (symGet s.freq (BitVec.ofNat 8 k)).toNat *
      (symGet s.codes.entry (BitVec.ofNat 8 k)).len.toNat)).sum

/-- R140, R80: after a successful BUILD, ENCODE fails with NO_CODE until a GENCODE has run, whatever its operands: at once, and
in every state the machine comes to by steps of which none is the completion of a GENCODE. -/
def Obligations.EncodeAfterBuildNeedsGencode : Prop :=
  ∀ (s t : State) (p : Pend), s.pend = some p → exec .build s = .next t → t.err.code = .ok →
    (∀ q : Pend, exec .encode { t with pend := some q } = .next (erredCodec t .noCode 0)) ∧
    ∀ (k : Nat) (u : State) (q : Pend), Host.Core.run Sys2Proof.core k t = .next u →
      (∀ (j : Nat) (v : State) (g : Pend), j < k → Host.Core.run Sys2Proof.core j t = .next v → CoreTurn v g →
        g.word ≠ 0x00000004#32) →
      CoreTurn u q → q.word = 0x00000005#32 → step u = .next (erredCodec u .noCode 0)

/-! ## DECODE -/

/-- R112, R116: DECODE, with CHK = 0 or 1, of a stream that is whole codes stores their symbols in order at DST; OUT_LEN is
their number and OUT_BITS is BITS; no other byte and nothing else changes. BITS = 0 stores nothing. -/
def Obligations.DecodeStoresTheSymbols : Prop :=
  ∀ (i : Instr) (s : State) (p : Pend) (ps : List (List Bool × Byte)), s.pend = some p → s.mem.wf = true →
    DecodeReady i s p.ops → WholeCodes s.tree ps → streamOf s p.ops = ps.flatMap Prod.fst → OutputFits s p.ops ps →
    ∃ (m : Memory) (o : OutRegs), exec i s = .next (completed { s with mem := m, out := o }) ∧
      Stored s.mem m p.ops.dst.toNat (ps.map Prod.snd) ∧ o.len.toNat = ps.length ∧ o.bits = p.ops.bits

/-- R111, R115, R116, R121: the errors DECODE finds before it reads a bit, in check order: NO_TREE; with CHK = 1 TREE_MISMATCH
with the least symbol whose bits differ; CORRUPT_STREAM(0xFFFFFFFF); ADDRESS_RANGE(0). -/
def Obligations.DecodeChecksBeforeTheWalk : Prop :=
  ∀ (i : Instr) (s : State) (p : Pend), (i = .decode ∨ i = .decodeChk) → s.pend = some p →
    (s.tree.valid = false → exec i s = .next (erredCodec s .noTree 0)) ∧
    (∀ k : Nat, i = .decodeChk → s.tree.valid = true → k < 256 → s.tree.leafset.getLsbD k ≠ s.expset.getLsbD k →
      (∀ j, j < k → s.tree.leafset.getLsbD j = s.expset.getLsbD j) →
      exec i s = .next (erredCodec s .treeMismatch (BitVec.ofNat 32 k))) ∧
    ((i = .decodeChk → s.tree.leafset = s.expset) → s.tree.valid = true →
      p.ops.len.toNat ≠ (p.ops.bits.toNat + 7) / 8 →
      exec i s = .next (erredCodec s .corruptStream 0xFFFFFFFF)) ∧
    ((i = .decodeChk → s.tree.leafset = s.expset) → s.tree.valid = true →
      p.ops.len.toNat = (p.ops.bits.toNat + 7) / 8 → s.mem.size < p.ops.src.toNat + p.ops.len.toNat →
      exec i s = .next (erredCodec s .addressRange 0))

/-- R113, R114, R116, R121: the errors of the walk, whichever is met first in bit order: CORRUPT_STREAM(i) at a missing child,
ADDRESS_RANGE(1) at the first symbol whose output byte would lie at or past DMEM_SIZE, and CORRUPT_STREAM(BITS) when the bits
end inside the tree. -/
def Obligations.DecodeErrorsOfTheWalk : Prop :=
  ∀ (i : Instr) (s : State) (p : Pend) (ps : List (List Bool × Byte)), s.pend = some p → DecodeReady i s p.ops →
    WholeCodes s.tree ps → OutputFits s p.ops ps →
    (∀ (q : List Bool) (n : NodeIx) (b : Bool) (rest : List Bool),
      streamOf s p.ops = ps.flatMap Prod.fst ++ q ++ b :: rest → s.tree.pathInside q n →
      (nodeAt s.tree.node n).child b = nil →
      exec i s = .next (erredCodec s .corruptStream (BitVec.ofNat 32 ((ps.flatMap Prod.fst).length + q.length)))) ∧
    (∀ (x : List Bool × Byte) (rest : List Bool),
      streamOf s p.ops = ps.flatMap Prod.fst ++ x.1 ++ rest → WholeCodes s.tree [x] →
      s.mem.size < p.ops.dst.toNat + ps.length + 1 →
      exec i s = .next (erredCodec s .addressRange 1)) ∧
    (∀ (q : List Bool) (n : NodeIx), streamOf s p.ops = ps.flatMap Prod.fst ++ q → q ≠ [] → s.tree.pathInside q n →
      exec i s = .next (erredCodec s .corruptStream p.ops.bits))

/-- R111: "The padding bits, stream bits BITS to 8·LEN − 1, are never read or checked": two memories that agree on the stream's
BITS bits give the same error report, the same result registers and the same output bytes. -/
def Obligations.PaddingBitsAreNeverRead : Prop :=
  ∀ (i : Instr) (s t : State) (m : Memory) (p : Pend), (i = .decode ∨ i = .decodeChk) → s.pend = some p →
    s.mem.wf = true → m.wf = true → m.size = s.mem.size →
    streamOf { s with mem := m } p.ops = streamOf s p.ops → exec i s = .next t →
    ∃ t', exec i { s with mem := m } = .next t' ∧ t'.err = t.err ∧ t'.out = t.out ∧ t'.event = t.event ∧
      ∀ k, k < t.out.len.toNat → t'.mem.read (p.ops.dst.toNat + k) = t.mem.read (p.ops.dst.toNat + k)

/-! ## Round trip -/

/-- R117: what ENCODE has packed, DECODE unpacks: from any state that has the same tree and the packed bytes, with LEN, BITS as
ENCODE reported them, DECODE gives back the input bytes exactly. -/
def Obligations.DecodeUndoesEncode : Prop :=
  ∀ (s t d : State) (p q : Pend), Inv s → s.pend = some p → exec .encode s = .next t → t.err.code = .ok →
    d.pend = some q → d.mem.wf = true → d.mem.size = s.mem.size → d.tree = s.tree →
    q.ops.len = t.out.len → q.ops.bits = t.out.bits → q.ops.src.toNat + t.out.len.toNat ≤ s.mem.size →
    (∀ k, k < t.out.len.toNat → d.mem.read (q.ops.src.toNat + k) = t.mem.read (p.ops.dst.toNat + k)) →
    q.ops.dst.toNat + p.ops.len.toNat ≤ s.mem.size →
    ∃ u, exec .decode d = .next u ∧ u.err.code = .ok ∧ u.out.len = p.ops.len ∧
      ∀ k, k < p.ops.len.toNat → u.mem.read (q.ops.dst.toNat + k) = s.mem.read (p.ops.src.toNat + k)

/-- R117: the whole pipeline. For a non-empty input anywhere in DMEM: `count` over it, `build` and `gencode` succeed; `encode`
to D succeeds, with OUT_BITS the sum T of the input's code lengths and OUT_LEN = ceil8(T), if the packed bytes have room, that
is if D + ceil8(T) is at most DMEM_SIZE, and fails with ADDRESS_RANGE(1) otherwise; and where it succeeds, a following
`decode D, B, T, D2` succeeds and writes exactly the input at D2. -/
def Obligations.PipelineRoundTrip : Prop :=
  ∀ (s : State) (src len dst dst2 : Word), MemoryOk s → len ≠ 0 → src.toNat + len.toNat ≤ s.mem.size →
    dst2.toNat + len.toNat ≤ s.mem.size →
    ∃ s1 s2 s3,
      exec .count (issued s .count ⟨src, len, 0, 0⟩) = .next s1 ∧ s1.err.code = .ok ∧
      exec .build (issued s1 .build s1.ops) = .next s2 ∧ s2.err.code = .ok ∧
      exec .gencode (issued s2 .gencode s2.ops) = .next s3 ∧ s3.err.code = .ok ∧
      let e := issued s3 .encode ⟨src, len, dst, 0⟩
      let total := ((inputOf s ⟨src, len, 0, 0⟩).map (fun b => (symGet s3.codes.entry b).len.toNat)).sum
      if dst.toNat + (total + 7) / 8 ≤ s.mem.size then
        ∃ s4 s5, exec .encode e = .next s4 ∧ s4.err.code = .ok ∧
          s4.out.bits.toNat = total ∧ s4.out.len.toNat = (total + 7) / 8 ∧
          exec .decode (issued s4 .decode ⟨dst, s4.out.len, dst2, s4.out.bits⟩) = .next s5 ∧ s5.err.code = .ok ∧
          s5.out.len = len ∧ ∀ k, k < len.toNat → s5.mem.read (dst2.toNat + k) = s.mem.read (src.toNat + k)
      else exec .encode e = .next (erredCodec e .addressRange 1)

/-! ## Every command -/

/-- R77, R78, R123: all or nothing. A command either succeeds, with ERRCODE and ERRINFO 0 and EVENT.DONE set, or fails and
changes only ERRCODE, ERRINFO and EVENT.ERR, plus OUT_LEN and OUT_BITS for ENCODE and DECODE, which are set to 0; in both
cases PEND is empty after it. -/
def Obligations.CommandsAreAllOrNothing : Prop :=
  ∀ (i : Instr) (s t : State) (p : Pend), s.pend = some p → exec i s = .next t →
    t.pend = none ∧
    (t.err.code = .ok → t.err.info = 0 ∧ t.event = { s.event with done := true }) ∧
    (t.err.code ≠ .ok →
      t = if i = .encode ∨ i = .decode ∨ i = .decodeChk then erredCodec s t.err.code t.err.info
        else erred s t.err.code t.err.info)

/-- R120, R87: which error codes each command raises and with what information, and the codes as ERRCODE reads them. COUNT with
ACC = 0 never overflows. -/
def Obligations.ErrorCodesOfEachCommand : Prop :=
  (∀ (i : Instr) (s t : State) (p : Pend), s.pend = some p → exec i s = .next t →
    match i with
    | .nop | .clrf => t.err = ⟨.ok, 0⟩
    | .count => t.err = ⟨.ok, 0⟩ ∨ t.err = ⟨.addressRange, 0⟩
    | .countAcc => t.err = ⟨.ok, 0⟩ ∨ t.err = ⟨.addressRange, 0⟩ ∨
        (t.err.code = .countOverflow ∧ t.err.info.toNat < 256)
    | .build => t.err = ⟨.ok, 0⟩ ∨ t.err = ⟨.emptyInput, 0⟩
    | .gencode => t.err = ⟨.ok, 0⟩ ∨ t.err = ⟨.noTree, 0⟩
    | .encode => t.err = ⟨.ok, 0⟩ ∨ t.err = ⟨.noCode, 0⟩ ∨ t.err = ⟨.addressRange, 0⟩ ∨ t.err = ⟨.emptyInput, 0⟩ ∨
        (t.err.code = .encodingConsistency ∧ t.err.info.toNat < p.ops.len.toNat) ∨ t.err = ⟨.addressRange, 1⟩
    | .decode | .decodeChk => t.err = ⟨.ok, 0⟩ ∨ t.err = ⟨.noTree, 0⟩ ∨
        (i = .decodeChk ∧ t.err.code = .treeMismatch ∧ t.err.info.toNat < 256) ∨
        t.err = ⟨.corruptStream, 0xFFFFFFFF⟩ ∨ t.err = ⟨.addressRange, 0⟩ ∨
        (t.err.code = .corruptStream ∧ t.err.info.toNat ≤ p.ops.bits.toNat) ∨ t.err = ⟨.addressRange, 1⟩) ∧
  (∀ x ∈ [(ErrCode.ok, 0x00#32), (.emptyInput, 0x01#32), (.encodingConsistency, 0x02#32), (.corruptStream, 0x03#32),
      (.treeMismatch, 0x04#32), (.illegalCommand, 0x10#32), (.addressRange, 0x11#32), (.noTree, 0x12#32),
      (.noCode, 0x13#32), (.countOverflow, 0x14#32)],
    ∀ s : State, s.err.code = x.1 → s.readReg .errcode = x.2)

/-- The frame of every command, successful or not (R26, R31, R32, R33, R36, R38, R41, R48): IE, CMD, the operand registers,
EXPSET, EVENT.OVR, DMEM_SIZE and the host's side stand; FREQ changes only by CLRF and COUNT, the tree only by BUILD, the code
table only by BUILD and GENCODE, OUT_LEN, OUT_BITS and DMEM only by ENCODE and DECODE; and of DMEM no byte changes outside the
OUT_LEN bytes stored from DST up. -/
def Obligations.CommandFrame : Prop :=
  ∀ (i : Instr) (s t : State) (p : Pend), s.pend = some p → Config.dmemSizeOk s.mem.size = true → exec i s = .next t →
    t.ie = s.ie ∧ t.cmd = s.cmd ∧ t.ops = s.ops ∧ t.expset = s.expset ∧ t.event.ovr = s.event.ovr ∧
    t.mem.size = s.mem.size ∧ t.mem.draw = s.mem.draw ∧ t.host = s.host ∧ t.reads = s.reads ∧ t.draws = s.draws ∧
    (i ≠ .clrf → i ≠ .count → i ≠ .countAcc → t.freq = s.freq) ∧
    (i ≠ .build → t.tree = s.tree) ∧
    (i ≠ .build → i ≠ .gencode → t.codes = s.codes) ∧
    (i ≠ .encode → i ≠ .decode → i ≠ .decodeChk → t.out = s.out ∧ t.mem = s.mem) ∧
    (∀ a, a < p.ops.dst.toNat ∨ p.ops.dst.toNat + t.out.len.toNat ≤ a →
      (i = .encode ∨ i = .decode ∨ i = .decodeChk) → t.mem.read a = s.mem.read a)

/-! ## The whole machine -/

/-- R133: the state after reset meets the invariant. -/
def Obligations.InvariantHoldsAtReset : Prop := Inv State.reset

/-- R22, R26, R30, R31, R38, R41, R44, R96: every step keeps the invariant: DMEM in its canonical form with a size R9 admits, a
pending command the last accepted word with the operand registers' values, the arena empty or a tree of BUILD's shape, and
the code table empty or the tree's path codes. -/
def Obligations.EveryStepKeepsTheInvariant : Prop :=
  ∀ s t : State, Inv s → step s = .next t → Inv t

/-- R119, R53: from a state the invariant allows no step faults, and only an inadmissible host transaction is refused. -/
def Obligations.InvariantStatesNeverFault : Prop :=
  ∀ s : State, Inv s → Safe s ∧
    ∀ r, step s = .refused r → r = .inadmissibleTransaction ∧ ∃ op rest, HostTurn s op rest ∧ op.admitted = false

/-- R59, R82: a pending command is completed, or discarded by a reset, within as many steps as its latency and one more,
whatever admitted transactions the host makes meanwhile. The bound is the model's form of R59's weak fairness (log entry 4). -/
def Obligations.PendingCommandEnds : Prop :=
  ∀ (s : State) (p : Pend), Inv s → s.pend = some p → (∀ op ∈ s.host, HostOp.admitted op = true) →
    ∃ k t, k ≤ s.latency + 1 ∧ Host.Core.run Sys2Proof.core k s = .next t ∧ t.pend = none

/-- R37, R38, R33: "Only BUILD writes the arena; the host can only read it": a step changes the tree, ROOT, the counts, LEAFSET
or TREE_VALID only by completing a BUILD or by a reset. -/
def Obligations.OnlyBuildAndResetChangeTheTree : Prop :=
  ∀ s t : State, step s = .next t → t.tree ≠ s.tree →
    (∃ p, CoreTurn s p ∧ p.word = 0x00000003#32) ∨ (∃ rest, HostTurn s .powerOn rest) ∨
      (∃ v rest, HostTurn s (.write 0x008 32 v) rest ∧ v.getLsbD 0 = true)

/-- R26, R41, R42: a step changes the code table, MAX_CODE_LEN or CODE_VALID only by completing a BUILD or a GENCODE or by a
reset. -/
def Obligations.OnlyBuildGencodeAndResetChangeTheCodes : Prop :=
  ∀ s t : State, step s = .next t → t.codes ≠ s.codes →
    (∃ p, CoreTurn s p ∧ (p.word = 0x00000003#32 ∨ p.word = 0x00000004#32)) ∨ (∃ rest, HostTurn s .powerOn rest) ∨
      (∃ v rest, HostTurn s (.write 0x008 32 v) rest ∧ v.getLsbD 0 = true)

/-- R50, R56, R58: "A byte keeps its value until it is written. No reset of any kind changes DMEM": a step changes a DMEM byte
only by a host write to its word while no command is pending, or by completing an ENCODE or a DECODE. That this covers a later
power-on reset, beside R133's entry for DMEM, is log entry 1 (DEDUCED). -/
def Obligations.DmemBytesStayUntilWritten : Prop :=
  ∀ (s t : State) (a : Nat), step s = .next t → t.mem.read a ≠ s.mem.read a →
    (∃ off v rest, HostTurn s (.write off 32 v) rest ∧ s.pend = none ∧ 0x100000 ≤ off.toNat ∧
      off.toNat - 0x100000 ≤ a ∧ a < off.toNat - 0x100000 + 4) ∨
    (∃ p, CoreTurn s p ∧ (p.word = 0x00000005#32 ∨ p.word = 0x00000006#32 ∨ p.word = 0x00000206#32))

/-- R28, R29, R77, R79: ERRCODE and ERRINFO are the outcome of the last completed command: a host step leaves them as they
were unless it is a reset, which sets them to 0 with EVENT and PEND; and a step of the core writes the completed command's
outcome to them, ILLEGAL_COMMAND with the word, the report of the first of its checks that fails, or 0 and 0, and sets
EVENT.DONE or EVENT.ERR accordingly. -/
def Obligations.ErrorReportIsTheLastCompletions : Prop :=
  (∀ (s t : State) (op : HostOp) (rest : List HostOp), HostTurn s op rest → step s = .next t →
    (op = .powerOn ∨ (∃ v : Word, op = .write 0x008 32 v ∧ v.getLsbD 0 = true) →
      t.err = ⟨.ok, 0⟩ ∧ t.pend = none ∧ t.event = ⟨false, false, false⟩) ∧
    (op ≠ .powerOn → (∀ v : Word, op = .write 0x008 32 v → v.getLsbD 0 = false) → t.err = s.err)) ∧
  (∀ (s t : State) (p : Pend), CoreTurn s p → step s = .next t →
    t.pend = none ∧ t.err = outcomeOf s p ∧
    t.event = if (outcomeOf s p).code = .ok then { s.event with done := true } else { s.event with err := true })
end

