-- ==== Sys2Proof/Laws/Tables.lean ====
section
/-! SUPPORT. The byte-indexed tables, the NODE arena and the symbol bitmaps: what is read after what is written. -/

namespace Sys2Proof.Machine

@[simp] theorem symGet_symSet_same {α : Type} (t : Vector α 256) (b : Byte) (x : α) : symGet (symSet t b x) b = x := by
  simp [symGet, symSet]

theorem symGet_symSet_other {α : Type} (t : Vector α 256) {b c : Byte} (x : α) (h : c ≠ b) :
    symGet (symSet t b x) c = symGet t c := by
  have : b.toNat ≠ c.toNat := fun e => h (BitVec.eq_of_toNat_eq e).symm
  simp [symGet, symSet, this]

theorem symGet_symSet {α : Type} (t : Vector α 256) (b c : Byte) (x : α) :
    symGet (symSet t b x) c = if c = b then x else symGet t c := by
  split
  · rename_i h; rw [h, symGet_symSet_same]
  · rename_i h; exact symGet_symSet_other t x h

@[simp] theorem symGet_replicate {α : Type} (x : α) (b : Byte) : symGet (Vector.replicate 256 x) b = x := by
  simp [symGet]

@[simp] theorem symGet_freqEmpty (b : Byte) : symGet FreqTable.empty b = 0 := symGet_replicate 0 b

theorem nodeAt_of_lt (t : Vector Node 511) (i : NodeIx) (h : i.toNat < 511) : nodeAt t i = t[i.toNat] := by
  simp [nodeAt, h]

/-- NIL names no node (R12). -/
@[simp] theorem nodeAt_nil (t : Vector Node 511) : nodeAt t nil = Node.empty := by
  simp [nodeAt]

@[simp] theorem nodeAt_replicate (i : NodeIx) : nodeAt (Vector.replicate 511 Node.empty) i = Node.empty := by
  by_cases h : i.toNat < 511
  · simp [nodeAt, h]
  · simp [nodeAt, h]

/-- Entry `i` of an arena built from a list. -/
theorem nodeAt_ofFn (xs : List Node) (i : NodeIx) (h : i.toNat < 511) :
    nodeAt (Vector.ofFn (fun k : Fin 511 => (xs[k.val]?).getD Node.empty)) i = (xs[i.toNat]?).getD Node.empty := by
  simp [nodeAt, h]

theorem bitmap_getLsbD (p : Nat → Bool) (n k : Nat) : (bitmap p n).getLsbD k = (decide (k < n) && p k) := by
  induction n with
  | zero => simp [bitmap]
  | succ n ih =>
    simp only [bitmap, BitVec.getLsbD_cons, ih]
    by_cases h : k = n
    · simp [h]
    · simp only [if_neg h]
      by_cases h' : k < n
      · simp [h', Nat.lt_succ_of_lt h']
      · have : ¬ k < n + 1 := by omega
        simp [h', this]

/-- Bit `b` of word `w` is bit `32w + b` (R34, R35). -/
theorem bitmapWord_getLsbD (x : BitVec 256) (w : BitVec 3) (b : Nat) (hb : b < 32) :
    (bitmapWord x w).getLsbD b = x.getLsbD (32 * w.toNat + b) := by
  simp [bitmapWord, hb]

theorem bitmapWord_set_same (x : BitVec 256) (w : BitVec 3) (v : Word) : bitmapWord (bitmapSetWord x w v) w = v := by
  apply BitVec.eq_of_getLsbD_eq
  intro i hi
  have hw : w.toNat < 8 := w.isLt
  rw [bitmapWord_getLsbD _ _ _ hi, bitmapSetWord, bitmap_getLsbD]
  simp [show (32 * w.toNat + i) / 32 = w.toNat by omega, show (32 * w.toNat + i) % 32 = i by omega]
  omega

theorem bitmapWord_set_other (x : BitVec 256) {w u : BitVec 3} (v : Word) (h : u ≠ w) :
    bitmapWord (bitmapSetWord x w v) u = bitmapWord x u := by
  apply BitVec.eq_of_getLsbD_eq
  intro i hi
  have hu : u.toNat < 8 := u.isLt
  have huw : u.toNat ≠ w.toNat := fun e => h (BitVec.eq_of_toNat_eq e)
  rw [bitmapWord_getLsbD _ _ _ hi, bitmapWord_getLsbD _ _ _ hi, bitmapSetWord, bitmap_getLsbD]
  rw [if_neg (show ¬ (32 * u.toNat + i) / 32 = w.toNat by omega)]
  simp
  omega

end Sys2Proof.Machine
end

