-- ==== Sys2Proof/Laws/Builder.lean ====
section
/-! SUPPORT. The tree builder: the order of keys, extraction of the least key, and the forest the merges keep. -/

namespace Sys2Proof.Machine

/-! ## Keys -/

theorem Key.lt_iff (a b : Key) :
    a.lt b = true ↔ a.freq.toNat < b.freq.toNat ∨ (a.freq = b.freq ∧ a.ix < b.ix) := by
  simp [Key.lt]

theorem Key.lt_trans {a b c : Key} (h : a.lt b = true) (h' : b.lt c = true) : a.lt c = true := by
  rw [Key.lt_iff] at *
  rcases h with h | ⟨h1, h2⟩ <;> rcases h' with h' | ⟨h1', h2'⟩
  · left; omega
  · left; rw [← h1']; exact h
  · left; rw [h1]; exact h'
  · right; exact ⟨h1.trans h1', by omega⟩

/-- "Indices are unique, so the order is strict and total" (R90). -/
theorem Key.lt_total {a b : Key} (h : a.ix ≠ b.ix) (h' : a.lt b = false) : b.lt a = true := by
  have h'' : ¬ a.lt b = true := by simp [h']
  rw [Key.lt_iff] at *
  rcases Nat.lt_trichotomy a.freq.toNat b.freq.toNat with h1 | h1 | h1
  · exact absurd (.inl h1) h''
  · have he : a.freq = b.freq := BitVec.eq_of_toNat_eq h1
    rcases Nat.lt_or_ge a.ix b.ix with h2 | h2
    · exact absurd (.inr ⟨he, h2⟩) h''
    · exact .inr ⟨he.symm, by omega⟩
  · exact .inl h1

/-! ## Extraction -/

theorem extractMin_eq_none {ks : List Key} : extractMin ks = none ↔ ks = [] := by
  cases ks with
  | nil => simp [extractMin]
  | cons k ks =>
    simp only [extractMin, reduceCtorEq, iff_false]
    split
    · simp
    · split <;> simp

theorem extractMin_perm {ks rest : List Key} {m : Key} (h : extractMin ks = some (m, rest)) : ks.Perm (m :: rest) := by
  induction ks generalizing m rest with
  | nil => simp [extractMin] at h
  | cons k ks ih =>
    simp only [extractMin] at h
    split at h
    · rename_i hn
      simp only [extractMin_eq_none.mp hn, Option.some.injEq, Prod.mk.injEq] at h ⊢
      obtain ⟨rfl, rfl⟩ := h
      exact List.Perm.refl _
    · rename_i m' rest' hs
      split at h
      · simp only [Option.some.injEq, Prod.mk.injEq] at h
        obtain ⟨rfl, rfl⟩ := h
        exact List.Perm.refl _
      · simp only [Option.some.injEq, Prod.mk.injEq] at h
        obtain ⟨rfl, rfl⟩ := h
        exact ((ih hs).cons k).trans (List.Perm.swap _ _ _)

/-- "the node of least key": the extracted node comes before every node left (R91). -/
theorem extractMin_least {ks rest : List Key} {m : Key} (hn : (ks.map Key.ix).Nodup)
    (h : extractMin ks = some (m, rest)) : ∀ k ∈ rest, m.lt k = true := by
  induction ks generalizing m rest with
  | nil => simp [extractMin] at h
  | cons k ks ih =>
    simp only [List.map_cons, List.nodup_cons] at hn
    simp only [extractMin] at h
    split at h
    · simp only [Option.some.injEq, Prod.mk.injEq] at h
      obtain ⟨rfl, rfl⟩ := h
      simp
    · rename_i m' rest' hs
      have hperm := extractMin_perm hs
      split at h
      · rename_i hlt
        simp only [Option.some.injEq, Prod.mk.injEq] at h
        obtain ⟨rfl, rfl⟩ := h
        intro x hx
        rcases List.mem_cons.mp (hperm.mem_iff.mp hx) with hx | hx
        · rw [hx]; exact hlt
        · exact Key.lt_trans hlt (ih hn.2 hs x hx)
      · rename_i hlt
        simp only [Option.some.injEq, Prod.mk.injEq] at h
        obtain ⟨rfl, rfl⟩ := h
        intro x hx
        rcases List.mem_cons.mp hx with hx | hx
        · subst hx
          refine Key.lt_total (fun he => hn.1 ?_) (by simpa using hlt)
          rw [he]
          exact List.mem_map_of_mem (hperm.mem_iff.mpr (by simp))
        · exact ih hn.2 hs x hx

/-! ## The forest -/

/-- Node `j` of the arena is the parent of node `i`: one of the Internal entries made so far, with `i` as a child. -/
def Parent (n : Nat) (arena : List Node) (j i : Nat) : Prop :=
  n ≤ j ∧ ∃ nd, arena[j]? = some nd ∧ (nd.left = BitVec.ofNat 9 i ∨ nd.right = BitVec.ofNat 9 i)

/-- What stands at index `j` of the arena is the Internal node over `a` and `b`, the two least of the nodes below `j` that
had no parent when it was made (R91). -/
structure MergedAt (n : Nat) (arena : List Node) (j : Nat) (a b : Key) : Prop where
  node : arena[j]? = some (mergedNode a b)
  a_lt : a.ix < j
  b_lt : b.ix < j
  ordered : a.lt b = true
  a_freq : ∃ nd, arena[a.ix]? = some nd ∧ nd.freq = a.freq
  b_freq : ∃ nd, arena[b.ix]? = some nd ∧ nd.freq = b.freq
  exact_sum : a.freq.toNat + b.freq.toNat < 2 ^ 40
  least : ∀ c nd, c < j → c ≠ a.ix → c ≠ b.ix → arena[c]? = some nd → (∀ i, i < j → ¬ Parent n arena i c) →
    b.lt ⟨nd.freq, c⟩ = true

/-- The forest BUILD has made from `n` leaves: `heap` holds the keys of the nodes that have no parent yet (R91). -/
structure Forest (n : Nat) (arena : List Node) (heap : List Key) (total : Nat) : Prop where
  size : n ≤ arena.length
  count : arena.length + heap.length = 2 * n
  key : ∀ k ∈ heap, ∃ nd, arena[k.ix]? = some nd ∧ nd.freq = k.freq
  nodup : (heap.map Key.ix).Nodup
  merged : ∀ j, n ≤ j → j < arena.length → ∃ a b, MergedAt n arena j a b
  alive : ∀ i, i < arena.length → (i ∈ heap.map Key.ix ↔ ∀ j, ¬ Parent n arena j i)
  one_parent : ∀ i j j', i < arena.length → Parent n arena j i → Parent n arena j' i → j = j'
  total_eq : (heap.map (fun k => k.freq.toNat)).sum = total

theorem Parent.append {n : Nat} {arena : List Node} {nd : Node} {j i : Nat} (h : Parent n arena j i) :
    Parent n (arena ++ [nd]) j i := by
  obtain ⟨h1, x, h2, h3⟩ := h
  have hj : j < arena.length := (List.getElem?_eq_some_iff.mp h2).1
  exact ⟨h1, x, by rw [List.getElem?_append_left hj, h2], h3⟩

theorem Parent.of_append {n : Nat} {arena : List Node} {nd : Node} {j i : Nat} (h : Parent n (arena ++ [nd]) j i) :
    Parent n arena j i ∨ (j = arena.length ∧ (nd.left = BitVec.ofNat 9 i ∨ nd.right = BitVec.ofNat 9 i)) := by
  obtain ⟨h1, x, h2, h3⟩ := h
  rcases Nat.lt_trichotomy j arena.length with hj | hj | hj
  · rw [List.getElem?_append_left hj] at h2
    exact .inl ⟨h1, x, h2, h3⟩
  · subst hj
    simp only [List.getElem?_append_right (Nat.le_refl _), Nat.sub_self, List.getElem?_cons_zero,
      Option.some.injEq] at h2
    subst h2
    exact .inr ⟨rfl, h3⟩
  · rw [List.getElem?_eq_none (by simp; omega)] at h2
    cases h2

theorem ofNat9_inj {i j : Nat} (hi : i < 512) (hj : j < 512) (h : BitVec.ofNat 9 i = BitVec.ofNat 9 j) : i = j := by
  have := congrArg BitVec.toNat h
  simp only [BitVec.toNat_ofNat] at this
  omega

/-- One merge keeps the forest. -/
theorem Forest.merge {n total : Nat} {arena : List Node} {heap heap1 heap2 : List Key} {a b : Key}
    (hf : Forest n arena heap total) (hn : n ≤ 256) (ht : total < 2 ^ 40)
    (ha : extractMin heap = some (a, heap1)) (hb : extractMin heap1 = some (b, heap2)) :
    Forest n (arena ++ [mergedNode a b]) (⟨a.freq + b.freq, arena.length⟩ :: heap2) total := by
  have pa := extractMin_perm ha
  have pb := extractMin_perm hb
  have hperm : heap.Perm (a :: b :: heap2) := pa.trans (pb.cons a)
  have hnd : ((a :: b :: heap2).map Key.ix).Nodup := (hperm.map Key.ix).nodup_iff.mp hf.nodup
  have hnd1 : (heap1.map Key.ix).Nodup := by
    have := (pa.map Key.ix).nodup_iff.mp hf.nodup
    simp only [List.map_cons, List.nodup_cons] at this
    exact this.2
  have la := extractMin_least hf.nodup ha
  have lb := extractMin_least hnd1 hb
  have hmema : a ∈ heap := hperm.mem_iff.mpr (by simp)
  have hmemb : b ∈ heap := hperm.mem_iff.mpr (by simp)
  obtain ⟨na, hna, hfa⟩ := hf.key a hmema
  obtain ⟨nb, hnb, hfb⟩ := hf.key b hmemb
  have hal : a.ix < arena.length := (List.getElem?_eq_some_iff.mp hna).1
  have hbl : b.ix < arena.length := (List.getElem?_eq_some_iff.mp hnb).1
  have hlen := hperm.length_eq
  simp only [List.length_cons] at hlen
  have hcount := hf.count
  have hsize := hf.size
  have hL : arena.length < 511 := by omega
  have hsum : a.freq.toNat + (b.freq.toNat + (heap2.map (fun k => k.freq.toNat)).sum) = total := by
    rw [← hf.total_eq, (hperm.map (fun k => k.freq.toNat)).sum_eq]
    simp
  have hexact : a.freq.toNat + b.freq.toNat < 2 ^ 40 := by omega
  simp only [List.map_cons, List.nodup_cons, List.mem_cons, not_or] at hnd
  obtain ⟨⟨hab, ha2⟩, hb2, hnd2⟩ := hnd
  have hget : ∀ i, i < arena.length → (arena ++ [mergedNode a b])[i]? = arena[i]? := fun i hi =>
    List.getElem?_append_left hi
  have hnew : (arena ++ [mergedNode a b])[arena.length]? = some (mergedNode a b) := by simp
  have hmem2 : ∀ k ∈ heap2, k ∈ heap := fun k hk => hperm.mem_iff.mpr (by simp [hk])
  have hixlt : ∀ k ∈ heap, k.ix < arena.length := fun k hk => by
    obtain ⟨nd, h, _⟩ := hf.key k hk
    exact (List.getElem?_eq_some_iff.mp h).1
  have hpar_new : ∀ i, i < arena.length + 1 → (Parent n (arena ++ [mergedNode a b]) arena.length i ↔ i = a.ix ∨ i = b.ix) := by
    intro i hi
    constructor
    · rintro ⟨_, x, hx, h3⟩
      rw [hnew] at hx
      cases hx
      rcases h3 with h3 | h3
      · exact .inr (ofNat9_inj (by omega) (by omega) h3).symm
      · exact .inl (ofNat9_inj (by omega) (by omega) h3).symm
    · rintro (rfl | rfl)
      · exact ⟨hsize, _, hnew, .inr rfl⟩
      · exact ⟨hsize, _, hnew, .inl rfl⟩
  refine ⟨by simp; omega, by simp; omega, ?_, ?_, ?_, ?_, ?_, ?_⟩
  · -- key
    intro k hk
    rcases List.mem_cons.mp hk with rfl | hk
    · exact ⟨_, hnew, rfl⟩
    · obtain ⟨nd, h1, h2⟩ := hf.key k (hmem2 k hk)
      exact ⟨nd, by rw [hget _ (hixlt k (hmem2 k hk))]; exact h1, h2⟩
  · -- nodup
    simp only [List.map_cons, List.nodup_cons]
    refine ⟨fun h => ?_, hnd2⟩
    obtain ⟨k, hk, he⟩ := List.mem_map.mp h
    have := hixlt k (hmem2 k hk)
    omega
  · -- merged
    intro j hj hjl
    simp only [List.length_append, List.length_cons, List.length_nil] at hjl
    rcases Nat.lt_or_ge j arena.length with hj' | hj'
    · obtain ⟨x, y, hm⟩ := hf.merged j hj hj'
      refine ⟨x, y, ⟨by rw [hget j hj']; exact hm.node, hm.a_lt, hm.b_lt, hm.ordered, ?_, ?_, hm.exact_sum, ?_⟩⟩
      · obtain ⟨nd, h1, h2⟩ := hm.a_freq
        exact ⟨nd, by rw [hget _ (by have := hm.a_lt; omega)]; exact h1, h2⟩
      · obtain ⟨nd, h1, h2⟩ := hm.b_freq
        exact ⟨nd, by rw [hget _ (by have := hm.b_lt; omega)]; exact h1, h2⟩
      · intro c nd hc hca hcb hcn hcp
        rw [hget c (by omega)] at hcn
        exact hm.least c nd hc hca hcb hcn (fun i hi hp => hcp i hi hp.append)
    · have hje : j = arena.length := by omega
      subst hje
      refine ⟨a, b, ⟨hnew, hal, hbl, la b (pb.mem_iff.mpr (by simp)), ⟨na, by rw [hget _ hal]; exact hna, hfa⟩,
        ⟨nb, by rw [hget _ hbl]; exact hnb, hfb⟩, hexact, ?_⟩⟩
      intro c nd hc hca hcb hcn hcp
      rw [hget c hc] at hcn
      have hin : c ∈ heap.map Key.ix := (hf.alive c hc).mpr (fun j hp => by
        have hjl : j < arena.length := by
          obtain ⟨_, x, hx, _⟩ := hp
          exact (List.getElem?_eq_some_iff.mp hx).1
        exact hcp j hjl hp.append)
      obtain ⟨k, hk, rfl⟩ := List.mem_map.mp hin
      obtain ⟨nd', h1, h2⟩ := hf.key k hk
      rw [hcn] at h1
      cases h1
      rw [h2]
      rcases List.mem_cons.mp (hperm.mem_iff.mp hk) with rfl | hk
      · exact absurd rfl hca
      · rcases List.mem_cons.mp hk with rfl | hk
        · exact absurd rfl hcb
        · exact lb k hk
  · -- alive
    intro i hi
    simp only [List.length_append, List.length_cons, List.length_nil] at hi
    simp only [List.map_cons, List.mem_cons]
    rcases Nat.lt_or_ge i arena.length with hil | hil
    · have hmemheap : i ∈ heap.map Key.ix ↔ i = a.ix ∨ i = b.ix ∨ i ∈ heap2.map Key.ix := by
        rw [(hperm.map Key.ix).mem_iff]; simp
      constructor
      · rintro (h | h)
        · omega
        · intro j hp
          have hin : i ∈ heap.map Key.ix := hmemheap.mpr (.inr (.inr h))
          rcases hp.of_append with hp' | ⟨rfl, _⟩
          · exact (hf.alive i hil).mp hin j hp'
          · rcases (hpar_new i (by omega)).mp hp with rfl | rfl
            · exact ha2 h
            · exact hb2 h
      · intro h
        right
        have hin : i ∈ heap.map Key.ix := (hf.alive i hil).mpr (fun j hp => h j hp.append)
        rcases hmemheap.mp hin with rfl | rfl | h'
        · exact absurd ((hpar_new _ (by omega)).mpr (.inl rfl)) (h arena.length)
        · exact absurd ((hpar_new _ (by omega)).mpr (.inr rfl)) (h arena.length)
        · exact h'
    · have hie : i = arena.length := by omega
      subst hie
      refine ⟨fun _ j hp => ?_, fun _ => .inl rfl⟩
      rcases hp.of_append with hp' | ⟨rfl, _⟩
      · obtain ⟨hnj, x, hx, h3⟩ := hp'
        have hjl : j < arena.length := (List.getElem?_eq_some_iff.mp hx).1
        obtain ⟨u, v, hm⟩ := hf.merged j hnj hjl
        rw [hm.node] at hx
        cases hx
        have := hm.a_lt
        have := hm.b_lt
        rcases h3 with h3 | h3
        · have := ofNat9_inj (by omega) (by omega) h3; omega
        · have := ofNat9_inj (by omega) (by omega) h3; omega
      · rcases (hpar_new arena.length (by omega)).mp hp with h | h <;> omega
  · -- one parent
    intro i j j' hi hj hj'
    simp only [List.length_append, List.length_cons, List.length_nil] at hi
    have dead : ∀ j, Parent n arena j i → i < arena.length → i = a.ix ∨ i = b.ix → False := by
      intro j hp hil h
      have hin : i ∈ heap.map Key.ix := by
        rcases h with rfl | rfl
        · exact List.mem_map_of_mem hmema
        · exact List.mem_map_of_mem hmemb
      exact (hf.alive i hil).mp hin j hp
    rcases hj.of_append with h | ⟨rfl, _⟩ <;> rcases hj'.of_append with h' | ⟨rfl, _⟩
    · rcases Nat.lt_or_ge i arena.length with hil | hil
      · exact hf.one_parent i j j' hil h h'
      · exfalso
        obtain ⟨hnj, x, hx, h3⟩ := h
        have hjl : j < arena.length := (List.getElem?_eq_some_iff.mp hx).1
        obtain ⟨u, v, hm⟩ := hf.merged j hnj hjl
        rw [hm.node] at hx
        cases hx
        have := hm.a_lt
        have := hm.b_lt
        rcases h3 with h3 | h3
        · have := ofNat9_inj (by omega) (by omega) h3; omega
        · have := ofNat9_inj (by omega) (by omega) h3; omega
    · have h' := (hpar_new i (by omega)).mp hj'
      exact (dead j h (by rcases h' with rfl | rfl <;> assumption) h').elim
    · have h := (hpar_new i (by omega)).mp hj
      exact (dead j' h' (by rcases h with rfl | rfl <;> assumption) h).elim
    · rfl
  · -- total
    simp only [List.map_cons, List.sum_cons]
    rw [BitVec.toNat_add, Nat.mod_eq_of_lt hexact]
    omega

/-- The merges end with one node, the last one made, which is the root (R92). -/
theorem mergeForest_forest {n total : Nat} (hn : n ≤ 256) (ht : total < 2 ^ 40) (fuel : Nat) {arena : List Node}
    {heap : List Key} (hf : Forest n arena heap total) (hne : heap ≠ []) (hfuel : heap.length ≤ fuel + 1) :
    ∃ k, Forest n (mergeForest fuel arena heap) [k] total := by
  induction fuel generalizing arena heap with
  | zero =>
    cases heap with
    | nil => exact absurd rfl hne
    | cons k ks =>
      cases ks with
      | nil => exact ⟨k, hf⟩
      | cons => simp at hfuel
  | succ fuel ih =>
    simp only [mergeForest]
    split
    · rename_i h
      exact absurd (extractMin_eq_none.mp h) hne
    · rename_i a heap1 ha
      split
      · rename_i h
        have hp := extractMin_perm ha
        rw [extractMin_eq_none.mp h] at hp
        rw [List.perm_singleton.mp hp] at hf
        exact ⟨a, hf⟩
      · rename_i b heap2 hb
        have hlen := ((extractMin_perm ha).trans ((extractMin_perm hb).cons a)).length_eq
        simp only [List.length_cons] at hlen
        exact ih (hf.merge hn ht ha hb) (by simp) (by simp; omega)

/-- The leaves before the first merge: every one is without a parent. -/
theorem leafForest {leaves : List Node} {total : Nat}
    (hs : (leaves.map (fun nd => nd.freq.toNat)).sum = total) :
    Forest leaves.length leaves (leafKeys leaves) total := by
  have hget : ∀ i, (leafKeys leaves)[i]? = (leaves[i]?).map (fun nd => (⟨nd.freq, i⟩ : Key)) := by
    intro i
    by_cases h : i < leaves.length
    · simp [leafKeys, h]
    · simp [leafKeys, h]
  have hlen : (leafKeys leaves).length = leaves.length := by simp [leafKeys]
  have hix : (leafKeys leaves).map Key.ix = List.range leaves.length := by
    apply List.ext_getElem?
    intro i
    rw [List.getElem?_map, hget]
    by_cases h : i < leaves.length
    · simp [h]
    · simp [h]
  have hnoparent : ∀ j i, ¬ Parent leaves.length leaves j i := by
    rintro j i ⟨h1, x, h2, _⟩
    have := (List.getElem?_eq_some_iff.mp h2).1
    omega
  refine ⟨le_rfl, by omega, ?_, by rw [hix]; exact List.nodup_range, fun j h1 h2 => by omega, ?_, ?_, ?_⟩
  · intro k hk
    obtain ⟨i, hi⟩ := List.getElem?_of_mem hk
    rw [hget] at hi
    cases hl : leaves[i]? with
    | none => simp [hl] at hi
    | some nd =>
      simp only [hl, Option.map_some, Option.some.injEq] at hi
      subst hi
      exact ⟨nd, hl, rfl⟩
  · intro i hi
    rw [hix]
    exact ⟨fun _ j => hnoparent j i, fun _ => List.mem_range.mpr hi⟩
  · intro i j j' _ h _
    exact (hnoparent j i h).elim
  · rw [← hs]
    congr 1
    apply List.ext_getElem?
    intro i
    rw [List.getElem?_map, List.getElem?_map, hget]
    cases leaves[i]? <;> rfl

theorem mergeForest_prefix (fuel : Nat) (arena : List Node) (heap : List Key) (i : Nat) (h : i < arena.length) :
    (mergeForest fuel arena heap)[i]? = arena[i]? := by
  induction fuel generalizing arena heap with
  | zero => rfl
  | succ fuel ih =>
    simp only [mergeForest]
    split
    · rfl
    · split
      · rfl
      · rw [ih _ _ (by simp; omega), List.getElem?_append_left h]

end Sys2Proof.Machine
end

