-- ==== Sys2Proof/Laws/State.lean ====
section
/-! SUPPORT. One lemma per field per update of the state. -/

namespace Sys2Proof.Machine

/-! ### State.setOvr -/

@[simp] theorem State.setOvr_ie (s : State) : s.setOvr.ie = s.ie := rfl
@[simp] theorem State.setOvr_event (s : State) : s.setOvr.event = { s.event with ovr := true } := rfl
@[simp] theorem State.setOvr_err (s : State) : s.setOvr.err = s.err := rfl
@[simp] theorem State.setOvr_cmd (s : State) : s.setOvr.cmd = s.cmd := rfl
@[simp] theorem State.setOvr_ops (s : State) : s.setOvr.ops = s.ops := rfl
@[simp] theorem State.setOvr_out (s : State) : s.setOvr.out = s.out := rfl
@[simp] theorem State.setOvr_tree (s : State) : s.setOvr.tree = s.tree := rfl
@[simp] theorem State.setOvr_codes (s : State) : s.setOvr.codes = s.codes := rfl
@[simp] theorem State.setOvr_expset (s : State) : s.setOvr.expset = s.expset := rfl
@[simp] theorem State.setOvr_freq (s : State) : s.setOvr.freq = s.freq := rfl
@[simp] theorem State.setOvr_mem (s : State) : s.setOvr.mem = s.mem := rfl
@[simp] theorem State.setOvr_pend (s : State) : s.setOvr.pend = s.pend := rfl
@[simp] theorem State.setOvr_latency (s : State) : s.setOvr.latency = s.latency := rfl
@[simp] theorem State.setOvr_draws (s : State) : s.setOvr.draws = s.draws := rfl
@[simp] theorem State.setOvr_host (s : State) : s.setOvr.host = s.host := rfl
@[simp] theorem State.setOvr_reads (s : State) : s.setOvr.reads = s.reads := rfl

/-! ### State.accept -/

@[simp] theorem State.accept_ie (s : State) (v : Word) : (s.accept v).ie = s.ie := rfl
@[simp] theorem State.accept_event (s : State) (v : Word) : (s.accept v).event = s.event := rfl
@[simp] theorem State.accept_err (s : State) (v : Word) : (s.accept v).err = s.err := rfl
@[simp] theorem State.accept_cmd (s : State) (v : Word) : (s.accept v).cmd = v := rfl
@[simp] theorem State.accept_ops (s : State) (v : Word) : (s.accept v).ops = s.ops := rfl
@[simp] theorem State.accept_out (s : State) (v : Word) : (s.accept v).out = s.out := rfl
@[simp] theorem State.accept_tree (s : State) (v : Word) : (s.accept v).tree = s.tree := rfl
@[simp] theorem State.accept_codes (s : State) (v : Word) : (s.accept v).codes = s.codes := rfl
@[simp] theorem State.accept_expset (s : State) (v : Word) : (s.accept v).expset = s.expset := rfl
@[simp] theorem State.accept_freq (s : State) (v : Word) : (s.accept v).freq = s.freq := rfl
@[simp] theorem State.accept_mem (s : State) (v : Word) : (s.accept v).mem = s.mem := rfl
@[simp] theorem State.accept_pend (s : State) (v : Word) : (s.accept v).pend = some ⟨v, s.ops⟩ := rfl
@[simp] theorem State.accept_latency (s : State) (v : Word) : (s.accept v).latency = Config.latency s.draws := rfl
@[simp] theorem State.accept_draws (s : State) (v : Word) : (s.accept v).draws = s.draws + 1 := rfl
@[simp] theorem State.accept_host (s : State) (v : Word) : (s.accept v).host = s.host := rfl
@[simp] theorem State.accept_reads (s : State) (v : Word) : (s.accept v).reads = s.reads := rfl

/-! ### State.placeCommand -/

@[simp] theorem State.placeCommand_ie (s : State) (v : Word) : (s.placeCommand v).ie = s.ie := rfl
@[simp] theorem State.placeCommand_event (s : State) (v : Word) : (s.placeCommand v).event = s.event := rfl
@[simp] theorem State.placeCommand_err (s : State) (v : Word) : (s.placeCommand v).err = s.err := rfl
@[simp] theorem State.placeCommand_cmd (s : State) (v : Word) : (s.placeCommand v).cmd = v := rfl
@[simp] theorem State.placeCommand_ops (s : State) (v : Word) : (s.placeCommand v).ops = s.ops := rfl
@[simp] theorem State.placeCommand_out (s : State) (v : Word) : (s.placeCommand v).out = s.out := rfl
@[simp] theorem State.placeCommand_tree (s : State) (v : Word) : (s.placeCommand v).tree = s.tree := rfl
@[simp] theorem State.placeCommand_codes (s : State) (v : Word) : (s.placeCommand v).codes = s.codes := rfl
@[simp] theorem State.placeCommand_expset (s : State) (v : Word) : (s.placeCommand v).expset = s.expset := rfl
@[simp] theorem State.placeCommand_freq (s : State) (v : Word) : (s.placeCommand v).freq = s.freq := rfl
@[simp] theorem State.placeCommand_mem (s : State) (v : Word) : (s.placeCommand v).mem = s.mem := rfl
@[simp] theorem State.placeCommand_pend (s : State) (v : Word) : (s.placeCommand v).pend = some ⟨v, s.ops⟩ := rfl
@[simp] theorem State.placeCommand_latency (s : State) (v : Word) : (s.placeCommand v).latency = 0 := rfl
@[simp] theorem State.placeCommand_draws (s : State) (v : Word) : (s.placeCommand v).draws = s.draws := rfl
@[simp] theorem State.placeCommand_host (s : State) (v : Word) : (s.placeCommand v).host = s.host := rfl
@[simp] theorem State.placeCommand_reads (s : State) (v : Word) : (s.placeCommand v).reads = s.reads := rfl

/-! ### State.succeed -/

@[simp] theorem State.succeed_ie (s : State) : s.succeed.ie = s.ie := rfl
@[simp] theorem State.succeed_event (s : State) : s.succeed.event = { s.event with done := true } := rfl
@[simp] theorem State.succeed_err (s : State) : s.succeed.err = ⟨.ok, 0⟩ := rfl
@[simp] theorem State.succeed_cmd (s : State) : s.succeed.cmd = s.cmd := rfl
@[simp] theorem State.succeed_ops (s : State) : s.succeed.ops = s.ops := rfl
@[simp] theorem State.succeed_out (s : State) : s.succeed.out = s.out := rfl
@[simp] theorem State.succeed_tree (s : State) : s.succeed.tree = s.tree := rfl
@[simp] theorem State.succeed_codes (s : State) : s.succeed.codes = s.codes := rfl
@[simp] theorem State.succeed_expset (s : State) : s.succeed.expset = s.expset := rfl
@[simp] theorem State.succeed_freq (s : State) : s.succeed.freq = s.freq := rfl
@[simp] theorem State.succeed_mem (s : State) : s.succeed.mem = s.mem := rfl
@[simp] theorem State.succeed_pend (s : State) : s.succeed.pend = none := rfl
@[simp] theorem State.succeed_latency (s : State) : s.succeed.latency = 0 := rfl
@[simp] theorem State.succeed_draws (s : State) : s.succeed.draws = s.draws := rfl
@[simp] theorem State.succeed_host (s : State) : s.succeed.host = s.host := rfl
@[simp] theorem State.succeed_reads (s : State) : s.succeed.reads = s.reads := rfl

/-! ### State.failWith -/

@[simp] theorem State.failWith_ie (s : State) (z : Bool) (e : ErrReport) : (s.failWith z e).ie = s.ie := rfl
@[simp] theorem State.failWith_event (s : State) (z : Bool) (e : ErrReport) : (s.failWith z e).event = { s.event with err := true } := rfl
@[simp] theorem State.failWith_err (s : State) (z : Bool) (e : ErrReport) : (s.failWith z e).err = e := rfl
@[simp] theorem State.failWith_cmd (s : State) (z : Bool) (e : ErrReport) : (s.failWith z e).cmd = s.cmd := rfl
@[simp] theorem State.failWith_ops (s : State) (z : Bool) (e : ErrReport) : (s.failWith z e).ops = s.ops := rfl
@[simp] theorem State.failWith_out (s : State) (z : Bool) (e : ErrReport) : (s.failWith z e).out = if z then ⟨0, 0⟩ else s.out := rfl
@[simp] theorem State.failWith_tree (s : State) (z : Bool) (e : ErrReport) : (s.failWith z e).tree = s.tree := rfl
@[simp] theorem State.failWith_codes (s : State) (z : Bool) (e : ErrReport) : (s.failWith z e).codes = s.codes := rfl
@[simp] theorem State.failWith_expset (s : State) (z : Bool) (e : ErrReport) : (s.failWith z e).expset = s.expset := rfl
@[simp] theorem State.failWith_freq (s : State) (z : Bool) (e : ErrReport) : (s.failWith z e).freq = s.freq := rfl
@[simp] theorem State.failWith_mem (s : State) (z : Bool) (e : ErrReport) : (s.failWith z e).mem = s.mem := rfl
@[simp] theorem State.failWith_pend (s : State) (z : Bool) (e : ErrReport) : (s.failWith z e).pend = none := rfl
@[simp] theorem State.failWith_latency (s : State) (z : Bool) (e : ErrReport) : (s.failWith z e).latency = 0 := rfl
@[simp] theorem State.failWith_draws (s : State) (z : Bool) (e : ErrReport) : (s.failWith z e).draws = s.draws := rfl
@[simp] theorem State.failWith_host (s : State) (z : Bool) (e : ErrReport) : (s.failWith z e).host = s.host := rfl
@[simp] theorem State.failWith_reads (s : State) (z : Bool) (e : ErrReport) : (s.failWith z e).reads = s.reads := rfl

/-! ### State.softReset -/

@[simp] theorem State.softReset_ie (s : State) : s.softReset.ie = false := rfl
@[simp] theorem State.softReset_event (s : State) : s.softReset.event = ⟨false, false, false⟩ := rfl
@[simp] theorem State.softReset_err (s : State) : s.softReset.err = ⟨.ok, 0⟩ := rfl
@[simp] theorem State.softReset_cmd (s : State) : s.softReset.cmd = 0 := rfl
@[simp] theorem State.softReset_ops (s : State) : s.softReset.ops = ⟨0, 0, 0, 0⟩ := rfl
@[simp] theorem State.softReset_out (s : State) : s.softReset.out = ⟨0, 0⟩ := rfl
@[simp] theorem State.softReset_tree (s : State) : s.softReset.tree = Tree.empty := rfl
@[simp] theorem State.softReset_codes (s : State) : s.softReset.codes = Codes.empty := rfl
@[simp] theorem State.softReset_expset (s : State) : s.softReset.expset = 0 := rfl
@[simp] theorem State.softReset_freq (s : State) : s.softReset.freq = FreqTable.empty := rfl
@[simp] theorem State.softReset_mem (s : State) : s.softReset.mem = s.mem := rfl
@[simp] theorem State.softReset_pend (s : State) : s.softReset.pend = none := rfl
@[simp] theorem State.softReset_latency (s : State) : s.softReset.latency = 0 := rfl
@[simp] theorem State.softReset_draws (s : State) : s.softReset.draws = s.draws := rfl
@[simp] theorem State.softReset_host (s : State) : s.softReset.host = s.host := rfl
@[simp] theorem State.softReset_reads (s : State) : s.softReset.reads = s.reads := rfl

/-! ### State.powerOnReset -/

@[simp] theorem State.powerOnReset_ie (s : State) : s.powerOnReset.ie = false := rfl
@[simp] theorem State.powerOnReset_event (s : State) : s.powerOnReset.event = ⟨false, false, false⟩ := rfl
@[simp] theorem State.powerOnReset_err (s : State) : s.powerOnReset.err = ⟨.ok, 0⟩ := rfl
@[simp] theorem State.powerOnReset_cmd (s : State) : s.powerOnReset.cmd = 0 := rfl
@[simp] theorem State.powerOnReset_ops (s : State) : s.powerOnReset.ops = ⟨0, 0, 0, 0⟩ := rfl
@[simp] theorem State.powerOnReset_out (s : State) : s.powerOnReset.out = ⟨0, 0⟩ := rfl
@[simp] theorem State.powerOnReset_tree (s : State) : s.powerOnReset.tree = Tree.empty := rfl
@[simp] theorem State.powerOnReset_codes (s : State) : s.powerOnReset.codes = Codes.empty := rfl
@[simp] theorem State.powerOnReset_expset (s : State) : s.powerOnReset.expset = 0 := rfl
@[simp] theorem State.powerOnReset_freq (s : State) : s.powerOnReset.freq = FreqTable.empty := rfl
@[simp] theorem State.powerOnReset_mem (s : State) : s.powerOnReset.mem = s.mem := rfl
@[simp] theorem State.powerOnReset_pend (s : State) : s.powerOnReset.pend = none := rfl
@[simp] theorem State.powerOnReset_latency (s : State) : s.powerOnReset.latency = 0 := rfl
@[simp] theorem State.powerOnReset_draws (s : State) : s.powerOnReset.draws = s.draws := rfl
@[simp] theorem State.powerOnReset_host (s : State) : s.powerOnReset.host = s.host := rfl
@[simp] theorem State.powerOnReset_reads (s : State) : s.powerOnReset.reads = s.reads := rfl

/-! ### State.hostAdvance -/

@[simp] theorem State.hostAdvance_ie (s : State) (rest : List HostOp) : (s.hostAdvance rest).ie = s.ie := rfl
@[simp] theorem State.hostAdvance_event (s : State) (rest : List HostOp) : (s.hostAdvance rest).event = s.event := rfl
@[simp] theorem State.hostAdvance_err (s : State) (rest : List HostOp) : (s.hostAdvance rest).err = s.err := rfl
@[simp] theorem State.hostAdvance_cmd (s : State) (rest : List HostOp) : (s.hostAdvance rest).cmd = s.cmd := rfl
@[simp] theorem State.hostAdvance_ops (s : State) (rest : List HostOp) : (s.hostAdvance rest).ops = s.ops := rfl
@[simp] theorem State.hostAdvance_out (s : State) (rest : List HostOp) : (s.hostAdvance rest).out = s.out := rfl
@[simp] theorem State.hostAdvance_tree (s : State) (rest : List HostOp) : (s.hostAdvance rest).tree = s.tree := rfl
@[simp] theorem State.hostAdvance_codes (s : State) (rest : List HostOp) : (s.hostAdvance rest).codes = s.codes := rfl
@[simp] theorem State.hostAdvance_expset (s : State) (rest : List HostOp) : (s.hostAdvance rest).expset = s.expset := rfl
@[simp] theorem State.hostAdvance_freq (s : State) (rest : List HostOp) : (s.hostAdvance rest).freq = s.freq := rfl
@[simp] theorem State.hostAdvance_mem (s : State) (rest : List HostOp) : (s.hostAdvance rest).mem = s.mem := rfl
@[simp] theorem State.hostAdvance_pend (s : State) (rest : List HostOp) : (s.hostAdvance rest).pend = s.pend := rfl
@[simp] theorem State.hostAdvance_latency (s : State) (rest : List HostOp) : (s.hostAdvance rest).latency = s.latency - 1 := rfl
@[simp] theorem State.hostAdvance_draws (s : State) (rest : List HostOp) : (s.hostAdvance rest).draws = s.draws := rfl
@[simp] theorem State.hostAdvance_host (s : State) (rest : List HostOp) : (s.hostAdvance rest).host = rest := rfl
@[simp] theorem State.hostAdvance_reads (s : State) (rest : List HostOp) : (s.hostAdvance rest).reads = s.reads := rfl

/-! ### State.record -/

@[simp] theorem State.record_ie (s : State) (off : BitVec 21) (v : Word) (x : Option Word) : (s.record off v x).ie = s.ie := rfl
@[simp] theorem State.record_event (s : State) (off : BitVec 21) (v : Word) (x : Option Word) : (s.record off v x).event = s.event := rfl
@[simp] theorem State.record_err (s : State) (off : BitVec 21) (v : Word) (x : Option Word) : (s.record off v x).err = s.err := rfl
@[simp] theorem State.record_cmd (s : State) (off : BitVec 21) (v : Word) (x : Option Word) : (s.record off v x).cmd = s.cmd := rfl
@[simp] theorem State.record_ops (s : State) (off : BitVec 21) (v : Word) (x : Option Word) : (s.record off v x).ops = s.ops := rfl
@[simp] theorem State.record_out (s : State) (off : BitVec 21) (v : Word) (x : Option Word) : (s.record off v x).out = s.out := rfl
@[simp] theorem State.record_tree (s : State) (off : BitVec 21) (v : Word) (x : Option Word) : (s.record off v x).tree = s.tree := rfl
@[simp] theorem State.record_codes (s : State) (off : BitVec 21) (v : Word) (x : Option Word) : (s.record off v x).codes = s.codes := rfl
@[simp] theorem State.record_expset (s : State) (off : BitVec 21) (v : Word) (x : Option Word) : (s.record off v x).expset = s.expset := rfl
@[simp] theorem State.record_freq (s : State) (off : BitVec 21) (v : Word) (x : Option Word) : (s.record off v x).freq = s.freq := rfl
@[simp] theorem State.record_mem (s : State) (off : BitVec 21) (v : Word) (x : Option Word) : (s.record off v x).mem = s.mem := rfl
@[simp] theorem State.record_pend (s : State) (off : BitVec 21) (v : Word) (x : Option Word) : (s.record off v x).pend = s.pend := rfl
@[simp] theorem State.record_latency (s : State) (off : BitVec 21) (v : Word) (x : Option Word) : (s.record off v x).latency = s.latency := rfl
@[simp] theorem State.record_draws (s : State) (off : BitVec 21) (v : Word) (x : Option Word) : (s.record off v x).draws = s.draws := rfl
@[simp] theorem State.record_host (s : State) (off : BitVec 21) (v : Word) (x : Option Word) : (s.record off v x).host = s.host := rfl
@[simp] theorem State.record_reads (s : State) (off : BitVec 21) (v : Word) (x : Option Word) : (s.record off v x).reads = ⟨off, v, x⟩ :: s.reads := rfl

end Sys2Proof.Machine
end

