-- ==== Sys2Proof/Laws/Memory.lean ====
section
/-! SUPPORT. DMEM: a read after a write, the bytes a store leaves alone, and the canonical form every store keeps. -/

namespace Sys2Proof.Machine

@[simp] theorem Memory.write_size (m : Memory) (a : Nat) (v : Byte) : (m.write a v).size = m.size := rfl
@[simp] theorem Memory.write_draw (m : Memory) (a : Nat) (v : Byte) : (m.write a v).draw = m.draw := rfl
@[simp] theorem Memory.write_unlisted (m : Memory) (a : Nat) (v : Byte) (x : Nat) :
    (m.write a v).unlisted x = m.unlisted x := rfl

@[simp] theorem Memory.writeBytes_size (m : Memory) (a : Nat) (vs : List Byte) : (m.writeBytes a vs).size = m.size := by
  induction vs generalizing m a with
  | nil => rfl
  | cons v vs ih => exact ih (m.write a v) (a + 1)

@[simp] theorem Memory.writeBytes_draw (m : Memory) (a : Nat) (vs : List Byte) : (m.writeBytes a vs).draw = m.draw := by
  induction vs generalizing m a with
  | nil => rfl
  | cons v vs ih => exact ih (m.write a v) (a + 1)

@[simp] theorem Memory.writeWord_size (m : Memory) (a : Nat) (v : Word) : (m.writeWord a v).size = m.size :=
  Memory.writeBytes_size _ _ _

@[simp] theorem Memory.writeWord_draw (m : Memory) (a : Nat) (v : Word) : (m.writeWord a v).draw = m.draw :=
  Memory.writeBytes_draw _ _ _

/-! ### Lists of cells -/

/-- Addresses rise strictly. -/
abbrev Rising (cs : List Host.Cell) : Prop := cs.Pairwise (fun x y => x.1 < y.1)

theorem cellGet_eq_none_of_lt {cs : List Host.Cell} {a : Nat} (h : ∀ c ∈ cs, a < c.1) : cellGet cs a = none := by
  induction cs with
  | nil => rfl
  | cons c cs ih =>
    have hc := h c (by simp)
    simp only [cellGet]
    rw [if_neg (by omega)]
    exact ih (fun d hd => h d (by simp [hd]))

theorem mem_cellErase {cs : List Host.Cell} {a : Nat} {c : Host.Cell} (h : c ∈ cellErase cs a) : c ∈ cs := by
  induction cs with
  | nil => exact h
  | cons d cs ih =>
    simp only [cellErase] at h
    split at h
    · exact List.mem_cons_of_mem _ h
    · rcases List.mem_cons.mp h with h | h
      · simp [h]
      · exact List.mem_cons_of_mem _ (ih h)

theorem mem_cellInsert {cs : List Host.Cell} {a : Nat} {v : Byte} {c : Host.Cell} (h : c ∈ cellInsert cs a v) :
    c = (a, v) ∨ c ∈ cs := by
  induction cs with
  | nil => simpa [cellInsert] using h
  | cons d cs ih =>
    simp only [cellInsert] at h
    split at h
    · simpa using h
    · split at h
      · rcases List.mem_cons.mp h with h | h
        · exact .inl h
        · exact .inr (List.mem_cons_of_mem _ h)
      · rcases List.mem_cons.mp h with h | h
        · exact .inr (by simp [h])
        · exact (ih h).imp_right (List.mem_cons_of_mem _)

theorem cellErase_rising {cs : List Host.Cell} (h : Rising cs) (a : Nat) : Rising (cellErase cs a) := by
  induction cs with
  | nil => exact h
  | cons d cs ih =>
    obtain ⟨h1, h2⟩ := List.pairwise_cons.mp h
    simp only [cellErase]
    split
    · exact h2
    · exact List.pairwise_cons.mpr ⟨fun c hc => h1 c (mem_cellErase hc), ih h2⟩

theorem cellInsert_rising {cs : List Host.Cell} (h : Rising cs) (a : Nat) (v : Byte) : Rising (cellInsert cs a v) := by
  induction cs with
  | nil => simp [cellInsert, Rising]
  | cons d cs ih =>
    obtain ⟨h1, h2⟩ := List.pairwise_cons.mp h
    simp only [cellInsert]
    split
    · rename_i hlt
      refine List.pairwise_cons.mpr ⟨fun c hc => ?_, h⟩
      rcases List.mem_cons.mp hc with hc | hc
      · simpa [hc] using hlt
      · exact lt_trans hlt (h1 c hc)
    · split
      · rename_i heq
        exact List.pairwise_cons.mpr ⟨fun c hc => by simpa [heq] using h1 c hc, h2⟩
      · rename_i hnlt hne
        refine List.pairwise_cons.mpr ⟨fun c hc => ?_, ih h2⟩
        rcases mem_cellInsert hc with hc | hc
        · simp only [hc]; omega
        · exact h1 c hc

theorem cellGet_cellErase_same {cs : List Host.Cell} (h : Rising cs) (a : Nat) : cellGet (cellErase cs a) a = none := by
  induction cs with
  | nil => rfl
  | cons d cs ih =>
    obtain ⟨h1, h2⟩ := List.pairwise_cons.mp h
    simp only [cellErase]
    split
    · rename_i heq
      exact cellGet_eq_none_of_lt (fun c hc => by simpa [heq] using h1 c hc)
    · rename_i hne
      simp only [cellGet, if_neg hne]
      exact ih h2

theorem cellGet_cellErase_other (cs : List Host.Cell) {a x : Nat} (h : x ≠ a) :
    cellGet (cellErase cs a) x = cellGet cs x := by
  induction cs with
  | nil => rfl
  | cons d cs ih =>
    simp only [cellErase]
    split
    · rename_i heq
      simp only [cellGet]
      rw [if_neg (by omega)]
    · simp only [cellGet, ih]

theorem cellGet_cellInsert_same (cs : List Host.Cell) (a : Nat) (v : Byte) : cellGet (cellInsert cs a v) a = some v := by
  induction cs with
  | nil => simp [cellInsert, cellGet]
  | cons d cs ih =>
    simp only [cellInsert]
    split
    · simp [cellGet]
    · split
      · simp [cellGet]
      · simp only [cellGet]
        rw [if_neg (by omega), ih]

theorem cellGet_cellInsert_other (cs : List Host.Cell) {a x : Nat} (v : Byte) (h : x ≠ a) :
    cellGet (cellInsert cs a v) x = cellGet cs x := by
  induction cs with
  | nil => simp [cellInsert, cellGet, Ne.symm h]
  | cons d cs ih =>
    simp only [cellInsert]
    split
    · simp only [cellGet, if_neg (Ne.symm h)]
    · split
      · rename_i heq
        simp only [cellGet]
        rw [if_neg (Ne.symm h), if_neg (by omega)]
      · simp only [cellGet, ih]

/-! ### Reads and writes -/

/-- A byte reads as it was last written (R50, R60). -/
theorem Memory.read_write_same {m : Memory} (h : Rising m.cells) (a : Nat) (v : Byte) : (m.write a v).read a = v := by
  simp only [Memory.read, Memory.write]
  split
  · rename_i hv
    rw [cellGet_cellErase_same h, hv]
    rfl
  · rw [cellGet_cellInsert_same]
    rfl

/-- A write leaves every other byte alone (R50, R60). -/
theorem Memory.read_write_other (m : Memory) {a x : Nat} (v : Byte) (h : x ≠ a) : (m.write a v).read x = m.read x := by
  simp only [Memory.read, Memory.write]
  split
  · rw [cellGet_cellErase_other _ h]
    rfl
  · rw [cellGet_cellInsert_other _ _ h]
    rfl

theorem Memory.write_rising {m : Memory} (h : Rising m.cells) (a : Nat) (v : Byte) : Rising (m.write a v).cells := by
  simp only [Memory.write]
  split
  · exact cellErase_rising h a
  · exact cellInsert_rising h a v

theorem Memory.writeBytes_rising {m : Memory} (h : Rising m.cells) (a : Nat) (vs : List Byte) :
    Rising (m.writeBytes a vs).cells := by
  induction vs generalizing m a with
  | nil => exact h
  | cons v vs ih => exact ih (Memory.write_rising h a v) (a + 1)

/-- The bytes outside a store's range read as before (R56). -/
theorem Memory.read_writeBytes_outside (m : Memory) {a x : Nat} (vs : List Byte) (h : x < a ∨ a + vs.length ≤ x) :
    (m.writeBytes a vs).read x = m.read x := by
  induction vs generalizing m a with
  | nil => rfl
  | cons v vs ih =>
    simp only [List.length_cons] at h
    simp only [Memory.writeBytes]
    rw [ih (m.write a v) (by omega), Memory.read_write_other m v (by omega)]

/-- Byte `k` of a store reads back (R56). -/
theorem Memory.read_writeBytes_inside {m : Memory} (h : Rising m.cells) (a : Nat) (vs : List Byte) (k : Nat)
    (hk : k < vs.length) : (m.writeBytes a vs).read (a + k) = vs[k] := by
  induction vs generalizing m a k with
  | nil => simp at hk
  | cons v vs ih =>
    simp only [Memory.writeBytes]
    cases k with
    | zero =>
      rw [Memory.read_writeBytes_outside _ vs (by omega)]
      exact Memory.read_write_same h a v
    | succ k =>
      have := ih (Memory.write_rising h a v) (a + 1) k (by simpa using hk)
      rw [show a + (k + 1) = a + 1 + k by omega, this]
      rfl

/-! ### The canonical form -/

/-- What `Memory.wf` says. -/
theorem Memory.wf_iff (m : Memory) :
    m.wf = true ↔ Rising m.cells ∧ ∀ c ∈ m.cells, c.1 < m.size ∧ c.2 ≠ m.unlisted c.1 := by
  simp [Memory.wf, Rising, List.all_eq_true]

theorem Memory.wf_rising {m : Memory} (h : m.wf = true) : Rising m.cells := ((m.wf_iff).mp h).1

/-- A write inside DMEM keeps the canonical form. -/
theorem Memory.write_wf {m : Memory} (h : m.wf = true) {a : Nat} (v : Byte) (ha : a < m.size) :
    (m.write a v).wf = true := by
  obtain ⟨h1, h2⟩ := (m.wf_iff).mp h
  refine ((m.write a v).wf_iff).mpr ⟨Memory.write_rising h1 a v, fun c hc => ?_⟩
  simp only [Memory.write_size, Memory.write_unlisted]
  simp only [Memory.write] at hc
  split at hc
  · exact h2 c (mem_cellErase hc)
  · rename_i hv
    rcases mem_cellInsert hc with hc | hc
    · simp only [hc]; exact ⟨ha, hv⟩
    · exact h2 c hc

/-- A store inside DMEM keeps the canonical form. -/
theorem Memory.writeBytes_wf {m : Memory} (h : m.wf = true) {a : Nat} (vs : List Byte) (ha : a + vs.length ≤ m.size) :
    (m.writeBytes a vs).wf = true := by
  induction vs generalizing m a with
  | nil => exact h
  | cons v vs ih =>
    simp only [List.length_cons] at ha
    exact ih (Memory.write_wf h v (by omega)) (by simp only [Memory.write_size]; omega)

/-- A host word's store inside DMEM keeps the canonical form (R51). -/
theorem Memory.writeWord_wf {m : Memory} (h : m.wf = true) {a : Nat} (v : Word) (ha : a + 4 ≤ m.size) :
    (m.writeWord a v).wf = true := Memory.writeBytes_wf h _ (by simpa using ha)

/-- In canonical form, equal contents are equal data. -/
theorem Memory.eq_of_read_eq {m m' : Memory} (h : m.wf = true) (h' : m'.wf = true) (hs : m.size = m'.size)
    (hd : m.draw = m'.draw) (hr : ∀ a, m.read a = m'.read a) : m = m' := by
  have key : ∀ (cs ds : List Host.Cell), Rising cs → Rising ds → (∀ c ∈ cs, c.2 ≠ m.unlisted c.1) →
      (∀ c ∈ ds, c.2 ≠ m.unlisted c.1) →
      (∀ a, (cellGet cs a).getD (m.unlisted a) = (cellGet ds a).getD (m.unlisted a)) → cs = ds := by
    intro cs
    induction cs with
    | nil =>
      intro ds _ hd _ hn hg
      cases ds with
      | nil => rfl
      | cons d ds =>
        have := hg d.1
        simp only [cellGet] at this
        exact absurd (by simpa using this.symm) (hn d (by simp))
    | cons c cs ih =>
      intro ds hcs hds hnc hnd hg
      obtain ⟨hc1, hc2⟩ := List.pairwise_cons.mp hcs
      cases ds with
      | nil =>
        have := hg c.1
        simp only [cellGet] at this
        exact absurd (by simpa using this) (hnc c (by simp))
      | cons d ds =>
        obtain ⟨hd1, hd2⟩ := List.pairwise_cons.mp hds
        have hcd : c.1 = d.1 := by
          rcases Nat.lt_trichotomy c.1 d.1 with hlt | heq | hgt
          · have := hg c.1
            rw [cellGet_eq_none_of_lt (cs := d :: ds) (a := c.1)] at this
            · simp only [cellGet] at this
              exact absurd (by simpa using this) (hnc c (by simp))
            · intro e he
              rcases List.mem_cons.mp he with he | he
              · simpa [he] using hlt
              · exact lt_trans hlt (hd1 e he)
          · exact heq
          · have := hg d.1
            rw [cellGet_eq_none_of_lt (cs := c :: cs) (a := d.1)] at this
            · simp only [cellGet] at this
              exact absurd (by simpa using this.symm) (hnd d (by simp))
            · intro e he
              rcases List.mem_cons.mp he with he | he
              · simpa [he] using hgt
              · exact lt_trans hgt (hc1 e he)
        have hv : c.2 = d.2 := by
          have := hg c.1
          simpa [cellGet, hcd] using this
        have htl : cs = ds := by
          refine ih ds hc2 hd2 (fun e he => hnc e (by simp [he])) (fun e he => hnd e (by simp [he])) (fun a => ?_)
          by_cases ha : c.1 = a
          · rw [cellGet_eq_none_of_lt (fun e he => by rw [← ha]; exact hc1 e he),
              cellGet_eq_none_of_lt (fun e he => by rw [← ha, hcd]; exact hd1 e he)]
          · have := hg a
            simp only [cellGet, if_neg ha, if_neg (hcd ▸ ha)] at this
            exact this
        rw [htl, show c = d from Prod.ext hcd hv]
  obtain ⟨h1, h2⟩ := (m.wf_iff).mp h
  obtain ⟨h1', h2'⟩ := (m'.wf_iff).mp h'
  have hun : ∀ a, m'.unlisted a = m.unlisted a := fun a => by simp [Memory.unlisted, hd]
  have hcells : m.cells = m'.cells := by
    refine key _ _ h1 h1' (fun c hc => (h2 c hc).2) (fun c hc => ?_) (fun a => ?_)
    · rw [← hun]; exact (h2' c hc).2
    · have := hr a
      simpa only [Memory.read, hun] using this
  cases m
  cases m'
  simp_all

end Sys2Proof.Machine
end

