-- ==== Sys2Proof/Laws/Step.lean ====
section
/-! SUPPORT. Everything a command, a host statement and a step can do, said once: later proofs cite these inversion lemmas
and do not unfold the machine again. -/

namespace Sys2Proof.Machine

/-! ## Completion -/

/-- With a command pending, a command's step is its completion. -/
theorem State.runPending_some {s : State} {p : Pend} (h : s.pend = some p) (z : Bool) (f : Pend → CmdResult) :
    s.runPending z f = s.complete z (f p) := by
  simp [State.runPending, h]

/-- Everything a command's step can do when it answers a next state. -/
theorem State.runPending_next {s t : State} {z : Bool} {f : Pend → CmdResult} (h : s.runPending z f = .next t) :
    (s.pend = none ∧ t = s) ∨
      ∃ p, s.pend = some p ∧ ((∃ u, f p = .done u ∧ t = u.succeed) ∨ (∃ e, f p = .fail e ∧ t = s.failWith z e)) := by
  unfold State.runPending at h
  split at h
  · rename_i hp
    exact .inl ⟨hp, by simpa using h.symm⟩
  · rename_i p hp
    refine .inr ⟨p, hp, ?_⟩
    cases hf : f p with
    | done u => exact .inl ⟨u, rfl, by simpa [State.complete, hf] using h.symm⟩
    | fail e => exact .inr ⟨e, rfl, by simpa [State.complete, hf] using h.symm⟩
    | hang => simp [State.complete, hf] at h

/-! ## What each command can write -/

theorem countCommand_done {acc : Bool} {s u : State} {p : Pend} (h : countCommand acc s p = .done u) :
    s.mem.rangeOk p.ops.src.toNat p.ops.len.toNat = true ∧
      ∃ f, countBytes (p.ops.inputBytes s.mem) (if acc then s.freq else FreqTable.empty) = .ok f ∧
        u = { s with freq := f } := by
  unfold countCommand at h
  split at h
  · rename_i hr
    split at h
    · rename_i f hf
      exact ⟨hr, f, hf, by simpa using h.symm⟩
    · cases h
  · cases h

theorem buildCommand_done {s u : State} {p : Pend} (h : buildCommand s p = .done u) :
    presentSymbols s.freq ≠ [] ∧ u = { s with tree := buildTree s.freq, codes := Codes.empty } := by
  unfold buildCommand at h
  split at h
  · cases h
  · rename_i hn
    exact ⟨hn, by simpa using h.symm⟩

theorem gencodeCommand_done {s u : State} {p : Pend} (h : gencodeCommand s p = .done u) :
    s.tree.valid = true ∧ ∃ xs, leafCodes s.tree.node 512 s.tree.root 0 0 = some xs ∧
      u = { s with codes := ⟨true, maxCodeLen (codeTableOf xs), codeTableOf xs⟩ } := by
  unfold gencodeCommand at h
  split at h
  · rename_i hv
    split at h
    · rename_i xs hx
      exact ⟨hv, xs, hx, by simpa using h.symm⟩
    · cases h
  · cases h

theorem encodeCommand_done {s u : State} {p : Pend} (h : encodeCommand s p = .done u) :
    s.codes.valid = true ∧ s.mem.rangeOk p.ops.src.toNat p.ops.len.toNat = true ∧ p.ops.len ≠ 0 ∧
      ∃ bits, encodeBits s.codes.entry 0 (p.ops.inputBytes s.mem) = .ok bits ∧
        s.mem.rangeOk p.ops.dst.toNat (ceil8 bits.length) = true ∧
        u = { s with
          mem := s.mem.writeBytes p.ops.dst.toNat (pack bits)
          out := ⟨BitVec.ofNat 32 (ceil8 bits.length), BitVec.ofNat 32 bits.length⟩ } := by
  unfold encodeCommand at h
  split at h
  · rename_i hv
    split at h
    · rename_i hr
      split at h
      · cases h
      · rename_i hl
        split at h
        · cases h
        · rename_i bits hb
          split at h
          · rename_i hd
            exact ⟨hv, hr, hl, bits, hb, hd, by simpa using h.symm⟩
          · cases h
    · cases h
  · cases h

theorem decodeStream_done {s u : State} {p : Pend} (h : decodeStream s p = .done u) :
    p.ops.len.toNat = ceil8 p.ops.bits.toNat ∧ s.mem.rangeOk p.ops.src.toNat p.ops.len.toNat = true ∧
      ∃ out, walk s.tree s.mem.size p.ops.dst.toNat (p.ops.stream s.mem) 0 0 s.tree.root 0 = .ok out ∧
        u = { s with
          mem := s.mem.writeBytes p.ops.dst.toNat out
          out := ⟨BitVec.ofNat 32 out.length, p.ops.bits⟩ } := by
  unfold decodeStream at h
  split at h
  · rename_i hl
    split at h
    · rename_i hr
      split at h
      · cases h
      · rename_i out ho
        exact ⟨hl, hr, out, ho, by simpa using h.symm⟩
    · cases h
  · cases h

theorem decodeCommand_done {chk : Bool} {s u : State} {p : Pend} (h : decodeCommand chk s p = .done u) :
    s.tree.valid = true ∧ (chk = true → leastDifference s.tree.leafset s.expset = none) ∧ decodeStream s p = .done u := by
  unfold decodeCommand at h
  split at h
  · rename_i hv
    split at h
    · cases h
    · rename_i hk
      refine ⟨hv, fun hc => ?_, h⟩
      simpa [hc] using hk
  · cases h

/-- Every byte the walk emits fits below DMEM_SIZE (R116, the ADDRESS_RANGE check of the walk). -/
theorem walk_length {t : Tree} {size dst : Nat} {bs : List Bool} {i n d : Nat} {pos : NodeIx} {out : List Byte}
    (h : walk t size dst bs i n pos d = .ok out) : out = [] ∨ dst + n + out.length ≤ size := by
  induction bs generalizing i n pos d out with
  | nil =>
    simp only [walk] at h
    split at h
    · cases h; exact .inl rfl
    · cases h
  | cons b bs ih =>
    simp only [walk] at h
    split at h
    · cases h
    · split at h
      · split at h
        · cases h
        · rename_i hr
          split at h
          · rename_i o ho
            cases h
            rcases ih ho with h0 | h0
            · subst h0; right; simp only [List.length_cons, List.length_nil]; omega
            · right; simp only [List.length_cons]; omega
          · cases h
      · exact ih h

theorem packBytes_length (n : Nat) (bits : List Bool) : (packBytes n bits).length = n := by
  induction n generalizing bits with
  | zero => rfl
  | succ n ih => simp [packBytes, ih]

@[simp] theorem pack_length (bits : List Bool) : (pack bits).length = ceil8 bits.length := packBytes_length _ _

/-- Which commands set OUT_LEN and OUT_BITS to 0 when they fail: "if c is ENCODE or DECODE" (R77). -/
def isCodec : Instr → Bool
  | .encode | .decode | .decodeChk => true
  | .nop | .clrf | .count | .countAcc | .build | .gencode => false

/-- Everything a pending command can do when it answers a next state: it fails and changes only the error report (R78), or it
succeeds and writes what its family writes, the rest standing as it was. -/
theorem exec_next {i : Instr} {s t : State} {p : Pend} (hp : s.pend = some p) (h : exec i s = .next t) :
    (∃ e, t = s.failWith (isCodec i) e) ∨
      ∃ f tr c m o, t = State.succeed { s with freq := f, tree := tr, codes := c, mem := m, out := o } ∧
        (i ≠ .clrf → i ≠ .count → i ≠ .countAcc → f = s.freq) ∧
        (i ≠ .build → tr = s.tree) ∧
        (i ≠ .build → i ≠ .gencode → c = s.codes) ∧
        (isCodec i = false → m = s.mem ∧ o = s.out) := by
  cases i
  case nop =>
    rcases State.runPending_next h with ⟨h0, _⟩ | ⟨q, hq, ⟨u, hu, ht⟩ | ⟨e, _, ht⟩⟩
    · simp [hp] at h0
    · cases hu
      exact .inr ⟨s.freq, s.tree, s.codes, s.mem, s.out, ht, by simp, by simp, by simp, by simp⟩
    · exact .inl ⟨e, ht⟩
  case clrf =>
    rcases State.runPending_next h with ⟨h0, _⟩ | ⟨q, hq, ⟨u, hu, ht⟩ | ⟨e, _, ht⟩⟩
    · simp [hp] at h0
    · cases hu
      exact .inr ⟨_, s.tree, s.codes, s.mem, s.out, ht, by simp, by simp, by simp, by simp⟩
    · exact .inl ⟨e, ht⟩
  case count =>
    rcases State.runPending_next h with ⟨h0, _⟩ | ⟨q, hq, ⟨u, hu, ht⟩ | ⟨e, _, ht⟩⟩
    · simp [hp] at h0
    · obtain ⟨_, f, _, rfl⟩ := countCommand_done hu
      exact .inr ⟨f, s.tree, s.codes, s.mem, s.out, ht, by simp, by simp, by simp, by simp⟩
    · exact .inl ⟨e, ht⟩
  case countAcc =>
    rcases State.runPending_next h with ⟨h0, _⟩ | ⟨q, hq, ⟨u, hu, ht⟩ | ⟨e, _, ht⟩⟩
    · simp [hp] at h0
    · obtain ⟨_, f, _, rfl⟩ := countCommand_done hu
      exact .inr ⟨f, s.tree, s.codes, s.mem, s.out, ht, by simp, by simp, by simp, by simp⟩
    · exact .inl ⟨e, ht⟩
  case build =>
    rcases State.runPending_next h with ⟨h0, _⟩ | ⟨q, hq, ⟨u, hu, ht⟩ | ⟨e, _, ht⟩⟩
    · simp [hp] at h0
    · obtain ⟨_, rfl⟩ := buildCommand_done hu
      exact .inr ⟨s.freq, _, _, s.mem, s.out, ht, by simp, by simp, by simp, by simp⟩
    · exact .inl ⟨e, ht⟩
  case gencode =>
    rcases State.runPending_next h with ⟨h0, _⟩ | ⟨q, hq, ⟨u, hu, ht⟩ | ⟨e, _, ht⟩⟩
    · simp [hp] at h0
    · obtain ⟨_, xs, _, rfl⟩ := gencodeCommand_done hu
      exact .inr ⟨s.freq, s.tree, _, s.mem, s.out, ht, by simp, by simp, by simp, by simp⟩
    · exact .inl ⟨e, ht⟩
  case encode =>
    rcases State.runPending_next h with ⟨h0, _⟩ | ⟨q, hq, ⟨u, hu, ht⟩ | ⟨e, _, ht⟩⟩
    · simp [hp] at h0
    · obtain ⟨_, _, _, bits, _, _, rfl⟩ := encodeCommand_done hu
      exact .inr ⟨s.freq, s.tree, s.codes, _, _, ht, by simp, by simp, by simp, by simp [isCodec]⟩
    · exact .inl ⟨e, ht⟩
  case decode =>
    rcases State.runPending_next h with ⟨h0, _⟩ | ⟨q, hq, ⟨u, hu, ht⟩ | ⟨e, _, ht⟩⟩
    · simp [hp] at h0
    · obtain ⟨_, _, hs⟩ := decodeCommand_done hu
      obtain ⟨_, _, out, _, rfl⟩ := decodeStream_done hs
      exact .inr ⟨s.freq, s.tree, s.codes, _, _, ht, by simp, by simp, by simp, by simp [isCodec]⟩
    · exact .inl ⟨e, ht⟩
  case decodeChk =>
    rcases State.runPending_next h with ⟨h0, _⟩ | ⟨q, hq, ⟨u, hu, ht⟩ | ⟨e, _, ht⟩⟩
    · simp [hp] at h0
    · obtain ⟨_, _, hs⟩ := decodeCommand_done hu
      obtain ⟨_, _, out, _, rfl⟩ := decodeStream_done hs
      exact .inr ⟨s.freq, s.tree, s.codes, _, _, ht, by simp, by simp, by simp, by simp [isCodec]⟩
    · exact .inl ⟨e, ht⟩

/-- With PEND = none a command's meaning changes nothing: "the core takes no step" (R131). -/
theorem exec_idle {s : State} (h : s.pend = none) (i : Instr) : exec i s = .next s := by
  cases i <;> simp [exec, execNop, execClrf, execCount, execCountAcc, execBuild, execGencode, execEncode, execDecode,
    execDecodeChk, State.runPending, h]

/-! ## The host's step -/

theorem State.busRead_snd (s : State) (off : BitVec 21) :
    (s.busRead off).2 = s ∨ (s.busRead off).2 = { s with draws := s.draws + 1 } := by
  unfold State.busRead
  split
  · exact .inr rfl
  · exact .inl rfl

theorem controlTarget_reg {off : Nat} {r : Reg} (h : controlTarget off = .reg r) : off = r.offset := by
  unfold controlTarget at h
  split at h
  · rename_i r' hr
    have := List.find?_some hr
    simp only [Target.reg.injEq] at h
    subst h
    simpa using (beq_iff_eq.mp this).symm
  · split at h
    · cases h
    · split at h <;> cases h

theorem controlTarget_ne_dmem (off a : Nat) : controlTarget off ≠ .dmem a := by
  unfold controlTarget
  split
  · simp
  · split
    · simp
    · split <;> simp

/-- An offset that names a stand-alone register is that register's offset (R23). -/
theorem target_reg {size off : Nat} {r : Reg} (h : target size off = .reg r) : off = r.offset := by
  unfold target at h
  split at h
  · exact controlTarget_reg h
  · repeat' split at h
    all_goals cases h

/-- An offset that names a DMEM word lies in the DMEM window (R51). -/
theorem target_dmem {size off a : Nat} (h : target size off = .dmem a) : off = 0x100000 + a ∧ a < size := by
  unfold target at h
  split at h
  · exact absurd h (controlTarget_ne_dmem _ _)
  · repeat' split at h
    all_goals simp only [Target.dmem.injEq, reduceCtorEq] at h
    omega

/-- Everything a host write can do (R23, R25, R27, R30, R31, R35, R51, R55, R58). -/
theorem State.busWrite_cases (s : State) (off : BitVec 21) (v : Word) :
    s.busWrite off v = s ∨ (s.busy = true ∧ s.busWrite off v = s.setOvr) ∨
      (off.toNat = 0x008 ∧ v.getLsbD 0 = true ∧ s.busWrite off v = s.softReset) ∨
      (off.toNat = 0x008 ∧ v.getLsbD 0 = false ∧ s.busWrite off v = { s with ie := v.getLsbD 1 }) ∨
      (off.toNat = 0x010 ∧ s.busWrite off v = { s with event := s.event.clear v }) ∨
      (off.toNat = 0x01C ∧ s.pend = none ∧ s.busWrite off v = s.accept v) ∨
      (s.pend = none ∧ ∃ o, s.busWrite off v = { s with ops := o }) ∨
      (s.pend = none ∧ ∃ x, s.busWrite off v = { s with expset := x }) ∨
      (s.pend = none ∧ ∃ f, s.busWrite off v = { s with freq := f }) ∨
      (s.pend = none ∧ 0x100000 ≤ off.toNat ∧ off.toNat - 0x100000 < s.mem.size ∧
        s.busWrite off v = { s with mem := s.mem.writeWord (off.toNat - 0x100000) v }) := by
  unfold State.busWrite
  split
  · rename_i hb
    exact .inr (.inl ⟨by simp_all, rfl⟩)
  · rename_i hb
    have hidle : (target s.mem.size off.toNat).dropsWhenBusy = true → s.pend = none := fun hd => by
      simpa [State.busy, hd] using hb
    cases ht : target s.mem.size off.toNat with
    | reg r =>
      rw [ht] at hidle
      have hoff := target_reg ht
      cases r
      case ctrl =>
        simp only [State.writeTarget, State.writeReg, State.writeCtrl]
        split
        · rename_i hv
          exact .inr (.inr (.inl ⟨hoff, hv, rfl⟩))
        · rename_i hv
          exact .inr (.inr (.inr (.inl ⟨hoff, by simpa using hv, rfl⟩)))
      case event => exact .inr (.inr (.inr (.inr (.inl ⟨hoff, rfl⟩))))
      case cmd => exact .inr (.inr (.inr (.inr (.inr (.inl ⟨hoff, hidle rfl, rfl⟩)))))
      case src => exact .inr (.inr (.inr (.inr (.inr (.inr (.inl ⟨hidle rfl, _, rfl⟩))))))
      case len => exact .inr (.inr (.inr (.inr (.inr (.inr (.inl ⟨hidle rfl, _, rfl⟩))))))
      case dst => exact .inr (.inr (.inr (.inr (.inr (.inr (.inl ⟨hidle rfl, _, rfl⟩))))))
      case bits => exact .inr (.inr (.inr (.inr (.inr (.inr (.inl ⟨hidle rfl, _, rfl⟩))))))
      all_goals exact .inl rfl
    | expset w =>
      rw [ht] at hidle
      exact .inr (.inr (.inr (.inr (.inr (.inr (.inr (.inl ⟨hidle rfl, _, rfl⟩)))))))
    | freq b =>
      rw [ht] at hidle
      exact .inr (.inr (.inr (.inr (.inr (.inr (.inr (.inr (.inl ⟨hidle rfl, _, rfl⟩))))))))
    | dmem a =>
      rw [ht] at hidle
      obtain ⟨h1, h2⟩ := target_dmem ht
      have ha : off.toNat - 0x100000 = a := by omega
      exact .inr (.inr (.inr (.inr (.inr (.inr (.inr (.inr (.inr ⟨hidle rfl, by omega, by omega, by rw [ha]; rfl⟩))))))))
    | leafset w => exact .inl rfl
    | node i k => exact .inl rfl
    | code b k => exact .inl rfl
    | unmapped => exact .inl rfl

/-- Everything a host statement can do when it answers a next state (R53, R54, R74, R132). -/
theorem hostStep_next {s t : State} {op : HostOp} {rest : List HostOp} (h : hostStep s op rest = .next t) :
    (∃ off v, op = .write off 32 v ∧ off.toNat % 4 = 0 ∧ t = (s.hostAdvance rest).busWrite off v) ∨
      (op = .powerOn ∧ t = (s.hostAdvance rest).powerOnReset) ∨
      (∃ l n r, (l = rest ∨ l = op :: rest) ∧
        t = { s with host := l, latency := s.latency - 1, draws := n, reads := r } ∧ s.draws ≤ n) := by
  have hread : ∀ l off, (l = rest ∨ l = op :: rest) → ∃ n, ((s.hostAdvance l).busRead off).2 =
      { s with host := l, latency := s.latency - 1, draws := n } ∧ s.draws ≤ n := by
    intro l off _
    rcases (s.hostAdvance l).busRead_snd off with h | h
    · exact ⟨s.draws, by rw [h]; rfl, le_rfl⟩
    · exact ⟨s.draws + 1, by rw [h]; rfl, by omega⟩
  cases op with
  | write off width v =>
    simp only [hostStep] at h
    split at h
    · rename_i ha
      simp only [transactionAdmitted, Bool.and_eq_true, decide_eq_true_eq] at ha
      obtain ⟨rfl, ha⟩ := ha
      exact .inl ⟨off, v, rfl, ha, by simpa using h.symm⟩
    · cases h
  | read off width =>
    simp only [hostStep] at h
    split at h
    · obtain ⟨n, hn, hle⟩ := hread rest off (.inl rfl)
      rw [hn] at h
      exact .inr (.inr ⟨rest, n, _, .inl rfl, by simpa [State.record] using h.symm, hle⟩)
    · cases h
  | check off value =>
    simp only [hostStep] at h
    split at h
    · obtain ⟨n, hn, hle⟩ := hread rest off (.inl rfl)
      rw [hn] at h
      exact .inr (.inr ⟨rest, n, _, .inl rfl, by simpa [State.record] using h.symm, hle⟩)
    · cases h
  | wait off mask value =>
    simp only [hostStep] at h
    split at h
    · split at h
      · obtain ⟨n, hn, hle⟩ := hread rest off (.inl rfl)
        rw [hn] at h
        exact .inr (.inr ⟨rest, n, s.reads, .inl rfl, by simpa using h.symm, hle⟩)
      · obtain ⟨n, hn, hle⟩ := hread (.wait off mask value :: rest) off (.inr rfl)
        rw [hn] at h
        exact .inr (.inr ⟨_, n, s.reads, .inr rfl, by simpa using h.symm, hle⟩)
    · cases h
  | powerOn => exact .inr (.inl ⟨rfl, by simpa [hostStep] using h.symm⟩)

/-! ## The step -/

theorem nextTurn_core {s : State} {p : Pend} (h : CoreTurn s p) : nextTurn s = .core := by
  obtain ⟨hp, hh⟩ := h
  unfold nextTurn
  rw [hp]
  cases hs : s.host with
  | nil => rfl
  | cons op rest =>
    rcases hh with hh | hh
    · simp [hs] at hh
    · simp [hh]

theorem nextTurn_host {s : State} {op : HostOp} {rest : List HostOp} (h : HostTurn s op rest) :
    nextTurn s = .host op rest := by
  obtain ⟨hs, hh⟩ := h
  unfold nextTurn
  rw [hs]
  cases hp : s.pend with
  | none => rfl
  | some p =>
    rcases hh with hh | hh
    · simp [hp] at hh
    · simp [hh]

/-- Every state is one agent's turn, or neither's (R59). -/
theorem turn_cases (s : State) :
    (s.pend = none ∧ s.host = []) ∨ (∃ p, CoreTurn s p) ∨ (∃ op rest, HostTurn s op rest) := by
  cases hp : s.pend with
  | none =>
    cases hh : s.host with
    | nil => exact .inl ⟨rfl, rfl⟩
    | cons op rest => exact .inr (.inr ⟨op, rest, hh, .inl hp⟩)
  | some p =>
    cases hh : s.host with
    | nil => exact .inr (.inl ⟨p, hp, .inl hh⟩)
    | cons op rest =>
      by_cases hl : s.latency = 0
      · exact .inr (.inl ⟨p, hp, .inr hl⟩)
      · exact .inr (.inr ⟨op, rest, hh, .inr hl⟩)

/-- Everything a step can do when it answers a next state (R59). -/
theorem step_next {s t : State} (h : step s = .next t) :
    (s.pend = none ∧ s.host = [] ∧ t = s) ∨
      (∃ p, CoreTurn s p ∧ ((∃ i, decode p.word = .ok i ∧ exec i s = .next t) ∨
        (∃ e, decode p.word = .error e ∧ t = s.failWith false ⟨.illegalCommand, p.word⟩))) ∨
      (∃ op rest, HostTurn s op rest ∧ hostStep s op rest = .next t) := by
  rcases turn_cases s with ⟨hp, hh⟩ | ⟨p, hc⟩ | ⟨op, rest, hc⟩
  · refine .inl ⟨hp, hh, ?_⟩
    simpa [step, nextTurn, hp, hh, stepTurn] using h.symm
  · refine .inr (.inl ⟨p, hc, ?_⟩)
    rw [step, nextTurn_core hc, stepTurn, coreStep, hc.1] at h
    simp only at h
    cases hd : decode p.word with
    | ok i => exact .inl ⟨i, rfl, by simpa [hd] using h⟩
    | error e =>
      refine .inr ⟨e, rfl, ?_⟩
      simp only [hd, illegalCommand, State.runPending_some hc.1, State.complete] at h
      simpa using h.symm
  · refine .inr (.inr ⟨op, rest, hc, ?_⟩)
    rwa [step, nextTurn_host hc] at h

end Sys2Proof.Machine
end

