-- ==== Sys2Proof/Laws/Bus.lean ====
section
/-! SUPPORT. The register map at every word-aligned offset (R23, R55), and the step as the turn of one agent (R59). -/

namespace Sys2Proof.Machine

/-! ## The step of one agent -/

theorem step_core {s : State} {p : Pend} (h : CoreTurn s p) : step s = coreStep s := by
  rw [step, nextTurn_core h]
  rfl

theorem step_host {s : State} {op : HostOp} {rest : List HostOp} (h : HostTurn s op rest) :
    step s = hostStep s op rest := by
  rw [step, nextTurn_host h]
  rfl

theorem coreStep_ok {s : State} {p : Pend} {i : Instr} (hp : s.pend = some p) (hd : decode p.word = .ok i) :
    coreStep s = exec i s := by
  simp only [coreStep, hp, hd]

theorem coreStep_error {s : State} {p : Pend} {e : DecodeError} (hp : s.pend = some p) (hd : decode p.word = .error e) :
    coreStep s = .next (s.failWith false ⟨.illegalCommand, p.word⟩) := by
  simp only [coreStep, hp, hd, illegalCommand, State.runPending_some hp, State.complete]

/-- BUSY follows PEND (R26). -/
theorem State.busy_eq (s : State) : s.busy = true ↔ s.pend ≠ none := by
  rw [State.busy]
  cases s.pend <;> simp

/-! ## The register map -/

/-- The control registers, word by word: 256 offsets (R23). -/
theorem controlTarget_cases {off : Nat} (h4 : off % 4 = 0) (h : off < 0x400) :
    (∃ r, off = Reg.offset r ∧ controlTarget off = .reg r) ∨
      (0x060 ≤ off ∧ off < 0x080 ∧ controlTarget off = .leafset (BitVec.ofNat 3 ((off - 0x060) / 4))) ∨
      (0x080 ≤ off ∧ off < 0x0A0 ∧ controlTarget off = .expset (BitVec.ofNat 3 ((off - 0x080) / 4))) ∨
      (((0x04C ≤ off ∧ off < 0x060) ∨ 0x0A0 ≤ off) ∧ controlTarget off = .unmapped) := by
  unfold controlTarget
  split
  · rename_i r hr
    have := List.find?_some hr
    exact .inl ⟨r, by simpa using (beq_iff_eq.mp this).symm, rfl⟩
  · rename_i hn
    have hne : ∀ r ∈ Reg.all, r.offset ≠ off := by simpa using hn
    have hlow : 0x04C ≤ off := by
      by_contra hlt
      obtain ⟨k, rfl⟩ : ∃ k, off = 4 * k := ⟨off / 4, by omega⟩
      have hk : k < 19 := by omega
      have key : ∀ k : Fin 19, ∃ r ∈ Reg.all, r.offset = 4 * k.val := by decide
      obtain ⟨r, hr, ho⟩ := key ⟨k, hk⟩
      exact hne r hr ho
    right
    split
    · rename_i h1
      exact .inl ⟨h1.1, h1.2, rfl⟩
    · split
      · rename_i h1 h2
        exact .inr (.inl ⟨h2.1, h2.2, rfl⟩)
      · exact .inr (.inr ⟨by omega, rfl⟩)

/-- What stands at a word-aligned offset of the register space (R23, R51, R55). -/
theorem target_cases (size : Nat) {off : Nat} (h4 : off % 4 = 0) :
    (∃ r, off = Reg.offset r ∧ target size off = .reg r) ∨
      (0x060 ≤ off ∧ off < 0x080 ∧ target size off = .leafset (BitVec.ofNat 3 ((off - 0x060) / 4))) ∨
      (0x080 ≤ off ∧ off < 0x0A0 ∧ target size off = .expset (BitVec.ofNat 3 ((off - 0x080) / 4))) ∨
      (0x400 ≤ off ∧ off < 0x800 ∧ target size off = .freq (BitVec.ofNat 8 ((off - 0x400) / 4))) ∨
      (0x1000 ≤ off ∧ off < 0x2FF0 ∧
        target size off = .node (BitVec.ofNat 9 ((off - 0x1000) / 16)) (BitVec.ofNat 2 ((off - 0x1000) / 4))) ∨
      (0x4000 ≤ off ∧ off < 0x8000 ∧
        target size off = .code (BitVec.ofNat 8 ((off - 0x4000) / 64)) (BitVec.ofNat 4 ((off - 0x4000) / 4))) ∨
      (0x100000 ≤ off ∧ off < 0x100000 + size ∧ target size off = .dmem (off - 0x100000)) ∨
      (((0x04C ≤ off ∧ off < 0x060) ∨ (0x0A0 ≤ off ∧ off < 0x400) ∨ (0x800 ≤ off ∧ off < 0x1000) ∨
        (0x2FF0 ≤ off ∧ off < 0x4000) ∨ (0x8000 ≤ off ∧ off < 0x100000) ∨ 0x100000 + size ≤ off) ∧
        target size off = .unmapped) := by
  unfold target
  split
  · rcases controlTarget_cases h4 (by assumption) with h | h | h | h
    · exact .inl h
    · exact .inr (.inl h)
    · exact .inr (.inr (.inl h))
    · exact .inr (.inr (.inr (.inr (.inr (.inr (.inr ⟨by omega, h.2⟩))))))
  · repeat' split
    all_goals simp only [reduceCtorEq, and_false, false_or, or_false, exists_false, and_true]
    all_goals omega

/-- A register's offset lies in the first 0x4C bytes of the map (R23). -/
theorem Reg.offset_lt (r : Reg) : r.offset < 0x04C ∧ r.offset % 4 = 0 := by
  cases r <;> decide

end Sys2Proof.Machine
end

