-- ==== Sys2Proof/Laws/Frequency.lean ====
section
/-! SUPPORT. What a counting pass does (R84, R86, R87). -/

namespace Sys2Proof.Machine

/-- A pass that succeeds has added to each entry the number of times its symbol occurs. -/
theorem countBytes_ok {bs : List Byte} {f g : FreqTable} (h : countBytes bs f = .ok g) (b : Byte) :
    (symGet g b).toNat = (symGet f b).toNat + bs.count b := by
  induction bs generalizing f with
  | nil => cases h; simp
  | cons c bs ih =>
    simp only [countBytes] at h
    split at h
    · cases h
    · rename_i hne
      rw [ih h, symGet_symSet]
      by_cases hb : b = c
      · subst hb
        have hlt : (symGet f b).toNat ≠ 2 ^ 32 - 1 := fun he => hne (BitVec.eq_of_toNat_eq he)
        have := (symGet f b).isLt
        rw [if_pos rfl, List.count_cons_self, BitVec.toNat_add, Nat.mod_eq_of_lt]
        · simp; omega
        · simp; omega
      · rw [if_neg hb, List.count_cons_of_ne (Ne.symm hb)]

/-- A pass none of whose entries would pass 2^32 − 1 succeeds. -/
theorem countBytes_isOk {bs : List Byte} {f : FreqTable}
    (h : ∀ b : Byte, (symGet f b).toNat + bs.count b < 2 ^ 32) : ∃ g, countBytes bs f = .ok g := by
  induction bs generalizing f with
  | nil => exact ⟨f, rfl⟩
  | cons c bs ih =>
    have hc := h c
    rw [List.count_cons_self] at hc
    have hne : symGet f c ≠ 0xFFFFFFFF#32 := fun he => by
      rw [he] at hc
      simp at hc
      omega
    simp only [countBytes, if_neg hne]
    apply ih
    intro b
    have hb := h b
    rw [symGet_symSet]
    by_cases hbc : b = c
    · subst hbc
      rw [if_pos rfl, BitVec.toNat_add, Nat.mod_eq_of_lt]
      · simp; omega
      · simp; omega
    · rw [List.count_cons_of_ne (Ne.symm hbc)] at hb
      rwa [if_neg hbc]

/-- The sum of a table's entries after a pass: "the prior sum plus LEN" (R87). -/
theorem countBytes_sum {bs : List Byte} {f g : FreqTable} (h : countBytes bs f = .ok g) :
    ((List.range 256).map (fun k => (symGet g (BitVec.ofNat 8 k)).toNat)).sum =
      ((List.range 256).map (fun k => (symGet f (BitVec.ofNat 8 k)).toNat)).sum + bs.length := by
  have hc : ((List.range 256).map (fun k => bs.count (BitVec.ofNat 8 k))).sum = bs.length := by
    clear h
    induction bs with
    | nil =>
      have : ∀ l : List Nat, (l.map (fun k => ([] : List Byte).count (BitVec.ofNat 8 k))).sum = 0 := by
        intro l
        induction l with
        | nil => rfl
        | cons k l ih => rw [List.map_cons, List.sum_cons, ih, List.count_nil]
      exact this _
    | cons c bs ih =>
      have key : ∀ l : List Nat, l.Nodup → (∀ k ∈ l, k < 256) →
          (l.map (fun k => (c :: bs).count (BitVec.ofNat 8 k))).sum =
            (l.map (fun k => bs.count (BitVec.ofNat 8 k))).sum + (if c.toNat ∈ l then 1 else 0) := by
        intro l hn hl
        induction l with
        | nil => simp
        | cons k l ihl =>
          obtain ⟨hk, hn⟩ := List.nodup_cons.mp hn
          have hk256 := hl k (by simp)
          rw [List.map_cons, List.sum_cons, ihl hn (fun x hx => hl x (by simp [hx])), List.map_cons, List.sum_cons]
          by_cases hck : c.toNat = k
          · subst hck
            rw [if_neg hk, if_pos (by simp), BitVec.ofNat_toNat, BitVec.setWidth_eq, List.count_cons_self]
            omega
          · have hne : c ≠ BitVec.ofNat 8 k := fun he => hck (by
              rw [he, BitVec.toNat_ofNat]
              omega)
            rw [List.count_cons_of_ne hne]
            simp only [List.mem_cons, hck, false_or]
            omega
      rw [key _ List.nodup_range (fun k hk => List.mem_range.mp hk), ih, if_pos (List.mem_range.mpr c.isLt),
        List.length_cons]
  have hs : ∀ l : List Nat, (l.map (fun k => (symGet g (BitVec.ofNat 8 k)).toNat)).sum =
      (l.map (fun k => (symGet f (BitVec.ofNat 8 k)).toNat)).sum + (l.map (fun k => bs.count (BitVec.ofNat 8 k))).sum := by
    intro l
    induction l with
    | nil => rfl
    | cons k l ih =>
      rw [List.map_cons, List.sum_cons, ih, countBytes_ok h, List.map_cons, List.sum_cons, List.map_cons, List.sum_cons]
      omega
  rw [hs, hc]

/-- A pass fails at the first byte, in input order, whose entry stands at 2^32 − 1 (R86, R121). -/
theorem countBytes_overflow {bs : List Byte} {f : FreqTable} {k : Nat} {b : Byte} (hk : bs[k]? = some b)
    (hb : (symGet f b).toNat + (bs.take k).count b = 2 ^ 32 - 1)
    (hj : ∀ (j : Nat) (c : Byte), j < k → bs[j]? = some c → (symGet f c).toNat + (bs.take j).count c < 2 ^ 32 - 1) :
    countBytes bs f = .error b := by
  induction k generalizing bs f with
  | zero =>
    cases bs with
    | nil => simp at hk
    | cons c bs =>
      obtain rfl : c = b := by simpa using hk
      have : symGet f c = 0xFFFFFFFF#32 := BitVec.eq_of_toNat_eq (by simpa using hb)
      simp only [countBytes, if_pos this]
  | succ k ih =>
    cases bs with
    | nil => simp at hk
    | cons c bs =>
      have h0 := hj 0 c (by omega) rfl
      simp only [List.take_zero, List.count_nil, Nat.add_zero] at h0
      have hne : symGet f c ≠ 0xFFFFFFFF#32 := fun he => by
        rw [he] at h0
        simp at h0
      have step : ∀ (x : Byte) (l : List Byte),
          (symGet (symSet f c (symGet f c + 1)) x).toNat + l.count x = (symGet f x).toNat + (c :: l).count x := by
        intro x l
        rw [symGet_symSet]
        by_cases hx : x = c
        · subst hx
          rw [if_pos rfl, List.count_cons_self, BitVec.toNat_add, Nat.mod_eq_of_lt]
          · simp; omega
          · simp; omega
        · rw [if_neg hx, List.count_cons_of_ne (Ne.symm hx)]
      simp only [countBytes, if_neg hne]
      refine ih (by simpa using hk) ?_ (fun j x hjk hx => ?_)
      · rw [step]
        simpa using hb
      · rw [step]
        have := hj (j + 1) x (by omega) (by simpa using hx)
        simpa using this

end Sys2Proof.Machine
end

