-- ==== Sys2Proof/Laws/Packer.lean ====
section
/-! SUPPORT. The bit packer's passes: when an input has a bit string and which (R105, R107), and the bits of a packed stream
(R106). -/

namespace Sys2Proof.Machine

/-- The bit string of an input all of whose bytes have codes (R105). -/
theorem encodeBits_ok {c : Vector Code 256} {bs : List Byte} (k : Nat) (h : ∀ b ∈ bs, (symGet c b).len ≠ 0) :
    encodeBits c k bs = .ok (bs.flatMap (fun b => (symGet c b).string)) := by
  induction bs generalizing k with
  | nil => rfl
  | cons b bs ih =>
    rw [encodeBits, if_neg (show ¬ (symGet c b).len = 0#8 from h b (by simp)), ih (k + 1) (fun x hx => h x (by simp [hx]))]
    rfl

/-- An input that has a bit string has a code for every byte. -/
theorem encodeBits_ok_iff {c : Vector Code 256} {bs : List Byte} {k : Nat} {bits : List Bool} :
    encodeBits c k bs = .ok bits ↔ (∀ b ∈ bs, (symGet c b).len ≠ 0) ∧ bits = bs.flatMap (fun b => (symGet c b).string) := by
  constructor
  · intro h
    have hall : ∀ b ∈ bs, (symGet c b).len ≠ 0 := by
      induction bs generalizing k bits with
      | nil => simp
      | cons b bs ih =>
        rw [encodeBits] at h
        split at h
        · cases h
        · rename_i hb
          split at h
          · rename_i rest hr
            intro x hx
            rcases List.mem_cons.mp hx with rfl | hx
            · exact hb
            · exact ih hr x hx
          · cases h
    refine ⟨hall, ?_⟩
    have he := encodeBits_ok k hall
    rw [h] at he
    cases he
    rfl
  · rintro ⟨h, rfl⟩
    exact encodeBits_ok k h

/-- The first byte without a code, counted from `k` (R107, R108). -/
theorem encodeBits_error {c : Vector Code 256} {bs : List Byte} (k : Nat) {j : Nat} {b : Byte} (hj : bs[j]? = some b)
    (hb : (symGet c b).len = 0) (h : ∀ x ∈ bs.take j, (symGet c x).len ≠ 0) : encodeBits c k bs = .error (k + j) := by
  induction j generalizing bs k with
  | zero =>
    cases bs with
    | nil => simp at hj
    | cons x bs =>
      obtain rfl : x = b := by simpa using hj
      rw [encodeBits, if_pos (show (symGet c x).len = 0#8 from hb), Nat.add_zero]
  | succ j ih =>
    cases bs with
    | nil => simp at hj
    | cons x bs =>
      rw [List.take_succ_cons] at h
      rw [encodeBits, if_neg (show ¬ (symGet c x).len = 0#8 from h x (by simp)), ih (k + 1) (by simpa using hj) (fun y hy => h y (by simp [hy]))]
      simp only
      congr 1
      omega

/-- What `encodeBits` answers names a byte of the input. -/
theorem encodeBits_error_lt {c : Vector Code 256} {bs : List Byte} {k j : Nat} (h : encodeBits c k bs = .error j) :
    k ≤ j ∧ j < k + bs.length := by
  induction bs generalizing k with
  | nil => cases h
  | cons b bs ih =>
    rw [encodeBits] at h
    split at h
    · cases h
      simp
    · split at h
      · cases h
      · rename_i hr
        cases h
        have := ih hr
        simp only [List.length_cons]
        omega

@[simp] theorem Code.string_length (c : Code) : c.string.length = c.len.toNat := by
  simp [Code.string]

/-- The number of code bits of an input (R105, R110). -/
theorem string_flatMap_length (c : Vector Code 256) (bs : List Byte) :
    (bs.flatMap (fun b => (symGet c b).string)).length = (bs.map (fun b => (symGet c b).len.toNat)).sum := by
  simp [List.length_flatMap]

/-- "T ≤ 255 · LEN" (R110). -/
theorem string_flatMap_le (c : Vector Code 256) (bs : List Byte) :
    (bs.flatMap (fun b => (symGet c b).string)).length ≤ 255 * bs.length := by
  induction bs with
  | nil => simp
  | cons b bs ih =>
    have := (symGet c b).len.isLt
    simp only [List.flatMap_cons, List.length_append, Code.string_length, List.length_cons]
    omega

/-! ## The packed bytes -/

/-- Bit `7 − m` of a byte is its stream bit `m` (R106). -/
theorem packByte_bit (bits : List Bool) {m : Nat} (h : m < 8) : (packByte bits).getLsbD (7 - m) = bits.getD m false := by
  rw [packByte, bitmap_getLsbD, decide_eq_true (by omega), Bool.true_and]
  congr 1
  omega

theorem packBytes_getElem? (n : Nat) (bits : List Bool) (k : Nat) (h : k < n) :
    (packBytes n bits)[k]? = some (packByte (bits.drop (8 * k))) := by
  induction n generalizing bits k with
  | zero => omega
  | succ n ih =>
    cases k with
    | zero => simp [packBytes]
    | succ k =>
      rw [packBytes, List.getElem?_cons_succ, ih (bits.drop 8) k (by omega), List.drop_drop]
      congr 3
      omega

/-- Stream bit `8k + m` of a packed stream, 0 where it is padding (R106, R107). -/
theorem pack_bit (bits : List Bool) {k : Nat} {b : Byte} (hk : (pack bits)[k]? = some b) {m : Nat} (h : m < 8) :
    b.getLsbD (7 - m) = bits.getD (8 * k + m) false := by
  have hlt : k < ceil8 bits.length := by
    have := (List.getElem?_eq_some_iff.mp hk).1
    rwa [pack_length] at this
  rw [pack, packBytes_getElem? _ _ _ hlt] at hk
  cases hk
  rw [packByte_bit _ h]
  simp only [List.getD_eq_getElem?_getD, List.getElem?_drop]

/-- Reading the bits of a packed stream back gives the bit sequence (R106, R112). -/
theorem pack_unpack (bits : List Bool) (i : Nat) (h : i < bits.length) :
    ((pack bits).getD (i / 8) 0).getLsbD (7 - i % 8) = bits[i] := by
  have hlt : i / 8 < (pack bits).length := by
    rw [pack_length, ceil8]
    omega
  have hs : (pack bits)[i / 8]? = some ((pack bits).getD (i / 8) 0) := by
    rw [List.getD_eq_getElem?_getD, List.getElem?_eq_getElem hlt]
    rfl
  rw [pack_bit bits hs (Nat.mod_lt i (by decide)), show 8 * (i / 8) + i % 8 = i by omega,
    List.getD_eq_getElem?_getD, List.getElem?_eq_getElem h]
  rfl

end Sys2Proof.Machine
end

