-- ==== Sys2Proof/Laws/Paths.lean ====
section
/-! SUPPORT. Paths in a tree of BUILD's shape (R96, R100): every node has exactly one, and how long they are; and the entries
GENCODE collects are the paths of the leaves. -/

namespace Sys2Proof

open Machine

variable {t : Tree}

/-! ## One step of a path -/

theorem TreeShape.internal_of_le (h : TreeShape t) {i : NodeIx} (h1 : t.leafCount.toNat ≤ i.toNat)
    (h2 : i.toNat ≤ t.root.toNat) : t.internalAt i := ⟨h1, by have := h.root_last; omega⟩

theorem TreeShape.root_internal (h : TreeShape t) : t.internalAt t.root := by
  have h1 := h.leafCount_range
  have h2 := h.nodeCount_eq
  have h3 := h.root_last
  refine ⟨?_, by omega⟩
  split at h2 <;> omega

/-- A node of the tree is a Leaf exactly when its index is below N (R89). -/
theorem TreeShape.leaf_iff (h : TreeShape t) {i : NodeIx} (hi : i.toNat ≤ t.root.toNat) :
    (nodeAt t.node i).kind = .leaf ↔ i.toNat < t.leafCount.toNat := by
  constructor
  · intro hk
    by_contra hc
    have := (h.internal_entry i (h.internal_of_le (by omega) hi)).2.1
    rw [hk] at this
    cases this
  · exact fun hl => (h.leaf_entry i hl).2.1

/-- A child has a lower index than its parent (R96). -/
theorem TreeShape.child_lt (h : TreeShape t) {i : NodeIx} (hi : t.internalAt i) (b : Bool)
    (hc : (nodeAt t.node i).child b ≠ nil) : ((nodeAt t.node i).child b).toNat < i.toNat := by
  cases b with
  | false => exact (h.internal_entry i hi).2.2.2
  | true =>
    have hr := h.right_child i hi
    split at hr
    · exact absurd hr hc
    · exact hr.1

theorem TreeShape.child_inj (h : TreeShape t) {i : NodeIx} (hi : t.internalAt i) {b b' : Bool}
    (hc : (nodeAt t.node i).child b ≠ nil) (he : (nodeAt t.node i).child b = (nodeAt t.node i).child b') : b = b' := by
  have hr := h.right_child i hi
  cases b <;> cases b' <;> first | rfl | skip
  · simp only [Node.child] at hc he
    split at hr
    · rw [hr] at he
      exact absurd he hc
    · exact absurd he hr.2
  · simp only [Node.child] at hc he
    split at hr
    · exact absurd hr hc
    · exact absurd he.symm hr.2

/-! ## Paths -/

theorem descend_append (n : NodeIx) (bs cs : List Bool) :
    t.descend n (bs ++ cs) = (t.descend n bs).bind (fun m => t.descend m cs) := by
  induction bs generalizing n with
  | nil => rfl
  | cons b bs ih =>
    simp only [List.cons_append, Machine.Tree.descend]
    split
    · rfl
    · split
      · rfl
      · exact ih _

theorem descend_snoc {n m : NodeIx} {bs : List Bool} {b : Bool} : t.descend n (bs ++ [b]) = some m ↔
    ∃ p, t.descend n bs = some p ∧ (nodeAt t.node p).kind = .internal ∧ (nodeAt t.node p).child b = m ∧ m ≠ nil := by
  rw [descend_append]
  cases hd : t.descend n bs with
  | none => simp
  | some p =>
    simp only [Option.bind_some, Machine.Tree.descend, Option.some.injEq, exists_eq_left']
    cases hk : (nodeAt t.node p).kind with
    | leaf => simp
    | internal =>
      simp only [true_and]
      split
      · rename_i hc
        simp only [reduceCtorEq, false_iff, not_and]
        intro hm hn
        exact hn (hm ▸ hc)
      · rename_i hc
        constructor
        · intro hm
          have : (nodeAt t.node p).child b = m := by simpa using hm
          exact ⟨this, this ▸ hc⟩
        · rintro ⟨rfl, _⟩
          rfl

/-- A path never leaves the tree, and goes down. -/
theorem TreeShape.descend_le (h : TreeShape t) {n m : NodeIx} {bs : List Bool} (hn : n.toNat ≤ t.root.toNat)
    (hd : t.descend n bs = some m) : m.toNat ≤ n.toNat ∧ (bs ≠ [] → m.toNat < n.toNat) := by
  induction bs generalizing n with
  | nil =>
    simp only [Machine.Tree.descend, Option.some.injEq] at hd
    subst hd
    exact ⟨le_rfl, by simp⟩
  | cons b bs ih =>
    simp only [Machine.Tree.descend] at hd
    split at hd
    · cases hd
    · rename_i hk
      split at hd
      · cases hd
      · rename_i hc
        have hi : t.internalAt n := h.internal_of_le (by
          by_contra hlt
          have := (h.leaf_iff hn).mpr (by omega)
          rw [hk] at this
          cases this) hn
        have hlt := h.child_lt hi b hc
        have := (ih (by omega) hd).1
        exact ⟨by omega, fun _ => by omega⟩

/-- The depth of a node is at most the number of Internal entries above it (R98). -/
theorem TreeShape.descend_length (h : TreeShape t) {n m : NodeIx} {bs : List Bool} (hn : n.toNat ≤ t.root.toNat)
    (hd : t.descend n bs = some m) : bs.length + t.leafCount.toNat ≤ n.toNat + 1 ∨ bs = [] := by
  induction bs generalizing n with
  | nil => exact .inr rfl
  | cons b bs ih =>
    simp only [Machine.Tree.descend] at hd
    split at hd
    · cases hd
    · rename_i hk
      split at hd
      · cases hd
      · rename_i hc
        have hge : t.leafCount.toNat ≤ n.toNat := by
          by_contra hlt
          have := (h.leaf_iff hn).mpr (by omega)
          rw [hk] at this
          cases this
        have hlt := h.child_lt (h.internal_of_le hge hn) b hc
        left
        rcases ih (by omega) hd with h0 | h0
        · simp only [List.length_cons]; omega
        · subst h0; simp only [List.length_cons, List.length_nil]; omega

/-- Two paths from ROOT to one node are the same path (R96: the arena holds a tree). -/
theorem TreeShape.path_unique (h : TreeShape t) {m : NodeIx} {bs cs : List Bool} (hb : t.descend t.root bs = some m)
    (hc : t.descend t.root cs = some m) : bs = cs := by
  induction bs using List.reverseRecOn generalizing m cs with
  | nil =>
    simp only [Machine.Tree.descend, Option.some.injEq] at hb
    subst hb
    by_contra hne
    have := (h.descend_le le_rfl hc).2 (Ne.symm hne)
    omega
  | append_singleton bs b ih =>
    have hlt := (h.descend_le le_rfl hb).2 (by simp)
    induction cs using List.reverseRecOn with
    | nil =>
      simp only [Machine.Tree.descend, Option.some.injEq] at hc
      subst hc
      omega
    | append_singleton cs c _ =>
      obtain ⟨p, hp, hpk, hpc, hmn⟩ := descend_snoc.mp hb
      obtain ⟨q, hq, hqk, hqc, _⟩ := descend_snoc.mp hc
      have hint : ∀ x xs, t.descend t.root xs = some x → (nodeAt t.node x).kind = .internal → t.internalAt x := by
        intro x xs hx hk
        have hle := (h.descend_le le_rfl hx).1
        refine h.internal_of_le ?_ hle
        by_contra hl
        have := (h.leaf_iff hle).mpr (by omega)
        rw [hk] at this
        cases this
      have hpi := hint p bs hp hpk
      have hqi := hint q cs hq hqk
      have side : ∀ x d, (nodeAt t.node x).child d = m → (nodeAt t.node x).left = m ∨ (nodeAt t.node x).right = m := by
        intro x d hd
        cases d
        · exact .inl hd
        · exact .inr hd
      have hpq : p = q := (h.one_parent m hlt).unique ⟨hpi, side p b hpc⟩ ⟨hqi, side q c hqc⟩
      subst hpq
      have hbc : b = c := h.child_inj hpi (hpc ▸ hmn) (hpc.trans hqc.symm)
      rw [ih hp hq, hbc]

/-- Every node of the tree has a path from ROOT (R96). -/
theorem TreeShape.path_exists (h : TreeShape t) (i : NodeIx) (hi : i.toNat ≤ t.root.toNat) :
    ∃ bs, t.descend t.root bs = some i := by
  suffices ∀ k (i : NodeIx), t.root.toNat - i.toNat ≤ k → i.toNat ≤ t.root.toNat → ∃ bs, t.descend t.root bs = some i from
    this _ i le_rfl hi
  intro k
  induction k with
  | zero =>
    intro i hk hi
    have : i = t.root := BitVec.eq_of_toNat_eq (by omega)
    exact ⟨[], by rw [this]; rfl⟩
  | succ k ih =>
    intro i hk hi
    rcases Nat.lt_or_ge i.toNat t.root.toNat with hlt | hge
    · obtain ⟨j, ⟨hj, hc⟩, _⟩ := h.one_parent i hlt
      have hjk := (h.internal_entry j hj).2.1
      have hjr : j.toNat ≤ t.root.toNat := by have := hj.2; have := h.root_last; omega
      have hin : i ≠ nil := by
        intro he
        have h1 := h.root_last
        have h2 := t.nodeCount.isLt
        have : i.toNat = 511 := by rw [he]; rfl
        omega
      have step : ∀ d, (nodeAt t.node j).child d = i → ∃ bs, t.descend t.root bs = some i := by
        intro d hd
        have := h.child_lt hj d (hd ▸ hin)
        rw [hd] at this
        obtain ⟨bs, hbs⟩ := ih j (by omega) hjr
        exact ⟨bs ++ [d], descend_snoc.mpr ⟨j, hbs, hjk, hd, hin⟩⟩
      rcases hc with hc | hc
      · exact step false hc
      · exact step true hc
    · have : i = t.root := BitVec.eq_of_toNat_eq (by omega)
      exact ⟨[], by rw [this]; rfl⟩

/-- A path to a Leaf has 1 to 255 bits (R98, R101). -/
theorem TreeShape.pathTo_length (h : TreeShape t) {bs : List Bool} {b : Byte} (hp : t.pathTo bs b) :
    1 ≤ bs.length ∧ bs.length ≤ 255 := by
  obtain ⟨n, hd, hk, _⟩ := hp
  have hr := h.root_internal
  have h1 := h.leafCount_range
  have h2 := h.nodeCount_eq
  have h3 := h.root_last
  have hne : bs ≠ [] := by
    rintro rfl
    simp only [Machine.Tree.descend, Option.some.injEq] at hd
    subst hd
    have := (h.internal_entry _ hr).2.1
    rw [hk] at this
    cases this
  refine ⟨List.length_pos_iff.mpr hne, ?_⟩
  rcases h.descend_length le_rfl hd with h4 | h4
  · split at h2 <;> omega
  · exact absurd h4 hne

/-- A symbol has one path (R100). -/
theorem TreeShape.pathTo_unique (h : TreeShape t) {bs cs : List Bool} {b : Byte} (hb : t.pathTo bs b)
    (hc : t.pathTo cs b) : bs = cs := by
  obtain ⟨n, hn, hnk, hns⟩ := hb
  obtain ⟨m, hm, hmk, hms⟩ := hc
  have hnl := (h.leaf_iff (h.descend_le le_rfl hn).1).mp hnk
  have hml := (h.leaf_iff (h.descend_le le_rfl hm).1).mp hmk
  have : n = m := by
    apply BitVec.eq_of_toNat_eq
    rcases Nat.lt_trichotomy n.toNat m.toNat with hlt | heq | hgt
    · have := h.symbols_rise n m hlt hml
      rw [hns, hms] at this
      omega
    · exact heq
    · have := h.symbols_rise m n hgt hnl
      rw [hns, hms] at this
      omega
  subst this
  exact h.path_unique hn hm

/-- Exactly the leaf set's symbols have a path (R34, R100). -/
theorem TreeShape.pathTo_iff (h : TreeShape t) (b : Byte) :
    (∃ bs, t.pathTo bs b) ↔ t.leafset.getLsbD b.toNat = true := by
  rw [h.leafset_iff b]
  constructor
  · rintro ⟨bs, n, hn, hnk, hns⟩
    exact ⟨n, (h.leaf_iff (h.descend_le le_rfl hn).1).mp hnk, hns⟩
  · rintro ⟨i, hi, hs⟩
    have hir : i.toNat ≤ t.root.toNat := by
      have h1 := h.root_internal.1
      omega
    obtain ⟨bs, hbs⟩ := h.path_exists i hir
    exact ⟨bs, i, hbs, (h.leaf_iff hir).mpr hi, hs⟩

/-! ## The value of a path -/

theorem pathValue_foldl (bs : List Bool) (v : Nat) :
    bs.foldl (fun v b => 2 * v + b.toNat) v = v * 2 ^ bs.length + pathValue bs := by
  induction bs generalizing v with
  | nil => simp [pathValue]
  | cons b bs ih =>
    simp only [List.foldl_cons, List.length_cons, pathValue]
    rw [ih, ih (2 * 0 + b.toNat)]
    ring

theorem pathValue_cons (b : Bool) (bs : List Bool) : pathValue (b :: bs) = b.toNat * 2 ^ bs.length + pathValue bs := by
  show List.foldl _ _ bs = _
  rw [pathValue_foldl]
  simp

theorem pathValue_lt (bs : List Bool) : pathValue bs < 2 ^ bs.length := by
  induction bs with
  | nil => simp [pathValue]
  | cons b bs ih =>
    rw [pathValue_cons, List.length_cons, pow_succ]
    cases b <;> simp <;> omega

/-- Bit `L − 1 − j` of a path's value is its bit `j` (R100: "d1 is bit L−1 and dL is bit 0"). -/
theorem pathValue_testBit (bs : List Bool) (j : Nat) (h : j < bs.length) :
    (pathValue bs).testBit (bs.length - 1 - j) = bs[j] := by
  induction bs generalizing j with
  | nil => simp at h
  | cons b bs ih =>
    rw [pathValue_cons]
    have hlt := pathValue_lt bs
    cases j with
    | zero =>
      simp only [List.length_cons, Nat.add_sub_cancel, Nat.sub_zero, List.getElem_cons_zero]
      rw [Nat.mul_comm, Nat.testBit_two_pow_mul_add _ hlt]
      cases b <;> simp
    | succ j =>
      simp only [List.length_cons, Nat.add_sub_cancel, List.getElem_cons_succ] at h ⊢
      rw [Nat.mul_comm, Nat.testBit_two_pow_mul_add _ hlt, if_pos (by omega), ← ih j (by omega)]
      congr 1
      omega

/-! ## The entries GENCODE collects -/

/-- In a tree of BUILD's shape the traversal ends. -/
theorem TreeShape.leafCodes_isSome (h : TreeShape t) (fuel : Nat) (n : NodeIx) (l v : Nat) (hn : n.toNat ≤ t.root.toNat)
    (hf : n.toNat < fuel) : ∃ xs, leafCodes t.node fuel n l v = some xs := by
  induction fuel generalizing n l v with
  | zero => omega
  | succ fuel ih =>
    simp only [leafCodes]
    split
    · exact ⟨_, rfl⟩
    · rename_i hk
      have hi : t.internalAt n := h.internal_of_le (by
        by_contra hlt
        have := (h.leaf_iff hn).mpr (by omega)
        rw [hk] at this
        cases this) hn
      have side : ∀ b l' v', ∃ xs, (if (nodeAt t.node n).child b = nil then some []
          else leafCodes t.node fuel ((nodeAt t.node n).child b) l' v') = some xs := by
        intro b l' v'
        split
        · exact ⟨_, rfl⟩
        · rename_i hc
          have := h.child_lt hi b hc
          exact ih _ _ _ (by omega) (by omega)
      obtain ⟨xs, hx⟩ := side false (l + 1) (2 * v)
      obtain ⟨ys, hy⟩ := side true (l + 1) (2 * v + 1)
      simp only [Node.child] at hx hy
      simp only [Bool.false_eq_true, if_false, if_true] at hx hy
      rw [hx, hy]
      exact ⟨_, rfl⟩

/-- What the traversal collects under a node: one entry for every path to a Leaf. -/
theorem mem_leafCodes {fuel : Nat} {n : NodeIx} {l v : Nat} {xs : List (Byte × Code)}
    (h : leafCodes t.node fuel n l v = some xs) (b : Byte) (c : Code) : (b, c) ∈ xs ↔
      ∃ bs m, t.descend n bs = some m ∧ (nodeAt t.node m).kind = .leaf ∧ (nodeAt t.node m).sym = b ∧
        c = ⟨BitVec.ofNat 8 (l + bs.length), BitVec.ofNat 255 (v * 2 ^ bs.length + pathValue bs)⟩ := by
  induction fuel generalizing n l v xs with
  | zero => simp [leafCodes] at h
  | succ fuel ih =>
    simp only [leafCodes] at h
    split at h
    · rename_i hk
      simp only [Option.some.injEq] at h
      subst h
      simp only [List.mem_singleton, Prod.mk.injEq]
      constructor
      · rintro ⟨rfl, rfl⟩
        exact ⟨[], n, rfl, hk, rfl, by simp [pathValue]⟩
      · rintro ⟨bs, m, hd, _, hs, hc⟩
        cases bs with
        | nil =>
          simp only [Machine.Tree.descend, Option.some.injEq] at hd
          subst hd
          exact ⟨hs.symm, by simpa [pathValue] using hc⟩
        | cons d bs => simp [Machine.Tree.descend, hk] at hd
    · rename_i hk
      split at h
      · rename_i xs1 ys1 hx hy
        simp only [Option.some.injEq] at h
        subst h
        have side : ∀ (d : Bool) (zs : List (Byte × Code)),
            (if (nodeAt t.node n).child d = nil then some []
              else leafCodes t.node fuel ((nodeAt t.node n).child d) (l + 1) (2 * v + d.toNat)) = some zs →
            ((b, c) ∈ zs ↔ ∃ bs m, t.descend n (d :: bs) = some m ∧ (nodeAt t.node m).kind = .leaf ∧
              (nodeAt t.node m).sym = b ∧ c = ⟨BitVec.ofNat 8 (l + (d :: bs).length),
                BitVec.ofNat 255 (v * 2 ^ (d :: bs).length + pathValue (d :: bs))⟩) := by
          intro d zs hz
          split at hz
          · rename_i hc
            cases hz
            simp [Machine.Tree.descend, hk, hc]
          · rename_i hc
            rw [ih hz]
            have e1 : ∀ bs : List Bool, l + 1 + bs.length = l + (d :: bs).length := fun bs => by
              simp only [List.length_cons]; omega
            have e2 : ∀ bs : List Bool, (2 * v + d.toNat) * 2 ^ bs.length + pathValue bs =
                v * 2 ^ (d :: bs).length + pathValue (d :: bs) := fun bs => by
              rw [pathValue_cons, List.length_cons, pow_succ]; ring
            simp only [e1, e2, Machine.Tree.descend, hk, hc, if_false]
        have h0 := side false xs1 (by simpa [Node.child] using hx)
        have h1 := side true ys1 (by simpa [Node.child] using hy)
        rw [List.mem_append, h0, h1]
        constructor
        · rintro (⟨bs, r⟩ | ⟨bs, r⟩)
          · exact ⟨false :: bs, r⟩
          · exact ⟨true :: bs, r⟩
        · rintro ⟨bs, m, hd, hm, r⟩
          cases bs with
          | nil =>
            simp only [Machine.Tree.descend, Option.some.injEq] at hd
            subst hd
            rw [hk] at hm
            cases hm
          | cons d bs =>
            cases d
            · exact .inl ⟨bs, m, hd, hm, r⟩
            · exact .inr ⟨bs, m, hd, hm, r⟩
      · cases h

/-! ## The table of the entries -/

/-- A table set from entries that agree on each symbol holds each entry, and nothing where there is none (R102). -/
theorem symGet_codeTableOf {xs : List (Byte × Code)}
    (hf : ∀ b c c', (b, c) ∈ xs → (b, c') ∈ xs → c = c') (b : Byte) :
    (∀ c, (b, c) ∈ xs → symGet (codeTableOf xs) b = c) ∧
      ((∀ c, (b, c) ∉ xs) → symGet (codeTableOf xs) b = Code.empty) := by
  have key : ∀ (ys : List (Byte × Code)) (tab : Vector Code 256),
      (∀ c, (b, c) ∈ ys → (∀ c', (b, c') ∈ ys → c' = c) →
        symGet (ys.foldl (fun c x => symSet c x.1 x.2) tab) b = c) ∧
      ((∀ c, (b, c) ∉ ys) → symGet (ys.foldl (fun c x => symSet c x.1 x.2) tab) b = symGet tab b) := by
    intro ys
    induction ys with
    | nil => intro tab; simp
    | cons y ys ih =>
      intro tab
      simp only [List.foldl_cons]
      obtain ⟨ih1, ih2⟩ := ih (symSet tab y.1 y.2)
      constructor
      · intro c hc hu
        by_cases hin : ∃ c', (b, c') ∈ ys
        · obtain ⟨c', hc'⟩ := hin
          have he := hu c' (List.mem_cons_of_mem _ hc')
          subst he
          exact ih1 c' hc' (fun c'' h'' => hu c'' (List.mem_cons_of_mem _ h''))
        · have hn : ∀ c', (b, c') ∉ ys := fun c' h' => hin ⟨c', h'⟩
          rw [ih2 hn]
          rcases List.mem_cons.mp hc with he | he
          · rw [← he]; simp
          · exact absurd he (hn c)
      · intro hn
        rw [ih2 (fun c hc => hn c (List.mem_cons_of_mem _ hc))]
        exact symGet_symSet_other _ _ (fun he => hn y.2 (by rw [he]; simp))
  obtain ⟨h1, h2⟩ := key xs (Vector.replicate 256 Code.empty)
  exact ⟨fun c hc => h1 c hc (fun c' hc' => hf b c' c hc' hc), fun hn => by
    have := h2 hn
    rwa [symGet_replicate] at this⟩

theorem foldl_max_ge (xs : List Code) (m : Nat) : m ≤ xs.foldl (fun m x => max m x.len.toNat) m ∧
    (∀ x ∈ xs, x.len.toNat ≤ xs.foldl (fun m x => max m x.len.toNat) m) ∧
    (xs.foldl (fun m x => max m x.len.toNat) m = m ∨ ∃ x ∈ xs, xs.foldl (fun m x => max m x.len.toNat) m = x.len.toNat) := by
  induction xs generalizing m with
  | nil => simp
  | cons y ys ih =>
    obtain ⟨h1, h2, h3⟩ := ih (max m y.len.toNat)
    simp only [List.foldl_cons]
    refine ⟨by omega, fun x hx => ?_, ?_⟩
    · rcases List.mem_cons.mp hx with rfl | hx
      · omega
      · exact h2 x hx
    · rcases h3 with h3 | ⟨x, hx, h3⟩
      · rcases Nat.le_total m y.len.toNat with hle | hle
        · exact .inr ⟨y, by simp, by rw [h3, max_eq_right hle]⟩
        · exact .inl (by rw [h3, max_eq_left hle])
      · exact .inr ⟨x, by simp [hx], h3⟩

/-- MAX_CODE_LEN is the longest length in the table (R33, R102). -/
theorem maxCodeLen_spec (c : Vector Code 256) : (∀ b : Byte, (symGet c b).len.toNat ≤ (maxCodeLen c).toNat) ∧
    ∃ b : Byte, (symGet c b).len = maxCodeLen c := by
  obtain ⟨_, h2, h3⟩ := foldl_max_ge c.toList 0
  have hlt : c.toList.foldl (fun m x => max m x.len.toNat) 0 < 256 := by
    rcases h3 with h3 | ⟨x, _, h3⟩
    · omega
    · have := x.len.isLt; omega
  have hm : (maxCodeLen c).toNat = c.toList.foldl (fun m x => max m x.len.toNat) 0 := by
    simp only [maxCodeLen, BitVec.toNat_ofNat]
    omega
  have hge : ∀ b : Byte, (symGet c b).len.toNat ≤ (maxCodeLen c).toNat := fun b => by
    rw [hm]
    exact h2 _ (by simp [symGet])
  refine ⟨hge, ?_⟩
  rcases h3 with h3 | ⟨x, hx, h3⟩
  · refine ⟨0, BitVec.eq_of_toNat_eq ?_⟩
    have := hge 0
    omega
  · obtain ⟨i, hi, rfl⟩ := List.mem_iff_getElem.mp hx
    have hi' : i < 256 := by simpa using hi
    refine ⟨BitVec.ofNat 8 i, BitVec.eq_of_toNat_eq ?_⟩
    rw [hm, h3]
    simp only [symGet, BitVec.toNat_ofNat, Nat.mod_eq_of_lt (show i < 2 ^ 8 from hi'), Vector.getElem_toList]

/-- The table of a tree of BUILD's shape holds its path codes (R100, R102). -/
theorem TreeShape.pathCodes (h : TreeShape t) {xs : List (Byte × Code)}
    (hx : leafCodes t.node 512 t.root 0 0 = some xs) :
    PathCodes t ⟨true, maxCodeLen (codeTableOf xs), codeTableOf xs⟩ := by
  have hmem := mem_leafCodes hx
  have hfun : ∀ b c c', (b, c) ∈ xs → (b, c') ∈ xs → c = c' := by
    intro b c c' h1 h2
    obtain ⟨bs, m, hd, hk, hs, rfl⟩ := (hmem b c).mp h1
    obtain ⟨bs', m', hd', hk', hs', rfl⟩ := (hmem b c').mp h2
    rw [h.pathTo_unique ⟨m, hd, hk, hs⟩ ⟨m', hd', hk', hs'⟩]
  refine ⟨fun bs b hp => ?_, fun b hb => ?_, maxCodeLen_spec _⟩
  · obtain ⟨h1, h2⟩ := h.pathTo_length hp
    obtain ⟨m, hd, hk, hs⟩ := hp
    refine ⟨h1, h2, (symGet_codeTableOf hfun b).1 _ ?_⟩
    exact (hmem b _).mpr ⟨bs, m, hd, hk, hs, by simp⟩
  · refine (symGet_codeTableOf hfun b).2 (fun c hc => ?_)
    obtain ⟨bs, m, hd, hk, hs, _⟩ := (hmem b c).mp hc
    have := (h.pathTo_iff b).mp ⟨bs, m, hd, hk, hs⟩
    rw [hb] at this
    cases this

/-- The code string of a leaf is its path (R105). -/
theorem PathCodes.string_eq {c : Codes} (h : PathCodes t c) {bs : List Bool} {b : Byte} (hp : t.pathTo bs b) :
    (symGet c.entry b).string = bs := by
  obtain ⟨h1, h2, h3⟩ := h.leaf_code bs b hp
  have hl : (BitVec.ofNat 8 bs.length).toNat = bs.length := by
    rw [BitVec.toNat_ofNat]
    omega
  rw [h3]
  simp only [Code.string, hl]
  apply List.ext_getElem
  · simp
  · intro j hj hj'
    simp only [List.getElem_map, List.getElem_range, BitVec.getLsbD_ofNat]
    rw [pathValue_testBit bs j hj', decide_eq_true (by omega), Bool.true_and]

end Sys2Proof
end

