-- ==== Sys2Proof/Laws/Walk.lean ====
section
/-! SUPPORT. The walk of DECODE over whole codes, and the ways it ends in an error (R112 to R114, R116). -/

namespace Sys2Proof

open Machine

variable {t : Tree} {size dst : Nat}

/-- Bits that lead from an Internal node to another are walked without output (R112). -/
theorem walk_inside {q bs : List Bool} {i n d : Nat} {pos m : NodeIx} (h : t.descend pos q = some m)
    (hm : (nodeAt t.node m).kind = .internal) :
    walk t size dst (q ++ bs) i n pos d = walk t size dst bs (i + q.length) n m (d + q.length) := by
  induction q generalizing i pos d with
  | nil =>
    cases h
    rfl
  | cons b q ih =>
    rw [Machine.Tree.descend] at h
    split at h
    · cases h
    · split at h
      · cases h
      · rename_i hc
        have hk : (nodeAt t.node ((nodeAt t.node pos).child b)).kind = .internal := by
          cases q with
          | nil =>
            cases h
            exact hm
          | cons c q =>
            rw [Machine.Tree.descend] at h
            split at h
            · cases h
            · assumption
        rw [List.cons_append, walk, if_neg hc, hk]
        simp only
        rw [ih h, List.length_cons]
        congr 1 <;> omega

/-- Bits that lead from an Internal node to a Leaf emit its symbol and return to ROOT, if its byte has room (R112, R116). -/
theorem walk_leaf {q bs : List Bool} {i n d : Nat} {pos m : NodeIx} (h : t.descend pos q = some m)
    (hm : (nodeAt t.node m).kind = .leaf) (hq : q ≠ []) :
    walk t size dst (q ++ bs) i n pos d =
      if dst + n + 1 > size then .error ⟨.addressRange, 1⟩
      else
        match walk t size dst bs (i + q.length) (n + 1) t.root 0 with
        | .ok out  => .ok ((nodeAt t.node m).sym :: out)
        | .error e => .error e := by
  induction q generalizing i pos d with
  | nil => exact absurd rfl hq
  | cons b q ih =>
    rw [Machine.Tree.descend] at h
    split at h
    · cases h
    · split at h
      · cases h
      · rename_i hc
        cases q with
        | nil =>
          cases h
          rw [List.cons_append, walk, if_neg hc, hm]
          rfl
        | cons c q =>
          have hk : (nodeAt t.node ((nodeAt t.node pos).child b)).kind = .internal := by
            rw [Machine.Tree.descend] at h
            split at h
            · cases h
            · assumption
          rw [List.cons_append, walk, if_neg hc, hk]
          simp only
          rw [ih h (by simp), List.length_cons (a := b)]
          simp only [Nat.add_assoc, Nat.add_comm 1]

/-- Whole codes are walked to their symbols, one after another, if they have room (R112, R116). -/
theorem walk_whole {ps : List (List Bool × Byte)} {bs : List Bool} {i n : Nat} (hw : WholeCodes t ps)
    (hf : ps = [] ∨ dst + n + ps.length ≤ size) :
    walk t size dst (ps.flatMap Prod.fst ++ bs) i n t.root 0 =
      match walk t size dst bs (i + (ps.flatMap Prod.fst).length) (n + ps.length) t.root 0 with
      | .ok out  => .ok (ps.map Prod.snd ++ out)
      | .error e => .error e := by
  induction ps generalizing i n with
  | nil =>
    simp only [List.flatMap_nil, List.nil_append, List.length_nil, Nat.add_zero, List.map_nil]
    cases walk t size dst bs i n t.root 0 <;> rfl
  | cons p ps ih =>
    obtain ⟨hq, m, hd, hk, hs⟩ := hw p (by simp)
    have hfit : dst + n + (ps.length + 1) ≤ size := by
      rcases hf with hf | hf
      · cases hf
      · simpa using hf
    rw [List.flatMap_cons, List.append_assoc, walk_leaf hd hk hq, if_neg (by omega),
      ih (fun x hx => hw x (by simp [hx])) (.inr (by omega)), hs]
    simp only [List.length_append, List.length_cons, List.map_cons, List.cons_append]
    rw [show i + p.1.length + (ps.flatMap Prod.fst).length = i + (p.1.length + (ps.flatMap Prod.fst).length) by omega,
      show n + 1 + ps.length = n + (ps.length + 1) by omega]
    cases walk t size dst bs (i + (p.1.length + (ps.flatMap Prod.fst).length)) (n + (ps.length + 1)) t.root 0 <;> rfl

/-- A walk that has used up its bits ends at ROOT (R114). -/
theorem walk_end {i n : Nat} {pos : NodeIx} : walk t size dst [] i n pos 0 = .ok [] := rfl

/-- A walk gives at most one symbol for each bit (R116: "OUT_LEN ≤ BITS"). -/
theorem walk_length_le {bs : List Bool} {i n d : Nat} {pos : NodeIx} {out : List Byte}
    (h : walk t size dst bs i n pos d = .ok out) : out.length ≤ bs.length := by
  induction bs generalizing i n d pos out with
  | nil =>
    rw [walk] at h
    split at h
    · cases h; simp
    · cases h
  | cons b bs ih =>
    rw [walk] at h
    split at h
    · cases h
    · split at h
      · split at h
        · cases h
        · split at h
          · rename_i hr
            cases h
            have := ih hr
            simp only [List.length_cons]
            omega
          · cases h
      · have := ih h
        simp only [List.length_cons]
        omega

/-- The errors of a walk (R116, R121). -/
theorem walk_error {bs : List Bool} {i n d : Nat} {pos : NodeIx} {e : ErrReport}
    (h : walk t size dst bs i n pos d = .error e) :
    e = ⟨.addressRange, 1⟩ ∨ ∃ j, i ≤ j ∧ j ≤ i + bs.length ∧ e = ⟨.corruptStream, infoOf j⟩ := by
  induction bs generalizing i n d pos with
  | nil =>
    rw [walk] at h
    split at h
    · cases h
    · cases h
      exact .inr ⟨i, le_rfl, by simp, rfl⟩
  | cons b bs ih =>
    rw [walk] at h
    split at h
    · cases h
      exact .inr ⟨i, le_rfl, by simp, rfl⟩
    · split at h
      · split at h
        · cases h
          exact .inl rfl
        · split at h
          · cases h
          · rename_i hr
            cases h
            rcases ih hr with he | ⟨j, h1, h2, he⟩
            · exact .inl he
            · exact .inr ⟨j, by omega, by simp only [List.length_cons]; omega, he⟩
      · rcases ih h with he | ⟨j, h1, h2, he⟩
        · exact .inl he
        · exact .inr ⟨j, by omega, by simp only [List.length_cons]; omega, he⟩

/-- LEAFSET and EXPSET agree where no least difference is found (R115). -/
theorem leastDifference_none {x y : BitVec 256} : leastDifference x y = none ↔ x = y := by
  rw [leastDifference, List.find?_eq_none]
  constructor
  · intro h
    apply BitVec.eq_of_getLsbD_eq
    intro k hk
    have := h k (List.mem_range.mpr hk)
    simpa using this
  · rintro rfl k _
    simp

/-- "the least symbol s whose bits differ" (R115). -/
theorem leastDifference_some {x y : BitVec 256} {k : Nat} : leastDifference x y = some k ↔
    k < 256 ∧ x.getLsbD k ≠ y.getLsbD k ∧ ∀ j, j < k → x.getLsbD j = y.getLsbD j := by
  rw [leastDifference, List.find?_range_eq_some]
  constructor
  · rintro ⟨h1, h2, h3⟩
    exact ⟨by simpa using h2, by simpa using h1, fun j hj => by simpa using h3 j hj⟩
  · rintro ⟨h1, h2, h3⟩
    exact ⟨by simpa using h2, by simpa using h1, fun j hj => by simpa using h3 j hj⟩

/-- Whole codes have at least one bit each. -/
theorem WholeCodes.length_le {ps : List (List Bool × Byte)} (h : WholeCodes t ps) :
    ps.length ≤ (ps.flatMap Prod.fst).length := by
  induction ps with
  | nil => simp
  | cons x ps ih =>
    have := ih (fun y hy => h y (by simp [hy]))
    have := List.length_pos_iff.mpr (h x (by simp)).1
    simp only [List.length_cons, List.flatMap_cons, List.length_append]
    omega

/-- DECODE takes BITS bits (R112). -/
@[simp] theorem streamOf_length (s : State) (o : Operands) : (streamOf s o).length = o.bits.toNat := by
  simp [streamOf]

/-- A DECODE whose checks before the walk all pass is the walk over its stream (R116). -/
theorem exec_decode_ready {i : Instr} {s : State} {p : Pend} (h : DecodeReady i s p.ops) (hp : s.pend = some p) :
    exec i s = s.complete true
      (match walk s.tree s.mem.size p.ops.dst.toNat (streamOf s p.ops) 0 0 s.tree.root 0 with
      | .error e => .fail e
      | .ok out =>
        .done { s with
          mem := s.mem.writeBytes p.ops.dst.toNat out
          out := ⟨BitVec.ofNat 32 out.length, p.ops.bits⟩ }) := by
  obtain ⟨h1, h2, h3, h4⟩ := h
  have hr : s.mem.rangeOk p.ops.src.toNat p.ops.len.toNat = true := decide_eq_true h4
  rcases h1 with rfl | ⟨rfl, h1⟩
  · show s.runPending true (decodeCommand false s) = _
    rw [State.runPending_some hp, decodeCommand, if_pos h2]
    simp only [decodeStream, Bool.false_eq_true, if_false]
    rw [if_pos (show _ = ceil8 _ from h3), if_pos hr]
    rfl
  · show s.runPending true (decodeCommand true s) = _
    rw [State.runPending_some hp, decodeCommand, if_pos h2, if_pos rfl,
      show leastDifference s.tree.leafset s.expset = none from leastDifference_none.mpr h1]
    simp only [decodeStream]
    rw [if_pos (show _ = ceil8 _ from h3), if_pos hr]
    rfl

end Sys2Proof
end

