-- ==== Sys2Proof/Laws/Outcome.lean ====
section
/-! SUPPORT. The checks of a command in their order (R79, R121) against the passes of COUNT, ENCODE and DECODE: the first
check that fails is the error the pass meets, and each command's result is the outcome its checks give. -/

namespace Sys2Proof

open Machine

/-- The error of a pass, if it meets one. -/
def errorOf {ε α : Type} : Except ε α → Option ε
  | .ok _    => none
  | .error e => some e

@[simp] theorem errorOf_ok {ε α : Type} (a : α) : errorOf (.ok a : Except ε α) = none := rfl

@[simp] theorem errorOf_error {ε α : Type} (e : ε) : errorOf (.error e : Except ε α) = some e := rfl

@[simp] theorem firstError_nil : firstError [] = none := rfl

@[simp] theorem firstError_cons (c : Check) (cs : List Check) :
    firstError (c :: cs) = if c.fails then some c.report else firstError cs := by
  rw [firstError, List.find?_cons]
  cases h : c.fails <;> simp [firstError]

@[simp] theorem firstError_append (cs ds : List Check) :
    firstError (cs ++ ds) = (firstError cs).or (firstError ds) := by
  induction cs with
  | nil => rfl
  | cons c cs ih =>
    rw [List.cons_append, firstError_cons, firstError_cons, ih]
    cases c.fails <;> simp

/-- A list of checks by position is the check of its first element and those of the rest (R79). -/
theorem range_flatMap_succ {α : Type} (n : Nat) (f : Nat → List α) :
    (List.range (n + 1)).flatMap f = f 0 ++ (List.range n).flatMap (fun k => f (k + 1)) := by
  rw [List.range_succ_eq_map, List.flatMap_cons, List.flatMap_map]

theorem range_map_succ {α : Type} (n : Nat) (f : Nat → α) :
    (List.range (n + 1)).map f = f 0 :: (List.range n).map (fun k => f (k + 1)) := by
  rw [List.range_succ_eq_map, List.map_cons, List.map_map]
  rfl

/-- COUNT's pass fails at the first byte, in input order, whose count would pass 2^32 − 1 (R86, R121). -/
theorem countBytes_firstError (bs : List Byte) (f : FreqTable) :
    firstError ((List.range bs.length).map (fun k =>
      ⟨decide (2 ^ 32 ≤ (symGet f (bs.getD k 0)).toNat + (bs.take k).count (bs.getD k 0) + 1),
        ⟨.countOverflow, (bs.getD k 0).setWidth 32⟩⟩)) =
      (errorOf (countBytes bs f)).map (fun b => ⟨.countOverflow, infoOf b.toNat⟩) := by
  induction bs generalizing f with
  | nil => rfl
  | cons c bs ih =>
    rw [List.length_cons, range_map_succ, firstError_cons, countBytes]
    have hlt := (symGet f c).isLt
    by_cases hc : symGet f c = 0xFFFFFFFF#32
    · rw [if_pos hc, if_pos (by simp [hc])]
      simp only [List.getD_cons_zero, infoOf, BitVec.ofNat_toNat, errorOf_error, Option.map_some]
    · have hne : (symGet f c).toNat ≠ 2 ^ 32 - 1 := fun h => hc (BitVec.eq_of_toNat_eq h)
      rw [if_neg hc, if_neg (by simp; omega), ← ih]
      congr 1
      refine List.map_congr_left fun k hk => ?_
      simp only [List.getD_cons_succ, List.take_succ_cons, symGet_symSet]
      generalize bs.getD k 0 = b
      by_cases hb : b = c
      · subst hb
        have : (symGet f b + 1#32).toNat = (symGet f b).toNat + 1 := by
          rw [BitVec.toNat_add]; simp; omega
        simp [this]; omega
      · simp [hb, List.count_cons_of_ne (Ne.symm hb)]

/-- ENCODE's pass fails at the first byte, in input order, that has no code (R107, R121). -/
theorem encodeBits_firstError (c : Vector Code 256) (bs : List Byte) (j : Nat) :
    firstError ((List.range bs.length).map (fun k =>
      ⟨decide ((symGet c (bs.getD k 0)).len = 0), ⟨.encodingConsistency, BitVec.ofNat 32 (j + k)⟩⟩)) =
      (errorOf (encodeBits c j bs)).map (fun k => ⟨.encodingConsistency, infoOf k⟩) := by
  induction bs generalizing j with
  | nil => rfl
  | cons b bs ih =>
    rw [List.length_cons, range_map_succ, firstError_cons, encodeBits]
    by_cases hb : (symGet c b).len = 0#8
    · simp [hb, infoOf]
    · rw [if_neg hb, if_neg (by simpa using hb)]
      simp only [List.getD_cons_succ, ← Nat.add_assoc, Nat.add_right_comm j _ 1]
      rw [ih (j + 1)]
      cases encodeBits c (j + 1) bs <;> rfl

/-- DECODE's walk fails at the first check that fails, bit by bit and then at the end (R113, R114, R116, R121). -/
theorem walk_firstError (t : Tree) (size dst : Nat) (bs : List Bool) (j : Nat) (w : WalkState) :
    firstError ((List.range bs.length).flatMap (fun i =>
        bitChecks t size dst (j + i) ((bs.take i).foldl (WalkState.take t) w) (bs.getD i false)) ++
      [⟨(bs.foldl (WalkState.take t) w).depth != 0, ⟨.corruptStream, BitVec.ofNat 32 (j + bs.length)⟩⟩]) =
      errorOf (walk t size dst bs j w.emitted w.pos w.depth) := by
  induction bs generalizing j w with
  | nil =>
    simp only [List.length_nil, List.range_zero, List.flatMap_nil, List.nil_append, firstError_cons, firstError_nil, walk,
      List.foldl_nil, Nat.add_zero]
    by_cases h : w.depth = 0 <;> simp [h, infoOf]
  | cons b bs ih =>
    have key := ih (j + 1) (w.take t b)
    rw [List.length_cons, range_flatMap_succ, List.append_assoc, firstError_append]
    simp only [List.getD_cons_succ, List.take_succ_cons, List.foldl_cons,
      ← Nat.add_assoc, Nat.add_right_comm j _ 1, List.take_zero, List.foldl_nil, List.getD_cons_zero, Nat.add_zero]
    rw [key, walk]
    simp only [bitChecks, firstError_cons, firstError_nil, decide_eq_true_eq, Bool.and_eq_true]
    rw [show (nodeAt t.node w.pos).child b = w.child t b from rfl]
    by_cases hn : w.child t b = nil
    · simp [hn, infoOf]
    · rw [if_neg hn, if_neg hn]
      cases hk : (nodeAt t.node (w.child t b)).kind with
      | internal => simp [WalkState.take, hk]
      | leaf =>
        by_cases hd : size < dst + w.emitted + 1
        · simp [hd]
        · simp only [WalkState.take, hk, hd, and_false, if_false, Option.none_or]
          cases walk t size dst bs (j + 1) (w.emitted + 1) t.root 0 <;> rfl

/-- A command's result agrees with the error its checks give: none when it succeeds, that error when it fails. -/
def Machine.CmdResult.Says (r : CmdResult) (e : Option ErrReport) : Prop :=
  match r with
  | .done _ => e = none
  | .fail x => e = some x ∧ x.code ≠ .ok
  | .hang => True

/-- Completion with such a result writes the outcome to ERRCODE and ERRINFO and sets EVENT.DONE or EVENT.ERR (R77). -/
theorem runPending_says {s t : State} {p : Pend} {z : Bool} {f : Pend → CmdResult} {e : Option ErrReport}
    (hp : s.pend = some p) (h : s.runPending z f = .next t) (hs : CmdResult.Says (f p) e)
    (hev : ∀ u, f p = .done u → u.event = s.event) :
    t.pend = none ∧ t.err = e.getD ⟨.ok, 0⟩ ∧
      t.event = if (e.getD ⟨.ok, 0⟩).code = .ok then { s.event with done := true } else { s.event with err := true } := by
  rw [State.runPending_some hp] at h
  cases hr : f p with
  | done u =>
    rw [hr] at h hs; cases h; cases hs
    simp [State.succeed, hev u hr]
  | fail x =>
    rw [hr] at h hs; cases h; obtain ⟨rfl, hne⟩ := hs
    simp [hne]
  | hang => rw [hr] at h; cases h

theorem inputBytes_eq_inputOf (s : State) (o : Operands) : o.inputBytes s.mem = inputOf s o := rfl
@[simp] theorem inputOf_length (s : State) (o : Operands) : (inputOf s o).length = o.len.toNat := by simp [inputOf]
theorem inputOf_getD (s : State) (o : Operands) (k : Nat) (h : k < o.len.toNat) :
    (inputOf s o).getD k 0 = s.mem.read (o.src.toNat + k) := by
  simp [inputOf, List.getD_eq_getElem?_getD, h]

theorem range_check (s : State) (a l : Nat) : decide (s.mem.size < a + l) = !decide (a + l ≤ s.mem.size) := by
  rw [← decide_not]; simp

/-! ## Each command's result is its first failing check -/

theorem countAcc_says (s : State) (p : Pend) : 
    CmdResult.Says (countCommand true s p)
      (firstError (checksOf s p.ops .countAcc)) := by
  have := countBytes_firstError (inputOf s p.ops) s.freq
  rw [inputOf_length] at this
  have key : firstError ((List.range p.ops.len.toNat).map (fun k =>
        let b := s.mem.read (p.ops.src.toNat + k)
        (⟨decide (2 ^ 32 ≤ (symGet s.freq b).toNat + ((inputOf s p.ops).take k).count b + 1),
          ⟨.countOverflow, b.setWidth 32⟩⟩ : Check))) =
      (errorOf (countBytes (inputOf s p.ops) s.freq)).map (fun b => ⟨.countOverflow, infoOf b.toNat⟩) := by
    rw [← this]
    congr 1
    refine List.map_congr_left fun k hk => ?_
    rw [inputOf_getD s p.ops k (by simpa using hk)]
  simp only [checksOf, firstError_cons, countCommand, Memory.rangeOk, range_check]
  by_cases hr : p.ops.src.toNat + p.ops.len.toNat ≤ s.mem.size
  · simp only [decide_eq_true hr, Bool.not_true, if_true, Bool.false_eq_true, if_false]
    rw [key, inputBytes_eq_inputOf]
    cases countBytes (inputOf s p.ops) s.freq <;> simp [CmdResult.Says]
  · simp [hr, CmdResult.Says]

theorem count_says (s : State) (p : Pend) : 
    CmdResult.Says (countCommand false s p)
      (firstError (checksOf s p.ops .count)) := by
  simp only [checksOf, firstError_cons, firstError_nil, countCommand, Memory.rangeOk, range_check]
  by_cases hr : p.ops.src.toNat + p.ops.len.toNat ≤ s.mem.size
  · obtain ⟨g, hg⟩ := countBytes_isOk (bs := inputOf s p.ops) (f := FreqTable.empty) (fun b => by
      have := List.count_le_length (a := b) (l := inputOf s p.ops)
      rw [inputOf_length] at this
      have := p.ops.len.isLt
      simp; omega)
    rw [inputBytes_eq_inputOf]
    simp [hr, hg, CmdResult.Says]
  · simp [hr, CmdResult.Says]

theorem build_says (s : State) (p : Pend) : 
    CmdResult.Says (buildCommand s p)
      (firstError (checksOf s p.ops .build)) := by
  have : presentSymbols s.freq = [] ↔ (List.range 256).all (fun k => symGet s.freq (BitVec.ofNat 8 k) == 0) = true := by
    simp [presentSymbols, List.filter_eq_nil_iff]
  simp only [checksOf, firstError_cons, firstError_nil, buildCommand]
  by_cases h : presentSymbols s.freq = []
  · rw [if_pos h, if_pos (this.mp h)]; simp [CmdResult.Says]
  · rw [if_neg h, if_neg (fun x => h (this.mpr x))]; simp [CmdResult.Says]

theorem gencode_says (s : State) (p : Pend) : 
    CmdResult.Says (gencodeCommand s p)
      (firstError (checksOf s p.ops .gencode)) := by
  simp only [checksOf, firstError_cons, firstError_nil, gencodeCommand]
  cases s.tree.valid
  · simp [CmdResult.Says]
  · cases h : leafCodes s.tree.node 512 s.tree.root 0 0 <;> simp [CmdResult.Says]

theorem encode_says (s : State) (p : Pend) : 
    CmdResult.Says (encodeCommand s p)
      (firstError (checksOf s p.ops .encode)) := by
  have := encodeBits_firstError s.codes.entry (inputOf s p.ops) 0
  rw [inputOf_length] at this
  have key : firstError ((List.range p.ops.len.toNat).map (fun k =>
      (⟨decide ((symGet s.codes.entry (s.mem.read (p.ops.src.toNat + k))).len = 0),
        ⟨.encodingConsistency, BitVec.ofNat 32 k⟩⟩ : Check))) =
      (errorOf (encodeBits s.codes.entry 0 (inputOf s p.ops))).map (fun k => ⟨.encodingConsistency, infoOf k⟩) := by
    rw [← this]
    congr 1
    refine List.map_congr_left fun k hk => ?_
    rw [inputOf_getD s p.ops k (by simpa using hk), Nat.zero_add]
  simp only [checksOf, firstError_append, firstError_cons, firstError_nil, encodeCommand, Memory.rangeOk, range_check, key]
  cases s.codes.valid
  · simp [CmdResult.Says]
  by_cases hr : p.ops.src.toNat + p.ops.len.toNat ≤ s.mem.size
  swap
  · simp [hr, CmdResult.Says]
  by_cases hl : p.ops.len = 0#32
  · have hr' : p.ops.src.toNat ≤ s.mem.size := by omega
    simp [hr', hl, CmdResult.Says]
  rw [inputBytes_eq_inputOf]
  cases hb : encodeBits s.codes.entry 0 (inputOf s p.ops) with
  | error k => simp [hr, hl, CmdResult.Says]
  | ok bits =>
    obtain ⟨_, rfl⟩ := encodeBits_ok_iff.mp hb
    simp only [string_flatMap_length, ceil8]
    by_cases ho : p.ops.dst.toNat +
        (((inputOf s p.ops).map (fun b => (symGet s.codes.entry b).len.toNat)).sum + 7) / 8 ≤ s.mem.size <;>
      simp [hr, hl, ho, CmdResult.Says]

theorem decodeStream_says (s : State) (p : Pend) : 
    CmdResult.Says (decodeStream s p)
      (firstError (decodeChecks s p.ops)) := by
  have := walk_firstError s.tree s.mem.size p.ops.dst.toNat (streamOf s p.ops) 0 ⟨0, s.tree.root, 0⟩
  simp only [streamOf_length, Nat.zero_add, BitVec.ofNat_toNat, BitVec.setWidth_eq] at this
  simp only [decodeChecks, List.append_assoc, firstError_append (_ :: _), firstError_cons, firstError_nil, decodeStream,
    Memory.rangeOk, range_check, walkAfter, this]
  by_cases hl : p.ops.len.toNat = (p.ops.bits.toNat + 7) / 8
  swap
  · simp [ceil8, hl, CmdResult.Says]
  by_cases hr : p.ops.src.toNat + p.ops.len.toNat ≤ s.mem.size
  swap
  · simp only [ceil8, if_pos hl, hr, decide_false]; simp [hl, CmdResult.Says]
  rw [show Operands.stream p.ops s.mem = streamOf s p.ops from rfl]
  simp only [ceil8, if_pos hl, hr, decide_true, if_true]
  cases hw : walk s.tree s.mem.size p.ops.dst.toNat (streamOf s p.ops) 0 0 s.tree.root 0 with
  | ok out => simp [hl, CmdResult.Says]
  | error e =>
    rcases walk_error hw with rfl | ⟨j, _, _, rfl⟩ <;> simp [hl, CmdResult.Says]

theorem tree_check (x y : BitVec 256) : firstError ((List.range 256).map (fun k =>
    ⟨x.getLsbD k != y.getLsbD k, ⟨.treeMismatch, BitVec.ofNat 32 k⟩⟩)) =
    (leastDifference x y).map (fun k => ⟨.treeMismatch, infoOf k⟩) := by
  rw [firstError, List.find?_map, Option.map_map]
  rfl

theorem decode_says (s : State) (p : Pend) : 
    CmdResult.Says (decodeCommand false s p)
      (firstError (checksOf s p.ops .decode)) := by
  simp only [checksOf, firstError_cons, decodeCommand]
  cases s.tree.valid
  · simp [CmdResult.Says]
  · simpa using decodeStream_says s p

theorem decodeChk_says (s : State) (p : Pend) : 
    CmdResult.Says (decodeCommand true s p)
      (firstError (checksOf s p.ops .decodeChk)) := by
  simp only [checksOf, List.cons_append, firstError_append, firstError_cons, decodeCommand, tree_check]
  cases s.tree.valid
  · simp [CmdResult.Says]
  · cases h : leastDifference s.tree.leafset s.expset with
    | none => simpa [h] using decodeStream_says s p
    | some k => simp [CmdResult.Says]

end Sys2Proof
end

