-- ==== Sys2Proof/Laws/PerInstr.lean ====
section
/-! SUPPORT. Statements about every command as syntax, one lemma per constructor. -/

namespace Sys2Proof.Laws.Encoding

/-- A command is listed, its fields are well formed, and its word has exactly those fields (R66, R67, R68). -/
def Statement (i : Instr) : Prop :=
  i ∈ Instr.all ∧ i.wellFormed = true ∧ splitWord (encode i) = i.fields

theorem nop : Statement .nop := ⟨by decide, rfl, rfl⟩

theorem clrf : Statement .clrf := ⟨by decide, rfl, rfl⟩

theorem count : Statement .count := ⟨by decide, rfl, rfl⟩

theorem countAcc : Statement .countAcc := ⟨by decide, rfl, rfl⟩

theorem build : Statement .build := ⟨by decide, rfl, rfl⟩

theorem gencode : Statement .gencode := ⟨by decide, rfl, rfl⟩

theorem encode : Statement .encode := ⟨by decide, rfl, rfl⟩

theorem decode : Statement .decode := ⟨by decide, rfl, rfl⟩

theorem decodeChk : Statement .decodeChk := ⟨by decide, rfl, rfl⟩

end Sys2Proof.Laws.Encoding
end

