-- ==== Sys2Proof/Laws/Traversal.lean ====
section
/-! SUPPORT. The depth-first traversal of GENCODE (R102, R104): what one subtree adds to the rule's explicit stack, and that more
fuel changes nothing. -/

namespace Sys2Proof.Machine

variable {t : Vector Node 511}

/-- More fuel gives the same entries. -/
theorem leafCodes_mono {fuel : Nat} {n : NodeIx} {l v : Nat} {xs : List (Byte × Code)}
    (h : leafCodes t fuel n l v = some xs) : leafCodes t (fuel + 1) n l v = some xs := by
  induction fuel generalizing n l v xs with
  | zero => cases h
  | succ fuel ih =>
    rw [leafCodes] at h ⊢
    split at h
    · exact h
    · split at h
      · rename_i ys zs hy hz
        have side : ∀ (m : NodeIx) (v' : Nat) (ws : List (Byte × Code)),
            (if m = nil then some [] else leafCodes t fuel m (l + 1) v') = some ws →
            (if m = nil then some [] else leafCodes t (fuel + 1) m (l + 1) v') = some ws := by
          intro m v' ws hm
          split at hm
          · rw [if_pos (by assumption)]; exact hm
          · rw [if_neg (by assumption)]; exact ih hm
        rw [side _ _ _ hy, side _ _ _ hz]
        exact h
      · cases h

/-- Whether the traversal under a node ends does not depend on the path that led to it. -/
theorem leafCodes_isSome_iff (fuel : Nat) (n : NodeIx) (l v l' v' : Nat) :
    (leafCodes t fuel n l v).isSome = (leafCodes t fuel n l' v').isSome := by
  induction fuel generalizing n l v l' v' with
  | zero => rfl
  | succ fuel ih =>
    rw [leafCodes, leafCodes]
    split
    · rfl
    · have side : ∀ (m : NodeIx) (a b a' b' : Nat), (if m = nil then some [] else leafCodes t fuel m a b).isSome =
          (if m = nil then some [] else leafCodes t fuel m a' b').isSome := by
        intro m a b a' b'
        split
        · rfl
        · exact ih _ _ _ _ _
      have h1 := side (nodeAt t n).left (l + 1) (2 * v) (l' + 1) (2 * v')
      have h2 := side (nodeAt t n).right (l + 1) (2 * v + 1) (l' + 1) (2 * v' + 1)
      revert h1 h2
      generalize (if (nodeAt t n).left = nil then some [] else leafCodes t fuel (nodeAt t n).left (l + 1) (2 * v)) = a
      generalize (if (nodeAt t n).right = nil then some [] else leafCodes t fuel (nodeAt t n).right (l + 1) (2 * v + 1)) = b
      generalize (if (nodeAt t n).left = nil then some [] else leafCodes t fuel (nodeAt t n).left (l' + 1) (2 * v')) = c
      generalize (if (nodeAt t n).right = nil then some [] else leafCodes t fuel (nodeAt t n).right (l' + 1) (2 * v' + 1)) = d
      cases a <;> cases b <;> cases c <;> cases d <;> simp

/-- The rule's stack, after as many pops as the subtree has nodes, has set the subtree's entries and nothing else. -/
theorem stackTraverse_subtree {fuel : Nat} {n : NodeIx} {l v : Nat} {xs : List (Byte × Code)}
    (h : leafCodes t fuel n l v = some xs) : ∃ k, ∀ m stack c, stackTraverse t (k + m) ((n, l, v) :: stack) c =
      stackTraverse t m stack (xs.foldl (fun c x => symSet c x.1 x.2) c) := by
  induction fuel generalizing n l v xs with
  | zero => cases h
  | succ fuel ih =>
    rw [leafCodes] at h
    split at h
    · rename_i hk
      cases h
      refine ⟨1, fun m stack c => ?_⟩
      rw [Nat.add_comm 1 m, stackTraverse, hk]
      rfl
    · rename_i hk
      split at h
      · rename_i ys zs hy hz
        cases h
        have side : ∀ (m : NodeIx) (v' : Nat) (ws : List (Byte × Code)),
            (if m = nil then some [] else leafCodes t fuel m (l + 1) v') = some ws →
            ∃ k, ∀ j stack c, stackTraverse t (k + j) ((if m = nil then [] else [(m, l + 1, v')]) ++ stack) c =
              stackTraverse t j stack (ws.foldl (fun c x => symSet c x.1 x.2) c) := by
          intro m v' ws hm
          split at hm
          · rename_i hc
            cases hm
            refine ⟨0, fun j stack c => ?_⟩
            rw [if_pos hc, Nat.zero_add]
            rfl
          · rename_i hc
            obtain ⟨k, hk⟩ := ih hm
            refine ⟨k, fun j stack c => ?_⟩
            rw [if_neg hc]
            exact hk j stack c
        obtain ⟨k1, h1⟩ := side _ _ _ hy
        obtain ⟨k2, h2⟩ := side _ _ _ hz
        refine ⟨k1 + k2 + 1, fun m stack c => ?_⟩
        rw [show k1 + k2 + 1 + m = (k1 + (k2 + m)) + 1 by omega, stackTraverse, hk]
        simp only
        rw [List.append_assoc, h1, h2, List.foldl_append]
      · cases h

end Sys2Proof.Machine
end

