-- ==== Sys2Proof/Laws/TreeShape.lean ====
section
/-! SUPPORT. BUILD's tree has the shape of R96, and its Internal entries join the two least nodes (R91). -/

namespace Sys2Proof.Machine

/-! ## The symbols that occur (R89) -/

theorem mem_presentSymbols {f : FreqTable} {b : Byte} : b ∈ presentSymbols f ↔ symGet f b ≠ 0 := by
  simp only [presentSymbols, List.mem_filter, List.mem_map, List.mem_range, bne_iff_ne]
  exact ⟨fun h => h.2, fun h => ⟨⟨b.toNat, b.isLt, by simp⟩, h⟩⟩

theorem presentSymbols_rise (f : FreqTable) : (presentSymbols f).Pairwise (fun x y => x.toNat < y.toNat) := by
  apply List.Pairwise.filter
  rw [List.pairwise_map]
  refine (List.pairwise_lt_range (n := 256)).imp_of_mem ?_
  intro i j hi hj h
  simp only [List.mem_range] at hi hj
  simp only [BitVec.toNat_ofNat]
  omega

theorem presentSymbols_length (f : FreqTable) : (presentSymbols f).length ≤ 256 := by
  have := List.length_filter_le (fun b => symGet f b != 0#32) ((List.range 256).map (BitVec.ofNat 8))
  simpa [presentSymbols] using this

/-- The sum over the symbols that occur is the sum over all FREQ entries. -/
theorem sum_presentSymbols (f : FreqTable) (g : Byte → Nat) :
    ((presentSymbols f).map (fun b => (symGet f b).toNat * g b)).sum =
      ((List.range 256).map (fun k => (symGet f (BitVec.ofNat 8 k)).toNat * g (BitVec.ofNat 8 k))).sum := by
  have : ∀ l : List Byte, ((l.filter (fun b => symGet f b != 0#32)).map (fun b => (symGet f b).toNat * g b)).sum =
      (l.map (fun b => (symGet f b).toNat * g b)).sum := by
    intro l
    induction l with
    | nil => rfl
    | cons b bs ih =>
      by_cases h : symGet f b = 0#32
      · simp [h, ih]
      · simp [h, ih]
  rw [presentSymbols, this, List.map_map]
  rfl

theorem sum_freq_lt (f : FreqTable) :
    ((List.range 256).map (fun k => (symGet f (BitVec.ofNat 8 k)).toNat)).sum < 2 ^ 40 := by
  have h : ∀ l : List Nat, (l.map (fun k => (symGet f (BitVec.ofNat 8 k)).toNat)).sum ≤ l.length * (2 ^ 32 - 1) := by
    intro l
    induction l with
    | nil => simp
    | cons k ks ih =>
      have := (symGet f (BitVec.ofNat 8 k)).isLt
      simp only [List.map_cons, List.sum_cons, List.length_cons]
      omega
  have := h (List.range 256)
  simp only [List.length_range] at this
  omega

/-- The leaves BUILD starts from (R89). -/
abbrev leavesOf (f : FreqTable) : List Node := (presentSymbols f).map (leafNode f)

theorem leavesOf_total (f : FreqTable) : ((leavesOf f).map (fun nd => nd.freq.toNat)).sum =
    ((List.range 256).map (fun k => (symGet f (BitVec.ofNat 8 k)).toNat)).sum := by
  have h := sum_presentSymbols f (fun _ => 1)
  simp only [Nat.mul_one] at h
  rw [← h, List.map_map]
  refine congrArg List.sum (List.map_congr_left fun b _ => ?_)
  have := (symGet f b).isLt
  simp only [Function.comp, leafNode, BitVec.toNat_setWidth]
  exact Nat.mod_eq_of_lt (by omega)

/-- What the arena holds after BUILD, for two symbols or more: the forest is one tree, its root the last node made. -/
theorem arenaOf_forest (f : FreqTable) (h : 2 ≤ (presentSymbols f).length) :
    ∃ k, Forest (leavesOf f).length (arenaOf (leavesOf f)) [k]
        ((List.range 256).map (fun k => (symGet f (BitVec.ofNat 8 k)).toNat)).sum ∧
      k.ix + 1 = (arenaOf (leavesOf f)).length ∧ ∀ i, i < (leavesOf f).length → (arenaOf (leavesOf f))[i]? = (leavesOf f)[i]? := by
  have hlen : (leavesOf f).length = (presentSymbols f).length := by simp
  have hle := presentSymbols_length f
  have harena : arenaOf (leavesOf f) = mergeForest (leavesOf f).length (leavesOf f) (leafKeys (leavesOf f)) := by
    unfold arenaOf
    split
    · rename_i l hl
      rw [hl] at hlen
      simp only [List.length_cons, List.length_nil] at hlen
      omega
    · rfl
  have hkl : (leafKeys (leavesOf f)).length = (leavesOf f).length := by simp [leafKeys]
  have hforest := leafForest (leavesOf_total f)
  obtain ⟨k, hk⟩ := mergeForest_forest (by omega) (sum_freq_lt f) (leavesOf f).length hforest
    (by intro he; rw [he] at hkl; simp only [List.length_nil] at hkl; omega) (by omega)
  rw [harena]
  refine ⟨k, hk, ?_, fun i hi => mergeForest_prefix _ _ _ _ hi⟩
  -- the last node has no parent, so it is the one left
  have hc := hk.count
  simp only [List.length_cons, List.length_nil] at hc
  have hlast := (hk.alive ((mergeForest (leavesOf f).length (leavesOf f) (leafKeys (leavesOf f))).length - 1)
    (by omega)).mpr (fun j hp => by
      obtain ⟨hnj, x, hx, h3⟩ := hp
      have hjl := (List.getElem?_eq_some_iff.mp hx).1
      obtain ⟨u, v, hm⟩ := hk.merged j hnj hjl
      rw [hm.node] at hx
      cases hx
      have := hm.a_lt
      have := hm.b_lt
      rcases h3 with h3 | h3
      · have := ofNat9_inj (by omega) (by omega) h3; omega
      · have := ofNat9_inj (by omega) (by omega) h3; omega)
  simp only [List.map_cons, List.map_nil, List.mem_singleton] at hlast
  omega

/-! ## The tree BUILD writes -/

theorem arenaOf_one {f : FreqTable} {b : Byte} (h : presentSymbols f = [b]) : arenaOf (leavesOf f) =
    [leafNode f b, ⟨true, .internal, 0, (leafNode f b).freq, 0, nil⟩] := by
  simp [leavesOf, h, arenaOf]

theorem arenaOf_length (f : FreqTable) (h : presentSymbols f ≠ []) : (arenaOf (leavesOf f)).length =
    if (presentSymbols f).length = 1 then 2 else 2 * (presentSymbols f).length - 1 := by
  by_cases h1 : (presentSymbols f).length = 1
  · obtain ⟨b, hb⟩ := List.length_eq_one_iff.mp h1
    rw [arenaOf_one hb, if_pos h1]
    rfl
  · have hp := List.length_pos_iff.mpr h
    obtain ⟨k, hk, _, _⟩ := arenaOf_forest f (by omega)
    have := hk.count
    simp only [List.length_cons, List.length_nil, List.length_map] at this
    rw [if_neg h1]
    omega

theorem arenaOf_leaf (f : FreqTable) (i : Nat) (hi : i < (presentSymbols f).length) :
    (arenaOf (leavesOf f))[i]? = some (leafNode f (presentSymbols f)[i]) := by
  by_cases h1 : (presentSymbols f).length = 1
  · obtain ⟨b, hb⟩ := List.length_eq_one_iff.mp h1
    have h0 : i = 0 := by omega
    subst h0
    rw [arenaOf_one hb]
    simp [hb]
  · obtain ⟨k, _, _, hl⟩ := arenaOf_forest f (by omega)
    rw [hl i (by simpa using hi)]
    simp [leavesOf, hi]

theorem buildTree_nodeAt (f : FreqTable) (i : NodeIx) (h : i.toNat < 511) :
    nodeAt (buildTree f).node i = ((arenaOf (leavesOf f))[i.toNat]?).getD Node.empty := by
  simp only [buildTree]
  exact nodeAt_ofFn _ _ h

theorem buildTree_leafCount (f : FreqTable) : (buildTree f).leafCount.toNat = (presentSymbols f).length := by
  have := presentSymbols_length f
  simp only [buildTree, List.length_map, BitVec.toNat_ofNat]
  omega

theorem buildTree_nodeCount (f : FreqTable) (h : presentSymbols f ≠ []) :
    (buildTree f).nodeCount.toNat = (arenaOf (leavesOf f)).length := by
  have := presentSymbols_length f
  have hl := arenaOf_length f h
  have hlt : (arenaOf (leavesOf f)).length < 512 := by split at hl <;> omega
  show (BitVec.ofNat 9 (arenaOf (leavesOf f)).length).toNat = _
  rw [BitVec.toNat_ofNat, Nat.mod_eq_of_lt hlt]

theorem buildTree_root (f : FreqTable) (h : presentSymbols f ≠ []) :
    (buildTree f).root.toNat + 1 = (arenaOf (leavesOf f)).length := by
  have := presentSymbols_length f
  have hp := List.length_pos_iff.mpr h
  have hl := arenaOf_length f h
  have hlt : (arenaOf (leavesOf f)).length < 512 ∧ 0 < (arenaOf (leavesOf f)).length := by split at hl <;> omega
  show (BitVec.ofNat 9 ((arenaOf (leavesOf f)).length - 1)).toNat + 1 = _
  rw [BitVec.toNat_ofNat, Nat.mod_eq_of_lt (by omega)]
  omega

/-- Leaf `i` (R89). -/
theorem buildTree_leaf (f : FreqTable) (i : NodeIx) (hi : i.toNat < (presentSymbols f).length) :
    nodeAt (buildTree f).node i = leafNode f (presentSymbols f)[i.toNat] := by
  have h : presentSymbols f ≠ [] := fun h => by simp [h] at hi
  have := presentSymbols_length f
  rw [buildTree_nodeAt f i (by omega), arenaOf_leaf f _ hi]
  rfl

theorem buildTree_empty (f : FreqTable) (i : NodeIx)
    (hi : (arenaOf (leavesOf f)).length ≤ i.toNat) : nodeAt (buildTree f).node i = Node.empty := by
  rcases Nat.lt_or_ge i.toNat 511 with hlt | hge
  · rw [buildTree_nodeAt f i hlt, List.getElem?_eq_none hi]
    rfl
  · have : i = nil := BitVec.eq_of_toNat_eq (by have := i.isLt; show i.toNat = 511; omega)
    rw [this, nodeAt_nil]

theorem leafset_bit (f : FreqTable) (b : Byte) :
    (buildTree f).leafset.getLsbD b.toNat = (symGet f b != 0#32) := by
  have := b.isLt
  simp only [buildTree, bitmap_getLsbD, decide_eq_true (show b.toNat < 256 from this), Bool.true_and]
  simp

/-- Internal entry `j` of a tree of two symbols or more, with the two nodes it joins (R91). -/
theorem buildTree_internal (f : FreqTable) (h : 2 ≤ (presentSymbols f).length) (j : NodeIx)
    (hj : (buildTree f).internalAt j) : ∃ a b : Key, MergedAt (leavesOf f).length (arenaOf (leavesOf f)) j.toNat a b ∧
      nodeAt (buildTree f).node j = mergedNode a b ∧
      a.ix < 511 ∧ b.ix < 511 ∧
      (nodeAt (buildTree f).node (BitVec.ofNat 9 a.ix)).freq = a.freq ∧
      (nodeAt (buildTree f).node (BitVec.ofNat 9 b.ix)).freq = b.freq := by
  have hne : presentSymbols f ≠ [] := fun h' => by simp [h'] at h
  obtain ⟨k, hk, _, _⟩ := arenaOf_forest f h
  obtain ⟨h1, h2⟩ := hj
  rw [buildTree_leafCount] at h1
  rw [buildTree_nodeCount f hne] at h2
  have hle := presentSymbols_length f
  have hc := arenaOf_length f hne
  rw [if_neg (by omega)] at hc
  obtain ⟨a, b, hm⟩ := hk.merged j.toNat (by simpa using h1) h2
  have hal := hm.a_lt
  have hbl := hm.b_lt
  refine ⟨a, b, hm, ?_, by omega, by omega, ?_, ?_⟩
  · rw [buildTree_nodeAt f j (by omega), hm.node]
    rfl
  · obtain ⟨nd, e1, e2⟩ := hm.a_freq
    have hmod : (BitVec.ofNat 9 a.ix).toNat = a.ix := by rw [BitVec.toNat_ofNat]; omega
    rw [buildTree_nodeAt f _ (by omega), hmod, e1]
    exact e2
  · obtain ⟨nd, e1, e2⟩ := hm.b_freq
    have hmod : (BitVec.ofNat 9 b.ix).toNat = b.ix := by rw [BitVec.toNat_ofNat]; omega
    rw [buildTree_nodeAt f _ (by omega), hmod, e1]
    exact e2

theorem parent_iff (f : FreqTable) (h : 2 ≤ (presentSymbols f).length) (j : NodeIx) (i : Nat) :
    Parent (leavesOf f).length (arenaOf (leavesOf f)) j.toNat i ↔
      (buildTree f).internalAt j ∧ ((nodeAt (buildTree f).node j).left = BitVec.ofNat 9 i ∨
        (nodeAt (buildTree f).node j).right = BitVec.ofNat 9 i) := by
  have hne : presentSymbols f ≠ [] := fun h' => by simp [h'] at h
  have hle := presentSymbols_length f
  have hc := arenaOf_length f hne
  rw [if_neg (by omega)] at hc
  constructor
  · rintro ⟨h1, x, hx, h3⟩
    have hjl := (List.getElem?_eq_some_iff.mp hx).1
    refine ⟨⟨by rw [buildTree_leafCount]; simpa using h1, by rw [buildTree_nodeCount f hne]; exact hjl⟩, ?_⟩
    rw [buildTree_nodeAt f j (by omega), hx]
    exact h3
  · rintro ⟨⟨h1, h2⟩, h3⟩
    rw [buildTree_leafCount] at h1
    rw [buildTree_nodeCount f hne] at h2
    rw [buildTree_nodeAt f j (by omega), List.getElem?_eq_getElem h2] at h3
    exact ⟨by simpa using h1, _, List.getElem?_eq_getElem h2, h3⟩

/-- "Every valid entry other than ROOT is the child of exactly one Internal entry" (R96). -/
theorem buildTree_one_parent (f : FreqTable) (h : 2 ≤ (presentSymbols f).length) (i : NodeIx)
    (hi : i.toNat < (buildTree f).root.toNat) : ∃! j : NodeIx, (buildTree f).internalAt j ∧
      ((nodeAt (buildTree f).node j).left = i ∨ (nodeAt (buildTree f).node j).right = i) := by
  have hne : presentSymbols f ≠ [] := fun h' => by simp [h'] at h
  obtain ⟨k, hk, hkr, _⟩ := arenaOf_forest f h
  have hr := buildTree_root f hne
  have hle := presentSymbols_length f
  have hc := arenaOf_length f hne
  rw [if_neg (by omega)] at hc
  have hie : BitVec.ofNat 9 i.toNat = i := by simp
  have hnot : ¬ ∀ j, ¬ Parent (leavesOf f).length (arenaOf (leavesOf f)) j i.toNat := by
    rw [← hk.alive i.toNat (by omega)]
    simp only [List.map_cons, List.map_nil, List.mem_singleton]
    omega
  obtain ⟨j, hj⟩ := not_forall_not.mp hnot
  have hjl : j < (arenaOf (leavesOf f)).length := by
    obtain ⟨_, x, hx, _⟩ := hj
    exact (List.getElem?_eq_some_iff.mp hx).1
  have hjm : (BitVec.ofNat 9 j).toNat = j := by rw [BitVec.toNat_ofNat]; omega
  refine ⟨BitVec.ofNat 9 j, ?_, fun j' hj' => ?_⟩
  · have := (parent_iff f h (BitVec.ofNat 9 j) i.toNat).mp (by rw [hjm]; exact hj)
    rwa [hie] at this
  · have hp := (parent_iff f h j' i.toNat).mpr (by rw [hie]; exact hj')
    have := hk.one_parent i.toNat _ _ (by omega) hj hp
    apply BitVec.eq_of_toNat_eq
    omega

/-- The tree BUILD writes has the shape of R96. -/
theorem buildTree_shape (f : FreqTable) (h : presentSymbols f ≠ []) : TreeShape (buildTree f) := by
  have hle := presentSymbols_length f
  have hpos := List.length_pos_iff.mpr h
  have hlc := buildTree_leafCount f
  have hnc := buildTree_nodeCount f h
  have hr := buildTree_root f h
  have hal := arenaOf_length f h
  have hleaf := buildTree_leaf f
  -- the single-symbol tree's Internal entry
  have hone : (presentSymbols f).length = 1 → ∀ j, (buildTree f).internalAt j →
      j = 1 ∧ nodeAt (buildTree f).node j = ⟨true, .internal, 0, (nodeAt (buildTree f).node 0).freq, 0, nil⟩ := by
    rintro h1 j ⟨hj1, hj2⟩
    obtain ⟨b, hb⟩ := List.length_eq_one_iff.mp h1
    rw [if_pos h1] at hal
    have hj : j = 1 := BitVec.eq_of_toNat_eq (by show j.toNat = 1; omega)
    refine ⟨hj, ?_⟩
    rw [hj, buildTree_nodeAt f 1 (by decide), buildTree_nodeAt f 0 (by decide), arenaOf_one hb]
    rfl
  refine ⟨by omega, by rw [hnc, hal, hlc], by omega, fun i hi => buildTree_empty f i (by omega), ?_, ?_, ?_, ?_, ?_, ?_, ?_⟩
  · intro i hi
    rw [hleaf i (by omega)]
    exact ⟨rfl, rfl, rfl, rfl⟩
  · intro i j hij hj
    rw [hleaf i (by omega), hleaf j (by omega)]
    exact List.pairwise_iff_getElem.mp (presentSymbols_rise f) _ _ (by omega) (by omega) hij
  · intro b
    rw [leafset_bit, bne_iff_ne, show (symGet f b ≠ 0#32) = (symGet f b ≠ 0) from rfl, ← mem_presentSymbols, List.mem_iff_getElem]
    constructor
    · rintro ⟨i, hi, rfl⟩
      have hm : (BitVec.ofNat 9 i).toNat = i := by rw [BitVec.toNat_ofNat]; omega
      refine ⟨BitVec.ofNat 9 i, by omega, ?_⟩
      rw [hleaf _ (by omega)]
      simp only [hm]
      rfl
    · rintro ⟨i, hi, rfl⟩
      refine ⟨i.toNat, by omega, ?_⟩
      rw [hleaf i (by omega)]
      rfl
  · intro j hj
    by_cases h1 : (presentSymbols f).length = 1
    · obtain ⟨rfl, hn⟩ := hone h1 j hj
      rw [hn]
      exact ⟨rfl, rfl, rfl, by show (0#9).toNat < (1#9).toNat; decide⟩
    · obtain ⟨a, b, hm, hn, hA, hB, _, _⟩ := buildTree_internal f (by omega) j hj
      rw [hn]
      refine ⟨rfl, rfl, rfl, ?_⟩
      have := hm.b_lt
      show (BitVec.ofNat 9 b.ix).toNat < _
      rw [BitVec.toNat_ofNat]
      omega
  · intro j hj
    rw [hlc]
    by_cases h1 : (presentSymbols f).length = 1
    · obtain ⟨rfl, hn⟩ := hone h1 j hj
      rw [if_pos h1, hn]
    · obtain ⟨a, b, hm, hn, hA, hB, _, _⟩ := buildTree_internal f (by omega) j hj
      rw [if_neg h1, hn]
      have h1 := hm.a_lt
      refine ⟨?_, fun he => ?_⟩
      · show (BitVec.ofNat 9 a.ix).toNat < _
        rw [BitVec.toNat_ofNat]
        omega
      · have := ofNat9_inj (by omega) (by omega) he
        have ho := (Key.lt_iff a b).mp hm.ordered
        obtain ⟨na, ea, fa⟩ := hm.a_freq
        obtain ⟨nb, eb, fb⟩ := hm.b_freq
        rw [← this] at ea
        rw [eb] at ea
        cases ea
        rw [← fa, ← fb] at ho
        omega
  · intro i hi
    by_cases h1 : (presentSymbols f).length = 1
    · rw [if_pos h1] at hal
      have hi0 : i = 0 := BitVec.eq_of_toNat_eq (by show i.toNat = 0; omega)
      have h1m : (1 : NodeIx).toNat = 1 := rfl
      have hint : (buildTree f).internalAt 1 := ⟨by omega, by omega⟩
      refine ⟨1, ⟨hint, .inl ?_⟩, fun j hj => (hone h1 j hj.1).1⟩
      rw [(hone h1 1 hint).2, hi0]
    · exact buildTree_one_parent f (by omega) i hi
  · intro j hj
    by_cases h1 : (presentSymbols f).length = 1
    · obtain ⟨rfl, hn⟩ := hone h1 j hj
      rw [hn]
      simp
    · obtain ⟨a, b, hm, hn, hA, hB, ha, hb⟩ := buildTree_internal f (by omega) j hj
      have hr' : (nodeAt (buildTree f).node j).right ≠ nil := by
        rw [hn]
        intro he
        have : a.ix = 511 := ofNat9_inj (by omega) (by omega) he
        omega
      have := hm.exact_sum
      rw [if_neg hr', hn]
      show (a.freq + b.freq).toNat = (nodeAt _ (BitVec.ofNat 9 b.ix)).freq.toNat + (nodeAt _ (BitVec.ofNat 9 a.ix)).freq.toNat
      rw [ha, hb, BitVec.toNat_add, Nat.mod_eq_of_lt this]
      omega

/-- ROOT's FREQ is the sum of all FREQ entries (R96). -/
theorem buildTree_root_freq (f : FreqTable) (h : presentSymbols f ≠ []) :
    (nodeAt (buildTree f).node (buildTree f).root).freq.toNat =
      ((List.range 256).map (fun k => (symGet f (BitVec.ofNat 8 k)).toNat)).sum := by
  have hle := presentSymbols_length f
  have hpos := List.length_pos_iff.mpr h
  have hr := buildTree_root f h
  have hal := arenaOf_length f h
  by_cases h1 : (presentSymbols f).length = 1
  · obtain ⟨b, hb⟩ := List.length_eq_one_iff.mp h1
    rw [if_pos h1] at hal
    have hroot : (buildTree f).root.toNat = 1 := by omega
    rw [buildTree_nodeAt f _ (by omega), hroot, arenaOf_one hb, ← leavesOf_total f, leavesOf, hb]
    simp [leafNode]
  · obtain ⟨k, hk, hkr, _⟩ := arenaOf_forest f (by omega)
    rw [if_neg h1] at hal
    obtain ⟨nd, e1, e2⟩ := hk.key k (by simp)
    have hroot : (buildTree f).root.toNat = k.ix := by omega
    rw [buildTree_nodeAt f _ (by omega), hroot, e1]
    have := hk.total_eq
    simp only [List.map_cons, List.map_nil, List.sum_cons, List.sum_nil, Nat.add_zero] at this
    rw [← this, ← e2]
    rfl

end Sys2Proof.Machine
end

