-- ==== Sys2Proof/Tests/Slice0.lean ====
section
/-! SUPPORT. Tests of the model, their expected results taken from the vectors of spec/95_test_vectors.md or from a rule's
example, and the witnesses of the statements' hypotheses. -/

namespace Sys2Proof.Tests

open Machine

/-! ## WellFormed: an ill-formed term for each check -/

/-- RSV must be 0 (R66). -/
theorem test_wf_rsv : CmdFields.wf ⟨1, false, false, 0x05⟩ = false := by decide

/-- The opcodes end at 0x06 (R67). -/
theorem test_wf_opc : CmdFields.wf ⟨0, false, false, 0x07⟩ = false := by decide

/-- ACC on NOP (V-C3). -/
theorem test_wf_acc : CmdFields.wf ⟨0, false, true, 0x00⟩ = false := by decide

/-- CHK on COUNT (V-C4). -/
theorem test_wf_chk : CmdFields.wf ⟨0, true, false, 0x02⟩ = false := by decide

/-- ACC beside an admitted CHK on DECODE (V-C5). -/
theorem test_wf_decode_acc : CmdFields.wf ⟨0, true, true, 0x06⟩ = false := by decide

/-- Every command is well formed. -/
theorem test_wf_all : ∀ i ∈ Instr.all, i.wellFormed = true := by decide

/-- A 16-bit transaction (R53). -/
theorem test_wf_width : transactionAdmitted 0x01C 16 = false := by decide

/-- An offset that is no multiple of 4 (R53). -/
theorem test_wf_offset : transactionAdmitted 0x01E 32 = false := by decide

/-! ## Decode: words written out from R66's fields RSV, CHK, ACC, OPC -/

theorem test_decode_nop : decode 0b00000000000000000000000000000000#32 = .ok .nop := by decide
theorem test_decode_clrf : decode 0b00000000000000000000000000000001#32 = .ok .clrf := by decide
theorem test_decode_count : decode 0b00000000000000000000000000000010#32 = .ok .count := by decide
theorem test_decode_countAcc : decode 0b00000000000000000000000100000010#32 = .ok .countAcc := by decide
theorem test_decode_build : decode 0b00000000000000000000000000000011#32 = .ok .build := by decide
theorem test_decode_gencode : decode 0b00000000000000000000000000000100#32 = .ok .gencode := by decide
theorem test_decode_encode : decode 0b00000000000000000000000000000101#32 = .ok .encode := by decide
theorem test_decode_decode : decode 0b00000000000000000000000000000110#32 = .ok .decode := by decide
theorem test_decode_decodeChk : decode 0b00000000000000000000001000000110#32 = .ok .decodeChk := by decide

/-- V-C2 to V-C8. -/
theorem test_decode_illegal : decode 0x00000007#32 = .error .unknownOpcode ∧ decode 0x00000100#32 = .error .flagNotDefined ∧
    decode 0x00000202#32 = .error .flagNotDefined ∧ decode 0x00000306#32 = .error .flagNotDefined ∧
    decode 0x00000405#32 = .error .reservedBits ∧ decode 0x80000005#32 = .error .reservedBits ∧
    decode 0x000000FF#32 = .error .unknownOpcode := by decide

/-- The opcode table's numbering of the bits is the command word's. -/
theorem test_decodeTableWord : decodeTableWord 32 0x206 = some .decodeChk ∧ decodeTableWord 32 0x405 = none := by decide

/-! ## One step of each command -/

/-- A property of the next state a step answers. -/
def after (o : Outcome) (p : State → Bool) : Bool :=
  match o with
  | .next t => p t
  | .fault _ => false
  | .refused _ => false

/-- The state after reset with the bytes of DMEM at address 0 (R133). -/
def withBytes (bytes : List Byte) : State :=
  { State.reset with mem := ⟨65536, 0, (List.range bytes.length).zip bytes⟩ }

/-- The FREQ table with the entries given and all others 0. -/
def freqOf (xs : List (Byte × Word)) : FreqTable := xs.foldl (fun f x => symSet f x.1 x.2) FreqTable.empty

/-- "aaab" (W1). -/
def aaab : List Byte := [0x61, 0x61, 0x61, 0x62]

/-- R83's example: NOP clears a previous error code and sets DONE. -/
theorem test_nop : after (exec .nop (issued { State.reset with err := ⟨.emptyInput, 5⟩ } .nop ⟨0, 0, 0, 0⟩))
    (fun t => decide (t.err = ⟨.ok, 0⟩) && decide (t.event = ⟨true, false, false⟩) && t.pend.isNone) = true := by
  decide +kernel

/-- V-F2. -/
theorem test_clrf : after (exec .clrf (issued { State.reset with freq := freqOf [(0x61, 3)] } .clrf ⟨0, 0, 0, 0⟩))
    (fun t => decide (symGet t.freq 0x61 = 0) && decide (symGet t.freq 0xFF = 0)) = true := by decide +kernel

/-- V-F1. -/
theorem test_count : after (exec .count (issued (withBytes aaab) .count ⟨0, 4, 0, 0⟩))
    (fun t => decide (symGet t.freq 0x61 = 3) && decide (symGet t.freq 0x62 = 1) && decide (symGet t.freq 0 = 0) &&
      decide (t.err = ⟨.ok, 0⟩)) = true := by decide +kernel

/-- V-F8, V-F9: the range test does not wrap. -/
theorem test_count_range : after (exec .count (issued State.reset .count ⟨65535, 2, 0, 0⟩))
      (fun t => decide (t.err = ⟨.addressRange, 0⟩)) = true ∧
    after (exec .count (issued State.reset .count ⟨0xFFFFFFFF, 1, 0, 0⟩))
      (fun t => decide (t.err = ⟨.addressRange, 0⟩)) = true := by decide +kernel

/-- V-F6. -/
theorem test_countAcc : after (exec .countAcc (issued { withBytes [0x61, 0x62, 0x63, 0x63] with
      freq := freqOf [(0x61, 5), (0x62, 2), (0x63, 1), (0x64, 1), (0x72, 2)] } .countAcc ⟨2, 2, 0, 0⟩))
    (fun t => decide (symGet t.freq 0x61 = 5) && decide (symGet t.freq 0x63 = 3) && decide (symGet t.freq 0x72 = 2)) = true := by
  decide +kernel

/-- V-F10: the earlier increment of FREQ[0x62] is not kept. -/
theorem test_countAcc_overflow : after (exec .countAcc (issued { withBytes [0x62, 0x61] with
      freq := freqOf [(0x61, 0xFFFFFFFF), (0x62, 7)] } .countAcc ⟨0, 2, 0, 0⟩))
    (fun t => decide (t.err = ⟨.countOverflow, 0x61⟩) && decide (symGet t.freq 0x62 = 7)) = true := by decide +kernel

/-- V-B4 ("abracadabra"). -/
theorem test_build : after (exec .build (issued { State.reset with
      freq := freqOf [(0x61, 5), (0x62, 2), (0x63, 1), (0x64, 1), (0x72, 2)] } .build ⟨0, 0, 0, 0⟩))
    (fun t => decide (t.tree.root = 8) && decide (t.tree.nodeCount = 9) && decide (t.tree.leafCount = 5) &&
      decide (bitmapWord t.tree.leafset 3 = 0x0004001E) &&
      decide (nodeAt t.tree.node 4 = ⟨true, .leaf, 0x72, 2, nil, nil⟩) &&
      decide (nodeAt t.tree.node 5 = ⟨true, .internal, 0, 2, 3, 2⟩) &&
      decide (nodeAt t.tree.node 6 = ⟨true, .internal, 0, 4, 4, 1⟩) &&
      decide (nodeAt t.tree.node 7 = ⟨true, .internal, 0, 6, 6, 5⟩) &&
      decide (nodeAt t.tree.node 8 = ⟨true, .internal, 0, 11, 7, 0⟩)) = true := by decide +kernel

/-- V-B11: 40-bit sums; V-B6: a leaf before an Internal node of its frequency. -/
theorem test_build_ties :
    (arenaOf [⟨true, .leaf, 0, 0xFFFFFFFF, nil, nil⟩, ⟨true, .leaf, 1, 0xFFFFFFFF, nil, nil⟩, ⟨true, .leaf, 2, 1, nil, nil⟩])[4]? =
      some ⟨true, .internal, 0, 0x1FFFFFFFF, 3, 1⟩ ∧
    (arenaOf [⟨true, .leaf, 0x61, 1, nil, nil⟩, ⟨true, .leaf, 0x62, 1, nil, nil⟩, ⟨true, .leaf, 0x63, 2, nil, nil⟩])[4]? =
      some ⟨true, .internal, 0, 4, 3, 2⟩ := by decide

/-- A tree of the entries given, the last one its root. -/
def treeOf (leafset : BitVec 256) (leaves : Nat) (xs : List Node) : Tree where
  valid := true
  leafCount := BitVec.ofNat 9 leaves
  nodeCount := BitVec.ofNat 9 xs.length
  root := BitVec.ofNat 9 (xs.length - 1)
  leafset := leafset
  node := Vector.ofFn (fun i => (xs[i.val]?).getD Node.empty)

/-- V-B1, written out. -/
def tree1 : Tree := treeOf (bitmapSetWord 0 3 0x00000006) 2
  [⟨true, .leaf, 0x61, 3, nil, nil⟩, ⟨true, .leaf, 0x62, 1, nil, nil⟩, ⟨true, .internal, 0, 4, 0, 1⟩]

/-- V-B3, written out. -/
def tree3 : Tree := treeOf (bitmapSetWord 0 3 0x01000000) 1
  [⟨true, .leaf, 0x78, 5, nil, nil⟩, ⟨true, .internal, 0, 5, 0, nil⟩]

/-- V-B4, written out. -/
def tree4 : Tree := treeOf (bitmapSetWord 0 3 0x0004001E) 5
  [⟨true, .leaf, 0x61, 5, nil, nil⟩, ⟨true, .leaf, 0x62, 2, nil, nil⟩, ⟨true, .leaf, 0x63, 1, nil, nil⟩,
    ⟨true, .leaf, 0x64, 1, nil, nil⟩, ⟨true, .leaf, 0x72, 2, nil, nil⟩, ⟨true, .internal, 0, 2, 3, 2⟩,
    ⟨true, .internal, 0, 4, 4, 1⟩, ⟨true, .internal, 0, 6, 6, 5⟩, ⟨true, .internal, 0, 11, 7, 0⟩]

/-- V-G3 ("abracadabra"): a "1", b "001", c "011", d "010", r "000". -/
theorem test_gencode : after (exec .gencode (issued { State.reset with
      tree := tree4 } .gencode ⟨0, 0, 0, 0⟩))
    (fun t => decide (symGet t.codes.entry 0x61 = ⟨1, 1⟩) && decide (symGet t.codes.entry 0x62 = ⟨3, 1⟩) &&
      decide (symGet t.codes.entry 0x63 = ⟨3, 3⟩) && decide (symGet t.codes.entry 0x64 = ⟨3, 2⟩) &&
      decide (symGet t.codes.entry 0x72 = ⟨3, 0⟩) && decide (symGet t.codes.entry 0x65 = ⟨0, 0⟩) &&
      decide (t.codes.maxLen = 3) && t.codes.valid) = true := by decide +kernel

/-- V-G10. -/
theorem test_gencode_noTree : after (exec .gencode (issued State.reset .gencode ⟨0, 0, 0, 0⟩))
    (fun t => decide (t.err = ⟨.noTree, 0⟩) && !t.codes.valid) = true := by decide +kernel

/-- The entries GENCODE collects for "aaab" (V-G1). -/
def aaabCodes : Codes := ⟨true, maxCodeLen (codeTableOf [(0x61, ⟨1, 0⟩), (0x62, ⟨1, 1⟩)]),
  codeTableOf [(0x61, ⟨1, 0⟩), (0x62, ⟨1, 1⟩)]⟩

/-- V-E4: the bits of "abracadabra" are packed as 91 75 22. -/
theorem test_pack : pack (([1,0,0,1,0,0,0,1,0,1,1,1,0,1,0,1,0,0,1,0,0,0,1] : List Nat).map (· == 1)) = [0x91, 0x75, 0x22] := by
  decide

/-- V-E1: the result registers. -/
theorem test_encode : after (exec .encode (issued { withBytes aaab with codes := aaabCodes } .encode ⟨0, 4, 0x100, 0⟩))
    (fun t => decide (t.out = ⟨1, 4⟩) && decide (t.err = ⟨.ok, 0⟩)) = true := by decide +kernel

/-- V-E13: the offset of the first byte without a code. -/
theorem test_encode_noCode : after (exec .encode (issued { withBytes [0x61, 0x62, 0x63] with codes := aaabCodes } .encode
      ⟨0, 3, 0x100, 0⟩))
    (fun t => decide (t.err = ⟨.encodingConsistency, 2⟩) && decide (t.out = ⟨0, 0⟩)) = true := by decide +kernel

/-- V-U1: the symbols of the walk; the bytes reach DMEM by `Memory.writeBytes`. -/
theorem test_decode_walk : (match walk tree1 65536 0x200 ([false, false, false, true]) 0 0 tree1.root 0 with
    | .ok out => decide (out = aaab)
    | .error _ => false) = true := by decide +kernel

/-- V-U7: bit 1 of the single-symbol tree's stream selects no child. -/
theorem test_decode_missing : after (exec .decode (issued { withBytes [0x40] with tree := tree3 }
      .decode ⟨0, 1, 0x30, 2⟩))
    (fun t => decide (t.err = ⟨.corruptStream, 1⟩) && decide (t.out = ⟨0, 0⟩)) = true := by decide +kernel

/-- V-U11: 0x63 is the least symbol in LEAFSET but not in EXPSET. -/
theorem test_decodeChk_mismatch : after (exec .decodeChk (issued { withBytes [0x10] with
      tree := tree4
      expset := bitmapSetWord 0 3 0x00000006 } .decodeChk ⟨0, 1, 0x80, 4⟩))
    (fun t => decide (t.err = ⟨.treeMismatch, 0x63⟩)) = true := by decide +kernel

/-- V-U1 with CHK = 1 and the leaf set expected: accepted, four symbols. -/
theorem test_decodeChk : after (exec .decodeChk (issued { withBytes [0x10] with
      tree := tree1, expset := bitmapSetWord 0 3 0x00000006 } .decodeChk ⟨0, 1, 0x80, 4⟩))
    (fun t => decide (t.err = ⟨.ok, 0⟩) && decide (t.out = ⟨4, 4⟩)) = true := by decide +kernel

/-! ## The host -/

/-- V-C6: an illegal word placed after reset. -/
theorem test_step_illegal : after (step (State.reset.withFetchWord 32 0x405))
    (fun t => decide (t.err = ⟨.illegalCommand, 0x405⟩) && decide (t.cmd = 0x405) && t.event.err) = true := by
  decide +kernel

/-- V-H2, V-H3. -/
theorem test_event_clear : (Event.clear ⟨true, true, false⟩ 0x1).word = 0b010 ∧
    (Event.clear ⟨true, true, true⟩ 0xFFFFFFF8).word = 0b111 := by decide

/-- V-H6. -/
theorem test_dmem_word : (withBytes aaab).readTarget (.dmem 0) = 0x62616161 := by decide

/-- V-H10: a dropped operand write. -/
theorem test_busy_write : after (step { State.reset with
      pend := some ⟨0, ⟨0, 0, 0, 0⟩⟩, latency := 1, host := [.write 0x020 32 5] })
    (fun t => decide (t.ops.src = 0) && decide (t.event = ⟨false, false, true⟩)) = true := by decide +kernel

/-- "No reset of any kind changes DMEM" (R50), the platform's own included. -/
theorem test_resets_keep_dmem : after (step { withBytes aaab with host := [.powerOn] })
    (fun t => decide (t.mem.read 3 = 0x62)) = true ∧
    after (step { withBytes aaab with host := [.write 0x008 32 1] }) (fun t => decide (t.mem.read 3 = 0x62)) = true := by
  decide +kernel

/-- V-B14: NODE[2]'s words after V-B1. -/
theorem test_node_words : (List.range 4).map (fun k => (nodeAt tree1.node 2).word (BitVec.ofNat 2 k)) =
    [0x00000003, 0x00000004, 0x00000000, 0x00010000] := by decide +kernel

/-! ## Witnesses: states and operands that meet a statement's hypotheses together -/

/-- NOP pending after reset, due at once. -/
def due (i : Instr) (o : Operands) : State := issued State.reset i o

/-- NOP pending after reset, with one statement of the host before it. -/
def busy (op : HostOp) : State :=
  { State.reset with pend := some ⟨0, ⟨0, 0, 0, 0⟩⟩, latency := 1, host := [op] }

/-- An idle block with one statement of the host to run. -/
def idle (op : HostOp) : State := { State.reset with host := [op] }

theorem busy_turn (op : HostOp) : HostTurn (busy op) op [] := ⟨rfl, .inr Nat.one_ne_zero⟩

theorem idle_turn (op : HostOp) : HostTurn (idle op) op [] := ⟨rfl, .inl rfl⟩

theorem busy_pend (op : HostOp) : (busy op).pend ≠ none := by simp [busy]

theorem due_turn (i : Instr) (o : Operands) : CoreTurn (due i o) ⟨encode i, o⟩ := ⟨rfl, .inl rfl⟩

theorem witness_DecodeAndEncodeAgree : decode 0x00000206#32 = .ok .decodeChk := by decide

theorem witness_StepRunsThePendingCommand :
    CoreTurn (due .decodeChk ⟨1, 2, 3, 4⟩) ⟨0x00000206#32, ⟨1, 2, 3, 4⟩⟩ ∧ decode 0x00000206#32 = .ok .decodeChk :=
  ⟨due_turn .decodeChk _, by decide⟩

theorem witness_IllegalWordReportsItself :
    CoreTurn ({ State.reset with pend := some ⟨0x00000306#32, ⟨0, 0, 0, 0⟩⟩ }) ⟨0x00000306#32, ⟨0, 0, 0, 0⟩⟩ ∧
      0x00000306#32 ∉ [0x00000000#32, 0x00000001#32, 0x00000002#32, 0x00000102#32, 0x00000003#32, 0x00000004#32,
        0x00000005#32, 0x00000006#32, 0x00000206#32] := ⟨⟨rfl, .inl rfl⟩, by decide⟩

theorem witness_IdleMachineStays : State.reset.pend = none ∧ State.reset.host = [] := ⟨rfl, rfl⟩

theorem witness_CmdWriteIsAccepted :
    (idle (.write 0x01C 32 0xFFFFFFFF)).host = .write 0x01C 32 0xFFFFFFFF :: [] ∧
      (idle (.write 0x01C 32 0xFFFFFFFF)).pend = none ∧
      HostTurn (busy (.write 0x01C 32 0)) (.write 0x01C 32 0) [] ∧ (busy (.write 0x01C 32 0)).pend ≠ none :=
  ⟨rfl, rfl, busy_turn _, busy_pend _⟩

/-- The first and last offset of each range. -/
theorem witness_BusyWritesAreDropped : ∀ off ∈ [0x01C#21, 0x02C#21, 0x080#21, 0x09C#21, 0x400#21, 0x7FC#21, 0x100000#21,
      0x10FFFC#21],
    HostTurn (busy (.write off 32 5)) (.write off 32 5) [] ∧ (busy (.write off 32 5)).pend ≠ none ∧ off.toNat % 4 = 0 ∧
      (off.toNat ∈ [0x01C, 0x020, 0x024, 0x028, 0x02C] ∨ (0x080 ≤ off.toNat ∧ off.toNat < 0x0A0) ∨
        (0x400 ≤ off.toNat ∧ off.toNat < 0x800) ∨ (0x100000 ≤ off.toNat ∧ off.toNat < 0x100000 + 65536)) :=
  fun off h => ⟨busy_turn _, busy_pend _, by revert off; simp, by revert off; simp⟩

/-- The first and last offset of each unmapped range, and of the read-only ones; idle and busy. -/
theorem witness_UnmappedAndReadOnlyWritesAreIgnored :
    (∀ off ∈ [0x04C#21, 0x05C#21, 0x0A0#21, 0x3FC#21, 0x800#21, 0xFFC#21, 0x2FF0#21, 0x3FFC#21, 0x8000#21, 0xFFFFC#21,
        0x110000#21, 0x1FFFFC#21],
      HostTurn (busy (.read off 32)) (.read off 32) [] ∧ HostTurn (idle (.write off 32 5)) (.write off 32 5) [] ∧
        off.toNat % 4 = 0 ∧
        ((0x04C ≤ off.toNat ∧ off.toNat ≤ 0x05C) ∨ (0x0A0 ≤ off.toNat ∧ off.toNat ≤ 0x3FC) ∨
          (0x800 ≤ off.toNat ∧ off.toNat ≤ 0xFFC) ∨ (0x2FF0 ≤ off.toNat ∧ off.toNat ≤ 0x3FFC) ∨
          (0x8000 ≤ off.toNat ∧ off.toNat ≤ 0xFFFFC) ∨ 0x100000 + 65536 ≤ off.toNat)) ∧
    (∀ off ∈ [0x000#21, 0x048#21, 0x060#21, 0x07C#21, 0x1000#21, 0x2FEC#21, 0x4000#21, 0x7FFC#21],
      HostTurn (busy (.write off 32 5)) (.write off 32 5) [] ∧ off.toNat % 4 = 0 ∧
        (off.toNat ∈ [0x000, 0x004, 0x00C, 0x014, 0x018, 0x030, 0x034, 0x038, 0x03C, 0x040, 0x044, 0x048] ∨
          (0x060 ≤ off.toNat ∧ off.toNat ≤ 0x07C) ∨ (0x1000 ≤ off.toNat ∧ off.toNat ≤ 0x2FEC) ∨
          (0x4000 ≤ off.toNat ∧ off.toNat ≤ 0x7FFC))) :=
  ⟨fun off h => ⟨busy_turn _, idle_turn _, by revert off; simp, by revert off; simp⟩,
    fun off h => ⟨busy_turn _, by revert off; simp, by revert off; simp⟩⟩

/-- Two reads of STATUS while a command is pending, the second after the first's step, and of the last DMEM word while none
is. -/
theorem witness_ReadsHaveNoSideEffect :
    (∃ t, HostTurn { busy (.read 0x00C 32) with latency := 2, host := [.read 0x00C 32, .read 0x00C 32] } (.read 0x00C 32)
        [.read 0x00C 32] ∧
      step { busy (.read 0x00C 32) with latency := 2, host := [.read 0x00C 32, .read 0x00C 32] } = .next t ∧
      HostTurn t (.read 0x00C 32) []) ∧ (0x00C#21).toNat % 4 = 0 ∧ (0x00C#21).toNat < 0x400 ∧
      HostTurn (idle (.read 0x10FFFC 32)) (.read 0x10FFFC 32) [] ∧ (0x10FFFC#21).toNat % 4 = 0 ∧
      (idle (.read 0x10FFFC 32)).pend = none :=
  ⟨⟨_, ⟨rfl, .inr (Nat.succ_ne_zero 1)⟩, rfl, ⟨rfl, .inr Nat.one_ne_zero⟩⟩, by decide, by decide, idle_turn _, by decide,
    rfl⟩

/-- STATUS with a command pending and a tree but no code table reads 3 (R26). -/
theorem test_read_status : ({ busy (.read 0x00C 32) with tree := tree1 }.busRead 0x00C).1 = 0x00000003 := by decide +kernel

theorem witness_BusyWindowReadIsADraw : ∀ off ∈ [0x400#21, 0x7FC#21, 0x1000#21, 0x2FEC#21, 0x4000#21, 0x7FFC#21,
      0x100000#21, 0x10FFFC#21],
    HostTurn (busy (.read off 32)) (.read off 32) [] ∧ off.toNat % 4 = 0 ∧ (busy (.read off 32)).pend ≠ none ∧
      ((0x400 ≤ off.toNat ∧ off.toNat < 0x800) ∨ (0x1000 ≤ off.toNat ∧ off.toNat < 0x2FF0) ∨
        (0x4000 ≤ off.toNat ∧ off.toNat < 0x8000) ∨ (0x100000 ≤ off.toNat ∧ off.toNat < 0x100000 + 65536)) :=
  fun off h => ⟨busy_turn _, by revert off; simp, busy_pend _, by revert off; simp⟩

theorem witness_InadmissibleTransactionIsRefused :
    HostTurn (idle (.read 0x01C 16)) (.read 0x01C 16) [] ∧ ¬ (16 = 32 ∧ (0x01C#21).toNat % 4 = 0) ∧
      HostTurn (busy (.write 0x01E 32 0)) (.write 0x01E 32 0) [] ∧ ¬ (32 = 32 ∧ (0x01E#21).toNat % 4 = 0) ∧
      HostTurn (busy (.write 0x01C 32 0)) (.write 0x01C 32 0) [] ∧ (32 = 32 ∧ (0x01C#21).toNat % 4 = 0) :=
  ⟨idle_turn _, by decide, busy_turn _, by decide, busy_turn _, by decide⟩

/-- A soft reset and a power-on reset while a command is pending. -/
theorem witness_ResetsSetEveryElement :
    HostTurn (busy (.write 0x008 32 3)) (.write 0x008 32 3) [] ∧ (3#32).getLsbD 0 = true ∧
      HostTurn (busy .powerOn) .powerOn [] := ⟨busy_turn _, by decide, busy_turn _⟩

theorem witness_CtrlWriteSetsIe :
    HostTurn (busy (.write 0x008 32 2)) (.write 0x008 32 2) [] ∧ (2#32).getLsbD 0 = false ∧
      HostTurn (idle (.write 0x008 32 0)) (.write 0x008 32 0) [] := ⟨busy_turn _, by decide, idle_turn _⟩

theorem witness_EventWriteClearsBits : HostTurn (busy (.write 0x010 32 7)) (.write 0x010 32 7) [] := busy_turn _

/-- A step that keeps a set event. -/
theorem witness_EventBitsAreSticky :
    ∃ t, step { State.reset with event := ⟨true, true, true⟩ } = .next t := ⟨_, rfl⟩

/-- The first and last of each range of registers. -/
theorem witness_IdleWritesStoreTheWord : ∀ off ∈ [0x020#21, 0x024#21, 0x028#21, 0x02C#21, 0x080#21, 0x09C#21, 0x400#21,
      0x7FC#21],
    (idle (.write off 32 5)).host = .write off 32 5 :: [] ∧ (idle (.write off 32 5)).pend = none ∧
      (off = 0x020 ∨ off = 0x024 ∨ off = 0x028 ∨ off = 0x02C ∨ (∃ w : BitVec 3, off.toNat = 0x080 + 4 * w.toNat) ∨
        ∃ b : Byte, off.toNat = 0x400 + 4 * b.toNat) :=
  fun off h => ⟨rfl, rfl, by fin_cases h <;> decide⟩

theorem witness_DmemWindowIsLittleEndian : (idle (.read 0x10FFFC 32)).mem.wf = true ∧
    (idle (.read 0x10FFFC 32)).pend = none ∧ (0x10FFFC#21).toNat = 0x100000 + 4 * 16383 ∧
    4 * 16383 < (idle (.read 0x10FFFC 32)).mem.size ∧ (idle (.read 0x10FFFC 32)).host = .read 0x10FFFC 32 :: [] ∧
    (idle (.write 0x100000 32 5)).host = .write 0x100000 32 5 :: [] ∧ (0x100000#21).toNat = 0x100000 + 4 * 0 :=
  ⟨rfl, rfl, by decide, by decide, rfl, rfl, by decide⟩

theorem witness_IrqFollowsEvents :
    (∃ t, (due .nop ⟨0, 0, 0, 0⟩).pend = some ⟨0, ⟨0, 0, 0, 0⟩⟩ ∧ exec .nop (due .nop ⟨0, 0, 0, 0⟩) = .next t) ∧
      HostTurn (busy (.write 0x010 32 7)) (.write 0x010 32 7) [] ∧
      HostTurn (busy (.write 0x008 32 0)) (.write 0x008 32 0) [] ∧
      HostTurn (busy (.write 0x008 32 2)) (.write 0x008 32 2) [] :=
  ⟨⟨_, rfl, rfl⟩, busy_turn _, busy_turn _, busy_turn _⟩

theorem witness_NopCompletes : (due .nop ⟨0, 0, 0, 0⟩).pend = some ⟨encode .nop, ⟨0, 0, 0, 0⟩⟩ := rfl

theorem witness_ClrfClearsFreq : (due .clrf ⟨0, 0, 0, 0⟩).pend = some ⟨encode .clrf, ⟨0, 0, 0, 0⟩⟩ := rfl

/-- All of DMEM, and the empty range at its end (V-F7). -/
theorem witness_CountCountsTheRange : ∀ o ∈ [(⟨0, 65536, 0, 0⟩ : Operands), ⟨65536, 0, 0, 0⟩],
    (due .count o).pend = some ⟨encode .count, o⟩ ∧ o.src.toNat + o.len.toNat ≤ (due .count o).mem.size :=
  fun o h => ⟨rfl, by revert o; decide⟩

/-- A range without an overflow, and one whose first byte overflows (V-F10's table). -/
theorem witness_CountAccAddsOrOverflows :
    (∃ s p, s.pend = some p ∧ p.ops.src.toNat + p.ops.len.toNat ≤ s.mem.size ∧
      ∀ b : Byte, (symGet s.freq b).toNat + (inputOf s p.ops).count b < 2 ^ 32) ∧
    (∃ s p b, s.pend = some p ∧ p.ops.src.toNat + p.ops.len.toNat ≤ s.mem.size ∧ (inputOf s p.ops)[0]? = some b ∧
      (symGet s.freq b).toNat + ((inputOf s p.ops).take 0).count b = 2 ^ 32 - 1 ∧
      ∀ (j : Nat) (c : Byte), j < 0 → (inputOf s p.ops)[j]? = some c →
        (symGet s.freq c).toNat + ((inputOf s p.ops).take j).count c < 2 ^ 32 - 1) := by
  refine ⟨⟨due .countAcc ⟨0, 4, 0, 0⟩, ⟨encode .countAcc, ⟨0, 4, 0, 0⟩⟩, rfl, by decide, fun b => ?_⟩,
    ⟨issued { withBytes [0x61] with freq := symSet FreqTable.empty 0x61 0xFFFFFFFF } .countAcc ⟨0, 1, 0, 0⟩,
      ⟨encode .countAcc, ⟨0, 1, 0, 0⟩⟩, 0x61, rfl, by decide, rfl, ?_, fun j c h => absurd h (Nat.not_lt_zero j)⟩⟩
  · have h : (symGet (due .countAcc ⟨0, 4, 0, 0⟩).freq b).toNat = 0 := by
      show (symGet FreqTable.empty b).toNat = 0
      simp
    have h2 := List.count_le_length (a := b) (l := inputOf (due .countAcc ⟨0, 4, 0, 0⟩) ⟨0, 4, 0, 0⟩)
    have h3 : (inputOf (due .countAcc ⟨0, 4, 0, 0⟩) ⟨0, 4, 0, 0⟩).length = 4 := rfl
    simp only [h]
    omega
  · show (symGet (symSet FreqTable.empty 0x61 0xFFFFFFFF) 0x61).toNat + 0 = _
    simp

/-- One byte past the end, and an address whose sum would wrap in 32 bits (V-F8, V-F9). -/
theorem witness_CountRangeError : ∀ o ∈ [(⟨65535, 2, 0, 0⟩ : Operands), ⟨0xFFFFFFFF, 1, 0, 0⟩],
    (due .countAcc o).pend = some ⟨encode .countAcc, o⟩ ∧ (due .countAcc o).mem.size < o.src.toNat + o.len.toNat :=
  fun o h => ⟨rfl, by revert o; decide⟩

theorem witness_BuildRefusesAnEmptyTable : (due .build ⟨0, 0, 0, 0⟩).pend = some ⟨encode .build, ⟨0, 0, 0, 0⟩⟩ ∧
    ∀ b : Byte, symGet (due .build ⟨0, 0, 0, 0⟩).freq b = 0 := ⟨rfl, symGet_freqEmpty⟩

/-- "xxxxx" (W2): the FREQ table of its one symbol. -/
def xFreq : FreqTable := symSet FreqTable.empty 0x78 5

theorem witness_BuildOneSymbol :
    (issued { State.reset with freq := xFreq } .build ⟨0, 0, 0, 0⟩).pend = some ⟨encode .build, ⟨0, 0, 0, 0⟩⟩ ∧
      symGet xFreq 0x78 ≠ 0 ∧ ∀ c : Byte, c ≠ 0x78 → symGet xFreq c = 0 := by
  refine ⟨rfl, by simp [xFreq], fun c hc => ?_⟩
  rw [xFreq, symGet_symSet_other _ _ hc, symGet_freqEmpty]

/-- "aaab" (W1): its FREQ table. -/
def aaabFreq : FreqTable := symSet (symSet FreqTable.empty 0x61 3) 0x62 1

theorem mem_of_get {f : FreqTable} {b : Byte} (h : symGet f b ≠ 0) : presentSymbols f ≠ [] := fun he =>
  List.not_mem_nil (he ▸ mem_presentSymbols.mpr h)

theorem aaab_ne : presentSymbols aaabFreq ≠ [] := mem_of_get (b := 0x62) (by simp [aaabFreq])

/-- A BUILD of "aaab" pending. -/
def aaabBuild : State := issued { State.reset with freq := aaabFreq } .build ⟨0, 0, 0, 0⟩

theorem build_next {s : State} {p : Pend} (hp : s.pend = some p) (h : presentSymbols s.freq ≠ []) : exec .build s =
    .next (completed { s with tree := buildTree s.freq, codes := Codes.empty }) := by
  show State.runPending s false (buildCommand s) = _
  rw [State.runPending_some hp, buildCommand, if_neg h]
  rfl

theorem aaabBuild_next : exec .build aaabBuild =
    .next (completed { aaabBuild with tree := buildTree aaabFreq, codes := Codes.empty }) := build_next rfl aaab_ne

theorem witness_BuildMakesTheTree : aaabBuild.pend = some ⟨encode .build, ⟨0, 0, 0, 0⟩⟩ ∧
    ((List.range 256).map (BitVec.ofNat 8)).filter (fun b => symGet aaabBuild.freq b != 0) ≠ [] := ⟨rfl, aaab_ne⟩

/-- "aaab" has two leaves, so its tree has one Internal entry (V-B1). -/
theorem aaab_symbols : (presentSymbols aaabFreq).length = 2 := by decide +kernel

theorem witness_BuildMergesTheTwoLeast : ∃ t : State, aaabBuild.pend = some ⟨encode .build, ⟨0, 0, 0, 0⟩⟩ ∧
    exec .build aaabBuild = .next t ∧ t.err.code = .ok ∧ 2 ≤ t.tree.leafCount.toNat ∧ ∃ j, t.tree.internalAt j := by
  have h2 : (buildTree aaabFreq).leafCount.toNat = 2 := (buildTree_leafCount aaabFreq).trans aaab_symbols
  refine ⟨_, rfl, aaabBuild_next, rfl, h2.ge, (buildTree aaabFreq).root, ?_⟩
  exact (buildTree_shape aaabFreq aaab_ne).root_internal

/-- The tree of "aaab". -/
abbrev aaabTree : Tree := buildTree aaabFreq

theorem aaab_shape : TreeShape aaabTree := buildTree_shape aaabFreq aaab_ne

/-- The entries GENCODE collects for "aaab" (V-G1). -/
theorem aaab_entries : leafCodes aaabTree.node 512 aaabTree.root 0 0 = some [(0x61, ⟨1, 0⟩), (0x62, ⟨1, 1⟩)] := by
  decide +kernel

theorem aaab_paths : PathCodes aaabTree aaabCodes := aaab_shape.pathCodes aaab_entries

/-- "0" and "1" are the paths of a and b (V-G1). -/
theorem aaab_path_a : aaabTree.pathTo [false] 0x61 := ⟨0, by decide +kernel⟩

theorem aaab_path_b : aaabTree.pathTo [true] 0x62 := ⟨1, by decide +kernel⟩

/-- DMEM with "aaab" at 0 and its packed byte at 0x100 (V-E1). -/
def aaabMem : Memory := ((⟨65536, 0, []⟩ : Memory).writeBytes 0 aaab).writeBytes 0x100 [0x10]

theorem aaabMem_wf : aaabMem.wf = true := Memory.writeBytes_wf (Memory.writeBytes_wf rfl _ (by decide)) _ (by decide)

theorem aaabMem_size : aaabMem.size = 65536 := by simp [aaabMem]

theorem aaabMem_read (k : Nat) (h : k < 4) : aaabMem.read k = aaab[k] := by
  have hr : Rising (⟨65536, 0, []⟩ : Memory).cells := List.Pairwise.nil
  rw [aaabMem, Memory.read_writeBytes_outside _ _ (.inl (by omega))]
  have := Memory.read_writeBytes_inside hr 0 aaab k h
  rwa [Nat.zero_add] at this

theorem aaabMem_packed : aaabMem.read 0x100 = 0x10 := by
  have hr : Rising (⟨65536, 0, []⟩ : Memory).cells := List.Pairwise.nil
  exact Memory.read_writeBytes_inside (Memory.writeBytes_rising hr 0 aaab) 0x100 [0x10] 0 (by decide)

/-- The block after "aaab" has been counted, built, generated and packed to 0x100, a command pending. -/
def aaabState (i : Instr) (o : Operands) : State :=
  issued { State.reset with freq := aaabFreq, tree := aaabTree, codes := aaabCodes, mem := aaabMem } i o

theorem aaabState_inv (i : Instr) (o : Operands) : Inv (aaabState i o) where
  memory := ⟨by show Config.dmemSizeOk aaabMem.size = true; rw [aaabMem_size]; decide, aaabMem_wf⟩
  pend := by
    intro p hp
    obtain rfl : (⟨encode i, o⟩ : Pend) = p := by simpa [aaabState, issued] using hp
    exact ⟨rfl, rfl⟩
  tree := .inr ⟨rfl, aaab_shape⟩
  codes := .inr ⟨rfl, rfl, aaab_paths⟩

theorem aaab_input (i : Instr) (o : Operands) : inputOf (aaabState i o) ⟨0, 4, 0x200, 0⟩ = aaab := by
  show (List.range 4).map (fun k => aaabMem.read (0 + k)) = aaab
  simp only [Nat.zero_add]
  apply List.ext_getElem
  · rfl
  · intro k h1 h2
    simp only [List.getElem_map, List.getElem_range]
    exact aaabMem_read k h2

theorem aaab_stream {s : State} (h : s.mem = aaabMem) (dst : Word) :
    streamOf s ⟨0x100, 1, dst, 4⟩ = [false, false, false, true] := by
  rw [streamOf, h]
  show [_, _, _, _] = _
  simp only [Nat.reduceDiv]
  show [(aaabMem.read 0x100).getLsbD 7, (aaabMem.read 0x100).getLsbD 6, (aaabMem.read 0x100).getLsbD 5,
    (aaabMem.read 0x100).getLsbD 4] = _
  rw [aaabMem_packed]
  decide

theorem aaab_depth : ∀ bs b, aaabTree.pathTo bs b → (fun _ : Byte => 1) b = bs.length := by
  intro bs b hp
  have hb := (aaab_shape.pathTo_iff b).mp ⟨bs, hp⟩
  rw [leafset_bit, bne_iff_ne] at hb
  by_cases h1 : b = 0x61
  · rw [aaab_shape.pathTo_unique hp (h1 ▸ aaab_path_a)]; rfl
  · by_cases h2 : b = 0x62
    · rw [aaab_shape.pathTo_unique hp (h2 ▸ aaab_path_b)]; rfl
    · rw [aaabFreq, symGet_symSet_other _ _ h2, symGet_symSet_other _ _ h1, symGet_freqEmpty] at hb
      exact absurd rfl hb

/-- The depths of the "aaab" tree, and the code {a:"1", b:"0"} HUF names beside its own. -/
theorem witness_BuildIsOptimal : ∃ t : State, aaabBuild.pend = some ⟨encode .build, ⟨0, 0, 0, 0⟩⟩ ∧
    exec .build aaabBuild = .next t ∧ t.err.code = .ok ∧
    (∀ bs b, t.tree.pathTo bs b → (fun _ : Byte => 1) b = bs.length) ∧
    (∀ b : Byte, symGet aaabFreq b ≠ 0 → (fun x : Byte => [x == 0x61]) b ≠ []) ∧
    (∀ a b : Byte, a ≠ b → symGet aaabFreq a ≠ 0 → symGet aaabFreq b ≠ 0 →
      ¬ (fun x : Byte => [x == 0x61]) a <+: (fun x : Byte => [x == 0x61]) b) := by
  refine ⟨_, rfl, aaabBuild_next, rfl, aaab_depth, fun b _ => by simp, fun a b hab ha hb hp => hab ?_⟩
  have : ∀ x : Byte, symGet aaabFreq x ≠ 0 → x = 0x61 ∨ x = 0x62 := by
    intro x hx
    by_contra hn
    rw [not_or] at hn
    rw [aaabFreq, symGet_symSet_other _ _ hn.2, symGet_symSet_other _ _ hn.1, symGet_freqEmpty] at hx
    exact hx rfl
  rcases this a ha with rfl | rfl <;> rcases this b hb with rfl | rfl <;> first | rfl | simp at hp

theorem witness_GencodeWritesThePathCodes :
    (aaabState .gencode ⟨0, 0, 0, 0⟩).pend = some ⟨encode .gencode, ⟨0, 0, 0, 0⟩⟩ ∧
      (aaabState .gencode ⟨0, 0, 0, 0⟩).tree.valid = true ∧ TreeShape (aaabState .gencode ⟨0, 0, 0, 0⟩).tree :=
  ⟨rfl, rfl, aaab_shape⟩

/-- A GENCODE of "xxxxx" pending (W2). -/
def xGencode : State := issued { State.reset with tree := buildTree xFreq } .gencode ⟨0, 0, 0, 0⟩

theorem x_ne : presentSymbols xFreq ≠ [] := mem_of_get (b := 0x78) (by simp [xFreq])

theorem gencode_next {s : State} {p : Pend} (hp : s.pend = some p) (hv : s.tree.valid = true) (h : TreeShape s.tree) :
    ∃ xs, exec .gencode s =
      .next (completed { s with codes := ⟨true, maxCodeLen (codeTableOf xs), codeTableOf xs⟩ }) := by
  obtain ⟨xs, hx⟩ := h.leafCodes_isSome 512 s.tree.root 0 0 le_rfl s.tree.root.isLt
  refine ⟨xs, ?_⟩
  show State.runPending s false (gencodeCommand s) = _
  rw [State.runPending_some hp, gencodeCommand, if_pos hv, hx]
  rfl

theorem witness_GencodeOneSymbol : ∃ t, xGencode.pend = some ⟨encode .gencode, ⟨0, 0, 0, 0⟩⟩ ∧ xGencode.tree.valid = true ∧
    TreeShape xGencode.tree ∧ xGencode.tree.leafCount = 1 ∧ xGencode.tree.leafset.getLsbD (0x78#8).toNat = true ∧
    exec .gencode xGencode = .next t := by
  obtain ⟨xs, hx⟩ := gencode_next (s := xGencode) rfl rfl (buildTree_shape xFreq x_ne)
  refine ⟨_, rfl, rfl, buildTree_shape xFreq x_ne, ?_, ?_, hx⟩
  · apply BitVec.eq_of_toNat_eq
    rw [show xGencode.tree.leafCount.toNat = _ from buildTree_leafCount xFreq]
    decide +kernel
  · refine (leafset_bit xFreq 0x78).trans ?_
    simp [xFreq]

theorem witness_GencodeNeedsATree : (due .gencode ⟨0, 0, 0, 0⟩).pend = some ⟨encode .gencode, ⟨0, 0, 0, 0⟩⟩ ∧
    (due .gencode ⟨0, 0, 0, 0⟩).tree.valid = false := ⟨rfl, rfl⟩

theorem witness_GencodeIsTheStackTraversal : ∃ t : State,
    (aaabState .gencode ⟨0, 0, 0, 0⟩).pend = some ⟨encode .gencode, ⟨0, 0, 0, 0⟩⟩ ∧
      exec .gencode (aaabState .gencode ⟨0, 0, 0, 0⟩) = .next t ∧ t.err.code = .ok := by
  obtain ⟨xs, hx⟩ := gencode_next (s := aaabState .gencode ⟨0, 0, 0, 0⟩) rfl rfl aaab_shape
  exact ⟨_, rfl, hx, rfl⟩

/-- An arena no BUILD makes: every entry is the same, and ROOT is its own child. -/
def uniform (n : Node) : Tree := { Tree.empty with valid := true, root := 0, node := Vector.replicate 511 n }

theorem nodeAt_uniform (n : Node) : nodeAt (uniform n).node 0 = n := by
  simp [uniform, nodeAt]

theorem pathInside_uniform {n : Node} (hk : n.kind = .internal) {bs : List Bool} (hb : ∀ b ∈ bs, n.child b = 0) :
    (uniform n).pathInside bs 0 := by
  refine ⟨?_, by rw [nodeAt_uniform, hk]⟩
  show (uniform n).descend 0 bs = some 0
  induction bs with
  | nil => rfl
  | cons b bs ih =>
    rw [Machine.Tree.descend, nodeAt_uniform, hk, hb b (by simp)]
    simp only [show (0 : NodeIx) ≠ nil by decide, if_false]
    exact ih (fun c hc => hb c (by simp [hc]))

def cyclic : State := issued { State.reset with tree := uniform ⟨true, .internal, 0, 0, 0, nil⟩ } .gencode ⟨0, 0, 0, 0⟩

theorem cyclic_hangs (fuel : Nat) (l v : Nat) : leafCodes cyclic.tree.node fuel 0 l v = none := by
  induction fuel generalizing l v with
  | zero => rfl
  | succ fuel ih =>
    have h : nodeAt cyclic.tree.node 0 = ⟨true, .internal, 0, 0, 0, nil⟩ := nodeAt_uniform _
    rw [leafCodes, h]
    simp only [show (0 : NodeIx) ≠ nil by decide, if_false, ih]

theorem witness_GencodeFaultsOnlyOnEndlessTraversal : cyclic.pend = some ⟨encode .gencode, ⟨0, 0, 0, 0⟩⟩ ∧
    exec .gencode cyclic = .fault .endlessTraversal := by
  refine ⟨rfl, ?_⟩
  show State.complete cyclic false (gencodeCommand cyclic ⟨encode .gencode, ⟨0, 0, 0, 0⟩⟩) = _
  rw [gencodeCommand, if_pos (show cyclic.tree.valid = true from rfl), show leafCodes cyclic.tree.node 512 cyclic.tree.root 0 0 = none from cyclic_hangs _ _ _]
  rfl

theorem witness_CodesArePrefixFree : Inv (aaabState .nop ⟨0, 0, 0, 0⟩) ∧ (aaabState .nop ⟨0, 0, 0, 0⟩).codes.valid = true ∧
    (0x61#8) ≠ 0x62#8 ∧ aaabTree.leafset.getLsbD (0x61#8).toNat = true ∧ aaabTree.leafset.getLsbD (0x62#8).toNat = true :=
  ⟨aaabState_inv _ _, rfl, by decide, (aaab_shape.pathTo_iff _).mp ⟨_, aaab_path_a⟩,
    (aaab_shape.pathTo_iff _).mp ⟨_, aaab_path_b⟩⟩

theorem witness_KraftSumIsExact : Inv (aaabState .nop ⟨0, 0, 0, 0⟩) ∧ (aaabState .nop ⟨0, 0, 0, 0⟩).codes.valid = true :=
  ⟨aaabState_inv _ _, rfl⟩

theorem aaab_coded : ∀ b ∈ aaab, (symGet aaabCodes.entry b).len ≠ 0 := by decide +kernel

theorem aaab_bits : aaab.flatMap (fun b => (List.range (symGet aaabCodes.entry b).len.toNat).map
    (fun j => (symGet aaabCodes.entry b).bits.getLsbD ((symGet aaabCodes.entry b).len.toNat - 1 - j))) =
    [false, false, false, true] := by decide +kernel

/-- An ENCODE of "aaab" to 0x200 pending. -/
abbrev aaabEncode : State := aaabState .encode ⟨0, 4, 0x200, 0⟩

theorem witness_EncodePacksTheCodes : aaabEncode.pend = some ⟨encode .encode, ⟨0, 4, 0x200, 0⟩⟩ ∧
    Config.dmemSizeOk aaabEncode.mem.size = true ∧ aaabEncode.mem.wf = true ∧ aaabEncode.codes.valid = true ∧
    (0#32).toNat + (4#32).toNat ≤ aaabEncode.mem.size ∧ (4#32) ≠ 0 ∧
    (∀ b ∈ inputOf aaabEncode ⟨0, 4, 0x200, 0⟩, (symGet aaabEncode.codes.entry b).len ≠ 0) ∧
    (0x200#32).toNat + ((aaab.flatMap (fun b => (List.range (symGet aaabCodes.entry b).len.toNat).map
      (fun j => (symGet aaabCodes.entry b).bits.getLsbD ((symGet aaabCodes.entry b).len.toNat - 1 - j)))).length + 7) / 8 ≤
      aaabEncode.mem.size := by
  refine ⟨rfl, (aaabState_inv _ _).memory.1, aaabMem_wf, rfl, ?_, by decide, ?_, ?_⟩
  · show _ ≤ aaabMem.size
    rw [aaabMem_size]; decide
  · rw [aaab_input]; exact aaab_coded
  · rw [aaab_bits]
    show _ ≤ aaabMem.size
    rw [aaabMem_size]; decide

/-- One state for each of ENCODE's checks: no table, a range that passes DMEM_SIZE, no input, a byte without a code (every byte,
the table being empty but valid), and no room for the output at the end of DMEM (V-E14). -/
theorem witness_EncodeErrorsInOrder :
    ((due .encode ⟨0, 4, 0x200, 0⟩).pend.isSome = true ∧ (due .encode ⟨0, 4, 0x200, 0⟩).codes.valid = false) ∧
    (aaabEncode.codes.valid = true ∧ aaabEncode.mem.size < (65535#32).toNat + (2#32).toNat) ∧
    (aaabEncode.codes.valid = true ∧ (65536#32).toNat + (0#32).toNat ≤ aaabEncode.mem.size ∧ (0#32) = (0 : Word)) ∧
    (∃ s : State, s.codes.valid = true ∧ (0#32).toNat + (4#32).toNat ≤ s.mem.size ∧
      (∃ b, (inputOf s ⟨0, 4, 0x200, 0⟩)[0]? = some b ∧ (symGet s.codes.entry b).len = 0) ∧
      ∀ c ∈ (inputOf s ⟨0, 4, 0x200, 0⟩).take 0, (symGet s.codes.entry c).len ≠ 0) ∧
    (aaabEncode.codes.valid = true ∧ (0#32).toNat + (4#32).toNat ≤ aaabEncode.mem.size ∧ (4#32) ≠ (0 : Word) ∧
      (∀ b ∈ inputOf aaabEncode ⟨0, 4, 0x200, 0⟩, (symGet aaabEncode.codes.entry b).len ≠ 0) ∧
      aaabEncode.mem.size < (65536#32).toNat + ((aaab.map (fun b => (symGet aaabCodes.entry b).len.toNat)).sum + 7) / 8) := by
  have hs : aaabEncode.mem.size = 65536 := aaabMem_size
  refine ⟨⟨rfl, rfl⟩, ⟨rfl, ?_⟩, ⟨rfl, ?_, rfl⟩, ?_, rfl, ?_, by decide, ?_, ?_⟩
  · rw [hs]; decide
  · rw [hs]; decide
  · refine ⟨{ State.reset with codes := ⟨true, 0, Vector.replicate 256 Code.empty⟩ }, rfl, by decide, ⟨_, rfl, ?_⟩, ?_⟩
    · show (symGet (Vector.replicate 256 Code.empty) _).len = 0
      rw [symGet_replicate]; rfl
    · intro c hc
      cases hc
  · rw [hs]; decide
  · rw [aaab_input]; exact aaab_coded
  · rw [hs]
    have : (aaab.map (fun b => (symGet aaabCodes.entry b).len.toNat)).sum = 4 := by decide +kernel
    rw [this]; decide

theorem encodeBits_aaab : encodeBits aaabCodes.entry 0 aaab = .ok [false, false, false, true] := by decide +kernel

/-- The state after the ENCODE. -/
def aaabEncoded : State :=
  completed { aaabEncode with mem := aaabMem.writeBytes 0x200 [0x10], out := ⟨1, 4⟩ }

theorem aaabEncode_next : exec .encode aaabEncode = .next aaabEncoded := by
  show State.complete aaabEncode true (encodeCommand aaabEncode ⟨encode .encode, ⟨0, 4, 0x200, 0⟩⟩) = _
  have hin : Operands.inputBytes ⟨0, 4, 0x200, 0⟩ aaabEncode.mem = aaab := aaab_input .encode ⟨0, 4, 0x200, 0⟩
  have hr : ∀ a l : Nat, a + l ≤ 65536 → aaabEncode.mem.rangeOk a l = true := fun a l h => by
    rw [Memory.rangeOk, show aaabEncode.mem.size = 65536 from aaabMem_size]; exact decide_eq_true h
  rw [encodeCommand, if_pos (show aaabEncode.codes.valid = true from rfl), if_pos (hr _ _ (by decide)),
    if_neg (by decide), hin, show aaabEncode.codes.entry = aaabCodes.entry from rfl, encodeBits_aaab]
  simp only
  rw [if_pos (hr _ _ (by decide))]
  rfl

theorem witness_EncodedBitCountIsTheCost : aaabEncode.pend = some ⟨encode .encode, ⟨0, 4, 0x200, 0⟩⟩ ∧
    Config.dmemSizeOk aaabEncode.mem.size = true ∧ exec .encode aaabEncode = .next aaabEncoded ∧
    aaabEncoded.err.code = .ok ∧
    ∀ b : Byte, (symGet aaabEncode.freq b).toNat = (inputOf aaabEncode ⟨0, 4, 0x200, 0⟩).count b := by
  refine ⟨rfl, (aaabState_inv _ _).memory.1, aaabEncode_next, rfl, fun b => ?_⟩
  rw [aaab_input, show aaabEncode.freq = aaabFreq from rfl, aaabFreq, symGet_symSet, symGet_symSet, symGet_freqEmpty]
  by_cases h2 : b = 0x62
  · subst h2; decide
  · by_cases h1 : b = 0x61
    · subst h1; decide
    · rw [if_neg h2, if_neg h1, List.count_eq_zero.mpr (fun hm => ?_)]
      · rfl
      · simp only [aaab, List.mem_cons, List.not_mem_nil, or_false] at hm
        rcases hm with hm | hm | hm | hm
        · exact h1 hm
        · exact h1 hm
        · exact h1 hm
        · exact h2 hm

/-- A BUILD of "aaab" pending, the host's next statement an ENCODE command: the state one step after the BUILD's completion. -/
theorem witness_EncodeAfterBuildNeedsGencode : ∃ (s t u : State) (p q : Pend), s.pend = some p ∧
    exec .build s = .next t ∧ t.err.code = .ok ∧ Host.Core.run Sys2Proof.core 1 t = .next u ∧
    (∀ (j : Nat) (v : State) (g : Pend), j < 1 → Host.Core.run Sys2Proof.core j t = .next v → CoreTurn v g →
      g.word ≠ 0x00000004#32) ∧ CoreTurn u q ∧ q.word = 0x00000005#32 := by
  refine ⟨{ aaabBuild with host := [.write 0x01C 32 0x00000005] }, _, _, _, ⟨0x00000005#32, aaabBuild.ops⟩, rfl,
    build_next (s := { aaabBuild with host := [.write 0x01C 32 0x00000005] }) rfl aaab_ne, rfl, rfl, ?_, ⟨rfl, .inl rfl⟩, rfl⟩
  intro j v g hj hr hc
  obtain rfl : j = 0 := by omega
  cases hr
  exact absurd hc.1 (by simp [completed])

/-- A DECODE of the packed byte to 0x200 pending, with EXPSET the leaf set for DECODE.CHK (V-U1). -/
def aaabDecode (i : Instr) (dst : Word) : State :=
  { aaabState i ⟨0x100, 1, dst, 4⟩ with expset := aaabTree.leafset }

theorem aaab_ready (i : Instr) (hi : i = .decode ∨ i = .decodeChk) (dst : Word) :
    DecodeReady i (aaabDecode i dst) ⟨0x100, 1, dst, 4⟩ := by
  refine ⟨hi.imp id (fun h => ⟨h, rfl⟩), rfl, by simp, ?_⟩
  show (0x100#32).toNat + (1#32).toNat ≤ aaabMem.size
  rw [aaabMem_size]; decide

theorem witness_DecodeStoresTheSymbols : ∀ i, (i = .decode ∨ i = .decodeChk) →
    (aaabDecode i 0x200).pend = some ⟨encode i, ⟨0x100, 1, 0x200, 4⟩⟩ ∧ (aaabDecode i 0x200).mem.wf = true ∧
      DecodeReady i (aaabDecode i 0x200) ⟨0x100, 1, 0x200, 4⟩ ∧
      WholeCodes (aaabDecode i 0x200).tree [([false], 0x61), ([false], 0x61), ([false], 0x61), ([true], 0x62)] ∧
      streamOf (aaabDecode i 0x200) ⟨0x100, 1, 0x200, 4⟩ =
        [([false], (0x61 : Byte)), ([false], 0x61), ([false], 0x61), ([true], 0x62)].flatMap Prod.fst ∧
      OutputFits (aaabDecode i 0x200) ⟨0x100, 1, 0x200, 4⟩
        [([false], 0x61), ([false], 0x61), ([false], 0x61), ([true], 0x62)] := by
  refine fun i hi => ⟨rfl, aaabMem_wf, aaab_ready i hi _, ?_, aaab_stream rfl _, .inr ?_⟩
  · intro x hx
    simp only [List.mem_cons, List.not_mem_nil, or_false] at hx
    rcases hx with rfl | rfl | rfl | rfl
    · exact ⟨by simp, aaab_path_a⟩
    · exact ⟨by simp, aaab_path_a⟩
    · exact ⟨by simp, aaab_path_a⟩
    · exact ⟨by simp, aaab_path_b⟩
  · show _ ≤ aaabMem.size
    rw [aaabMem_size]; decide

/-- No tree; a leaf set with a least difference (V-U11's form); a length mismatch (V-U15); a source range past the end. -/
theorem witness_DecodeChecksBeforeTheWalk :
    (due .decode ⟨0, 0, 0, 0⟩).tree.valid = false ∧
    (∃ s : State, s.tree.valid = true ∧ s.tree.leafset.getLsbD 3 ≠ s.expset.getLsbD 3 ∧
      ∀ j, j < 3 → s.tree.leafset.getLsbD j = s.expset.getLsbD j) ∧
    ((aaabDecode .decodeChk 0).tree.leafset = (aaabDecode .decodeChk 0).expset ∧
      (aaabDecode .decodeChk 0).tree.valid = true ∧ (1#32).toNat ≠ ((0#32).toNat + 7) / 8 ∧
      (1#32).toNat = ((4#32).toNat + 7) / 8 ∧ (aaabDecode .decodeChk 0).mem.size < (65536#32).toNat + (1#32).toNat) := by
  refine ⟨rfl, ⟨{ State.reset with tree := { Tree.empty with valid := true, leafset := 8 } }, rfl, by decide, by decide⟩,
    rfl, rfl, by decide, by decide, ?_⟩
  show aaabMem.size < _
  rw [aaabMem_size]; decide

/-- The three ways a walk fails: at the root's missing child of the single-symbol tree (V-U7), at the second symbol with room
for one (V-U17's form), and inside the tree, from a state the stream of V-B8 is in after one bit (V-U13). -/
theorem witness_DecodeErrorsOfTheWalk :
    (DecodeReady .decode (aaabDecode .decode 65536) ⟨0x100, 1, 65536, 4⟩ ∧
      WholeCodes (aaabDecode .decode 65536).tree [] ∧ OutputFits (aaabDecode .decode 65536) ⟨0x100, 1, 65536, 4⟩ [] ∧
      streamOf (aaabDecode .decode 65536) ⟨0x100, 1, 65536, 4⟩ =
        ([] : List (List Bool × Byte)).flatMap Prod.fst ++ [false] ++ [false, false, true] ∧
      WholeCodes (aaabDecode .decode 65536).tree [([false], 0x61)] ∧
      (aaabDecode .decode 65536).mem.size < (65536#32).toNat + 0 + 1) ∧
    (∃ s : State, DecodeReady .decode s ⟨0x100, 1, 0, 4⟩ ∧ s.tree.pathInside [false, false, false] 0 ∧
      (nodeAt s.tree.node 0).child true = nil ∧ streamOf s ⟨0x100, 1, 0, 4⟩ = [false, false, false] ++ true :: []) ∧
    (∃ s : State, DecodeReady .decode s ⟨0x100, 1, 0, 4⟩ ∧ s.tree.pathInside [false, false, false, true] 0 ∧
      streamOf s ⟨0x100, 1, 0, 4⟩ = [false, false, false, true]) := by
  have hs : ∀ i o, 0x100 + 1 ≤ (aaabState i o).mem.size := fun i o => by
    show _ ≤ aaabMem.size
    rw [aaabMem_size]; decide
  refine ⟨⟨aaab_ready .decode (.inl rfl) _, by simp [WholeCodes], .inl rfl, aaab_stream rfl _, ?_, ?_⟩, ?_, ?_⟩
  · intro x hx
    rw [List.mem_singleton.mp hx]
    exact ⟨by simp, aaab_path_a⟩
  · show aaabMem.size < _
    rw [aaabMem_size]; decide
  · refine ⟨{ aaabState .decode ⟨0x100, 1, 0, 4⟩ with tree := uniform ⟨true, .internal, 0, 0, 0, nil⟩ },
      ⟨.inl rfl, rfl, by simp, hs .decode ⟨0x100, 1, 0, 4⟩⟩, ?_, ?_, aaab_stream rfl _⟩
    · exact pathInside_uniform rfl (by decide)
    · exact congrArg Node.right (nodeAt_uniform _)
  · refine ⟨{ aaabState .decode ⟨0x100, 1, 0, 4⟩ with tree := uniform ⟨true, .internal, 0, 0, 0, 0⟩ },
      ⟨.inl rfl, rfl, by simp, hs .decode ⟨0x100, 1, 0, 4⟩⟩, ?_, aaab_stream rfl _⟩
    exact pathInside_uniform rfl (by decide)

/-- Two memories that agree on a stream of no bits (V-U14). -/
theorem witness_PaddingBitsAreNeverRead : ∃ t, (due .decode ⟨0, 0, 0, 0⟩).pend = some ⟨encode .decode, ⟨0, 0, 0, 0⟩⟩ ∧
    (due .decode ⟨0, 0, 0, 0⟩).mem.wf = true ∧ aaabMem.wf = true ∧ aaabMem.size = (due .decode ⟨0, 0, 0, 0⟩).mem.size ∧
    streamOf { due .decode ⟨0, 0, 0, 0⟩ with mem := aaabMem } ⟨0, 0, 0, 0⟩ =
      streamOf (due .decode ⟨0, 0, 0, 0⟩) ⟨0, 0, 0, 0⟩ ∧ exec .decode (due .decode ⟨0, 0, 0, 0⟩) = .next t :=
  ⟨_, rfl, rfl, aaabMem_wf, aaabMem_size, rfl, rfl⟩

theorem witness_DecodeUndoesEncode : ∃ d q, Inv aaabEncode ∧ aaabEncode.pend = some ⟨encode .encode, ⟨0, 4, 0x200, 0⟩⟩ ∧
    exec .encode aaabEncode = .next aaabEncoded ∧ aaabEncoded.err.code = .ok ∧ State.pend d = some q ∧ d.mem.wf = true ∧
    d.mem.size = aaabEncode.mem.size ∧ d.tree = aaabEncode.tree ∧ q.ops.len = aaabEncoded.out.len ∧
    q.ops.bits = aaabEncoded.out.bits ∧ q.ops.src.toNat + aaabEncoded.out.len.toNat ≤ aaabEncode.mem.size ∧
    (∀ k, k < aaabEncoded.out.len.toNat → d.mem.read (q.ops.src.toNat + k) = aaabEncoded.mem.read ((0x200#32).toNat + k)) ∧
    q.ops.dst.toNat + (4#32).toNat ≤ aaabEncode.mem.size := by
  have hw : (aaabMem.writeBytes 0x200 [0x10]).wf = true :=
    Memory.writeBytes_wf aaabMem_wf _ (by rw [aaabMem_size]; decide)
  have hs : aaabEncode.mem.size = 65536 := aaabMem_size
  refine ⟨issued aaabEncoded .decode ⟨0x200, 1, 0x300, 4⟩, _, aaabState_inv _ _, rfl, aaabEncode_next, rfl, rfl, hw,
    Memory.writeBytes_size _ _ _, rfl, rfl, rfl, ?_, fun k _ => rfl, ?_⟩
  · rw [hs]; decide
  · rw [hs]; decide

/-- All of DMEM as input; one byte, whose code of at most 255 bits has room at 0; and a D that leaves no room for any. -/
theorem witness_PipelineRoundTrip : MemoryOk State.reset ∧
    (∀ len ∈ [65536#32, 1#32], len ≠ 0 ∧ (0#32).toNat + len.toNat ≤ 65536) ∧ State.reset.mem.size = 65536 ∧
    (∀ total, total ≤ 255 → (0#32).toNat + (total + 7) / 8 ≤ State.reset.mem.size) ∧
    ∀ total, ¬ (0xFFFFFFFF#32).toNat + (total + 7) / 8 ≤ State.reset.mem.size := by
  refine ⟨⟨by decide, by decide⟩, by simp, rfl, fun total h => ?_, fun total h => ?_⟩
  · show 0 + (total + 7) / 8 ≤ 65536
    omega
  · have : 4294967295 + (total + 7) / 8 ≤ 65536 := h
    omega

/-- One success and one failure. -/
theorem witness_CommandsAreAllOrNothing : (∃ t, exec .nop (due .nop ⟨0, 0, 0, 0⟩) = .next t ∧ t.err.code = .ok) ∧
    ∃ t, exec .decode (due .decode ⟨0, 0, 0, 0⟩) = .next t ∧ t.err.code = .noTree := ⟨⟨_, rfl, rfl⟩, ⟨_, rfl, rfl⟩⟩

theorem witness_ErrorCodesOfEachCommand : ∃ t, (due .encode ⟨0, 0, 0, 0⟩).pend = some ⟨encode .encode, ⟨0, 0, 0, 0⟩⟩ ∧
    exec .encode (due .encode ⟨0, 0, 0, 0⟩) = .next t := ⟨_, rfl, rfl⟩

theorem witness_CommandFrame : aaabEncode.pend = some ⟨encode .encode, ⟨0, 4, 0x200, 0⟩⟩ ∧
    Config.dmemSizeOk aaabEncode.mem.size = true ∧ exec .encode aaabEncode = .next aaabEncoded :=
  ⟨rfl, (aaabState_inv _ _).memory.1, aaabEncode_next⟩

theorem witness_EveryStepKeepsTheInvariant : Inv aaabEncode ∧ step aaabEncode = .next aaabEncoded :=
  ⟨aaabState_inv _ _, aaabEncode_next⟩

/-- A state the invariant allows, and one of them in which the host makes a 16-bit transaction. -/
theorem witness_InvariantStatesNeverFault : Inv aaabEncode ∧ ∃ s op, Inv s ∧ HostTurn s op [] ∧ op.admitted = false ∧
    step s = .refused .inadmissibleTransaction := by
  refine ⟨aaabState_inv _ _, { aaabEncode with pend := none, host := [.read 0x01C 16] }, .read 0x01C 16, ?_,
    ⟨rfl, .inl rfl⟩, rfl, rfl⟩
  obtain ⟨h1, _, h3, h4⟩ := aaabState_inv .encode ⟨0, 4, 0x200, 0⟩
  exact ⟨h1, fun p hp => by simp at hp, h3, h4⟩

theorem witness_PendingCommandEnds : ∃ (s : State) (p : Pend), Inv s ∧ s.pend = some p ∧ s.latency = 3 ∧
    s.host = [.wait 0x00C 0x1 0x0] ∧ ∀ op ∈ s.host, HostOp.admitted op = true := by
  obtain ⟨h1, h2, h3, h4⟩ := aaabState_inv .encode ⟨0, 4, 0x200, 0⟩
  refine ⟨{ aaabEncode with latency := 3, host := [.wait 0x00C 0x1 0x0] }, _, ⟨h1, h2, h3, h4⟩, rfl, rfl, rfl, ?_⟩
  intro op hop
  rw [List.mem_singleton.mp hop]
  rfl

/-- A BUILD over the reset state's tree changes the tree. -/
theorem witness_OnlyBuildAndResetChangeTheTree : ∃ t, step aaabBuild = .next t ∧ t.tree ≠ aaabBuild.tree := by
  refine ⟨completed { aaabBuild with tree := aaabTree, codes := Codes.empty }, aaabBuild_next, fun h => ?_⟩
  have : (buildTree aaabFreq).valid = Tree.empty.valid := congrArg Machine.Tree.valid h
  exact absurd this (by decide)

/-- And clears a code table. -/
theorem witness_OnlyBuildGencodeAndResetChangeTheCodes : ∃ s t : State, step s = .next t ∧ t.codes ≠ s.codes := by
  refine ⟨{ aaabBuild with codes := aaabCodes },
    completed { aaabBuild with tree := aaabTree, codes := Codes.empty }, ?_, fun h => ?_⟩
  · exact build_next (s := { aaabBuild with codes := aaabCodes }) rfl aaab_ne
  · have : Codes.empty.valid = aaabCodes.valid := congrArg Codes.valid h
    exact absurd this (by decide)

/-- An ENCODE over a byte that held something else. -/
theorem witness_DmemBytesStayUntilWritten : ∃ (s t : State) (a : Nat), step s = .next t ∧ t.mem.read a ≠ s.mem.read a := by
  refine ⟨{ State.reset with
    mem := (⟨65536, 0, []⟩ : Memory).writeBytes 0 [1, 0, 0, 0], host := [.write 0x100000 32 0] }, _, 0, rfl, ?_⟩
  have hr : Rising (⟨65536, 0, []⟩ : Memory).cells := List.Pairwise.nil
  have h1 := Memory.read_writeBytes_inside hr 0 [1, 0, 0, 0] 0 (by decide)
  have h2 := Memory.read_writeBytes_inside (Memory.writeBytes_rising hr 0 [1, 0, 0, 0]) 0 [0, 0, 0, 0] 0 (by decide)
  simp only [Nat.add_zero, List.getElem_cons_zero] at h1 h2
  show (((⟨65536, 0, []⟩ : Memory).writeBytes 0 [1, 0, 0, 0]).writeBytes 0 [0, 0, 0, 0]).read 0 ≠ _
  rw [h2]
  intro h
  rw [show ((⟨65536, 0, []⟩ : Memory).writeBytes 0 [1, 0, 0, 0]).read 0 = 1 from h1] at h
  exact absurd h (by decide)

/-- Host steps that are no reset and that are each of the resets, and a core step. -/
theorem witness_ErrorReportIsTheLastCompletions :
    (∃ t, HostTurn (busy (.read 0x014 32)) (.read 0x014 32) [] ∧ step (busy (.read 0x014 32)) = .next t) ∧
    (∃ t, HostTurn (busy (.write 0x008 32 2)) (.write 0x008 32 2) [] ∧ step (busy (.write 0x008 32 2)) = .next t ∧
      (2#32).getLsbD 0 = false) ∧
    (∃ t, HostTurn (busy (.write 0x008 32 1)) (.write 0x008 32 1) [] ∧ step (busy (.write 0x008 32 1)) = .next t ∧
      (1#32).getLsbD 0 = true) ∧
    (∃ t, HostTurn (busy .powerOn) .powerOn [] ∧ step (busy .powerOn) = .next t) ∧
    (∃ t, CoreTurn (due .nop ⟨0, 0, 0, 0⟩) ⟨encode .nop, ⟨0, 0, 0, 0⟩⟩ ∧ step (due .nop ⟨0, 0, 0, 0⟩) = .next t) :=
  ⟨⟨_, busy_turn _, rfl⟩, ⟨_, busy_turn _, rfl, by decide⟩, ⟨_, busy_turn _, rfl, by decide⟩, ⟨_, busy_turn _, rfl⟩,
    ⟨_, due_turn _ _, rfl⟩⟩

/-- The outcome by the checks in their order (R121): V-U7's missing child, V-C6's illegal word. -/
theorem test_outcome_missing : outcomeOf { withBytes [0x40] with tree := tree3 } ⟨0x00000006, ⟨0, 1, 0x30, 2⟩⟩ =
    ⟨.corruptStream, 1⟩ ∧ outcomeOf State.reset ⟨0x00000405, ⟨0, 0, 0, 0⟩⟩ = ⟨.illegalCommand, 0x405⟩ := by decide +kernel

end Sys2Proof.Tests
end

section
/-! PROOFS. What a command's step writes, said once, and the invariant that every step keeps (O54). -/

namespace Sys2Proof

open Machine

/-! ## A command's step, said once -/

/-- What each command's `execute` gives (R77). -/
def executeOf : Instr → State → Pend → CmdResult
  | .nop, s       => fun _ => .done s
  | .clrf, s      => fun _ => .done { s with freq := FreqTable.empty }
  | .count, s     => countCommand false s
  | .countAcc, s  => countCommand true s
  | .build, s     => buildCommand s
  | .gencode, s   => gencodeCommand s
  | .encode, s    => encodeCommand s
  | .decode, s    => decodeCommand false s
  | .decodeChk, s => decodeCommand true s

theorem exec_eq_runPending (i : Instr) (s : State) : exec i s = s.runPending (isCodec i) (executeOf i s) := by
  cases i <;> rfl

/-- What a command that succeeds has written, by family: nothing, the FREQ table, the tree, the code table, or output bytes
that fit below DMEM_SIZE. -/
inductive Writes (i : Instr) (s : State) (p : Pend) : State → Prop where
  | nothing : i = .nop → Writes i s p s
  | freq (f : FreqTable) : i = .clrf ∨ i = .count ∨ i = .countAcc → Writes i s p { s with freq := f }
  | tree : i = .build → presentSymbols s.freq ≠ [] →
      Writes i s p { s with tree := buildTree s.freq, codes := Codes.empty }
  | codes (xs : List (Byte × Code)) : i = .gencode → s.tree.valid = true →
      leafCodes s.tree.node 512 s.tree.root 0 0 = some xs →
      Writes i s p { s with codes := ⟨true, maxCodeLen (codeTableOf xs), codeTableOf xs⟩ }
  | output (bytes : List Byte) (bits : Word) : isCodec i = true →
      bytes = [] ∨ p.ops.dst.toNat + bytes.length ≤ s.mem.size →
      Writes i s p { s with
        mem := s.mem.writeBytes p.ops.dst.toNat bytes, out := ⟨BitVec.ofNat 32 bytes.length, bits⟩ }

theorem decodeCommand_writes {chk : Bool} {i : Instr} {s u : State} {p : Pend} (hi : isCodec i = true)
    (h : decodeCommand chk s p = .done u) : Writes i s p u := by
  obtain ⟨_, _, hs⟩ := decodeCommand_done h
  obtain ⟨_, _, out, ho, rfl⟩ := decodeStream_done hs
  exact .output out _ hi (by simpa using walk_length ho)

theorem executeOf_writes {i : Instr} {s u : State} {p : Pend} (h : executeOf i s p = .done u) : Writes i s p u := by
  cases i with
  | nop => cases h; exact .nothing rfl
  | clrf => cases h; exact .freq _ (by simp)
  | count => obtain ⟨_, f, _, rfl⟩ := countCommand_done h; exact .freq f (by simp)
  | countAcc => obtain ⟨_, f, _, rfl⟩ := countCommand_done h; exact .freq f (by simp)
  | build => obtain ⟨hn, rfl⟩ := buildCommand_done (p := p) h; exact .tree rfl hn
  | gencode => obtain ⟨hv, xs, hx, rfl⟩ := gencodeCommand_done (p := p) h; exact .codes xs rfl hv hx
  | encode =>
    obtain ⟨_, _, _, bits, _, hd, rfl⟩ := encodeCommand_done h
    rw [← pack_length] at hd ⊢
    exact .output _ _ rfl (.inr (by simpa [Memory.rangeOk] using hd))
  | decode => exact decodeCommand_writes (chk := false) rfl h
  | decodeChk => exact decodeCommand_writes (chk := true) rfl h

/-- Everything a pending command's step can do when it answers a next state, with what it writes. -/
theorem exec_writes {i : Instr} {s t : State} {p : Pend} (hp : s.pend = some p) (h : exec i s = .next t) :
    (∃ e, t = s.failWith (isCodec i) e) ∨ ∃ u, Writes i s p u ∧ t = u.succeed := by
  rw [exec_eq_runPending] at h
  rcases State.runPending_next h with ⟨hn, _⟩ | ⟨q, hq, ⟨u, hu, ht⟩ | ⟨e, _, ht⟩⟩
  · simp [hp] at hn
  · obtain rfl : p = q := by simpa [hp] using hq
    exact .inr ⟨u, executeOf_writes hu, ht⟩
  · exact .inl ⟨e, ht⟩

/-! ## The invariant -/

/-- The invariant speaks of DMEM, the tree, the code table, and the pending command with CMD and the operand registers. -/
theorem Inv.of_eq {s t : State} (h : Inv s) (hm : t.mem = s.mem) (ht : t.tree = s.tree) (hc : t.codes = s.codes)
    (hp : t.pend = none ∨ t.pend = s.pend ∧ t.cmd = s.cmd ∧ t.ops = s.ops) : Inv t where
  memory := by simpa only [MemoryOk, hm] using h.memory
  pend := by
    rcases hp with hn | ⟨hp, hw, ho⟩
    · simp [PendOk, hn]
    · simpa only [PendOk, hp, hw, ho] using h.pend
  tree := by simpa only [TreeOk, ht] using h.tree
  codes := by simpa only [CodesOk, ht, hc] using h.codes

/-- A memory of the same size in canonical form keeps the invariant. -/
theorem Inv.with_mem {s : State} (h : Inv s) {m : Memory} (hs : m.size = s.mem.size) (hw : m.wf = true) :
    Inv { s with mem := m } where
  memory := ⟨by simpa only [hs] using h.memory.1, hw⟩
  pend := h.pend
  tree := h.tree
  codes := h.codes

theorem Inv.resetElements {s : State} (h : Inv s) : Inv s.resetElements where
  memory := h.memory
  pend := fun _ hp => by cases hp
  tree := .inl ⟨rfl, rfl⟩
  codes := .inl ⟨rfl, rfl⟩

theorem Inv.accept {s : State} (h : Inv s) (v : Word) : Inv (s.accept v) where
  memory := h.memory
  pend := fun _ hp => by cases hp; exact ⟨rfl, rfl⟩
  tree := h.tree
  codes := h.codes

theorem Inv.failWith {s : State} (h : Inv s) (z : Bool) (e : ErrReport) : Inv (s.failWith z e) :=
  h.of_eq rfl rfl rfl (.inl rfl)

theorem Inv.succeed {s : State} (h : Inv s) : Inv s.succeed := h.of_eq rfl rfl rfl (.inl rfl)

/-- With TREE_VALID the tree has the shape of R96. -/
theorem TreeOk.shape {s : State} (h : TreeOk s) (hv : s.tree.valid = true) : TreeShape s.tree := by
  rcases h with ⟨hn, _⟩ | ⟨_, hs⟩
  · simp [hv] at hn
  · exact hs

theorem writeBytes_keeps_wf {m : Memory} {a : Nat} {bytes : List Byte} (h : m.wf = true)
    (hf : bytes = [] ∨ a + bytes.length ≤ m.size) : (m.writeBytes a bytes).wf = true := by
  rcases hf with rfl | hf
  · exact h
  · exact Memory.writeBytes_wf h bytes hf

/-- A command's writes keep the invariant: BUILD's tree has its shape, GENCODE's table the path codes, stored bytes fit. -/
theorem Writes.inv {i : Instr} {s u : State} {p : Pend} (hw : Writes i s p u) (h : Inv s) : Inv u := by
  cases hw with
  | nothing => exact h
  | freq f => exact h.of_eq rfl rfl rfl (.inr ⟨rfl, rfl, rfl⟩)
  | tree _ hn => exact ⟨h.memory, h.pend, .inr ⟨rfl, buildTree_shape _ hn⟩, .inl ⟨rfl, rfl⟩⟩
  | codes xs _ hv hx => exact ⟨h.memory, h.pend, h.tree, .inr ⟨rfl, hv, (h.tree.shape hv).pathCodes hx⟩⟩
  | output bytes bits _ hf =>
    exact (h.with_mem (Memory.writeBytes_size _ _ _) (writeBytes_keeps_wf h.memory.2 hf)).of_eq rfl rfl rfl
      (.inr ⟨rfl, rfl, rfl⟩)

theorem exec_keeps_inv {i : Instr} {s t : State} {p : Pend} (hp : s.pend = some p) (h : exec i s = .next t)
    (hi : Inv s) : Inv t := by
  rcases exec_writes hp h with ⟨e, rfl⟩ | ⟨u, hu, rfl⟩
  · exact hi.failWith _ e
  · exact (hu.inv hi).succeed

/-- A word inside DMEM, whose size is a multiple of 4, fits whole. -/
theorem MemoryOk.word_fits {s : State} (h : MemoryOk s) {a : Nat} (ha : a % 4 = 0) (hlt : a < s.mem.size) :
    a + 4 ≤ s.mem.size := by
  have hsize : s.mem.size % 4 = 0 := by
    have := h.1
    simp only [Config.dmemSizeOk, Bool.and_eq_true, decide_eq_true_eq] at this
    exact this.2
  omega

theorem busWrite_keeps_inv {s : State} (h : Inv s) (off : BitVec 21) (v : Word) (h4 : off.toNat % 4 = 0) :
    Inv (s.busWrite off v) := by
  rcases s.busWrite_cases off v with e | ⟨_, e⟩ | ⟨_, _, e⟩ | ⟨_, _, e⟩ | ⟨_, e⟩ | ⟨_, _, e⟩ | ⟨hp, _, e⟩ | ⟨_, _, e⟩ |
    ⟨_, _, e⟩ | ⟨_, hlo, hhi, e⟩ <;> rw [e]
  · exact h
  · exact h.of_eq rfl rfl rfl (.inr ⟨rfl, rfl, rfl⟩)
  · exact h.resetElements
  · exact h.of_eq rfl rfl rfl (.inr ⟨rfl, rfl, rfl⟩)
  · exact h.of_eq rfl rfl rfl (.inr ⟨rfl, rfl, rfl⟩)
  · exact h.accept v
  · exact h.of_eq rfl rfl rfl (.inl hp)
  · exact h.of_eq rfl rfl rfl (.inr ⟨rfl, rfl, rfl⟩)
  · exact h.of_eq rfl rfl rfl (.inr ⟨rfl, rfl, rfl⟩)
  · exact h.with_mem (Memory.writeWord_size _ _ _)
      (Memory.writeWord_wf h.memory.2 v (h.memory.word_fits (by omega) hhi))

theorem Inv.hostAdvance {s : State} (h : Inv s) (rest : List HostOp) : Inv (s.hostAdvance rest) :=
  h.of_eq rfl rfl rfl (.inr ⟨rfl, rfl, rfl⟩)

theorem hostStep_keeps_inv {s t : State} {op : HostOp} {rest : List HostOp} (h : Inv s)
    (hs : hostStep s op rest = .next t) : Inv t := by
  rcases hostStep_next hs with ⟨off, v, _, h4, rfl⟩ | ⟨_, rfl⟩ | ⟨l, n, r, _, rfl, _⟩
  · exact busWrite_keeps_inv (h.hostAdvance rest) off v h4
  · exact (h.hostAdvance rest).resetElements
  · exact h.of_eq rfl rfl rfl (.inr ⟨rfl, rfl, rfl⟩)

/-- Settles O54: the step is idle, a command's completion or a host statement, and each keeps the invariant. -/
theorem everyStepKeepsTheInvariant : Obligations.EveryStepKeepsTheInvariant := by
  intro s t hi h
  rcases step_next h with ⟨_, _, rfl⟩ | ⟨p, hc, ⟨i, _, he⟩ | ⟨e, _, rfl⟩⟩ | ⟨op, rest, _, hs⟩
  · exact hi
  · exact exec_keeps_inv hc.1 he hi
  · exact hi.failWith _ _
  · exact hostStep_keeps_inv hi hs

end Sys2Proof
end

section
/-! PROOFS. The register map and what a host access at each of its offsets does (O13, O14, O15, O10, O17, O18, O20, O22). -/

namespace Sys2Proof

open Machine

/-! ## The register map -/

theorem ofNat_eq_of_mod {w n : Nat} {x : BitVec w} (h : n % 2 ^ w = x.toNat) : BitVec.ofNat w n = x :=
  BitVec.eq_of_toNat_eq (by rw [BitVec.toNat_ofNat, h])

theorem target_regOffset (size : Nat) (r : Reg) : target size r.offset = .reg r := by
  cases r <;> rfl

theorem target_leafset (size : Nat) (w : BitVec 3) : target size (0x060 + 4 * w.toNat) = .leafset w := by
  have hw := w.isLt
  rcases target_cases size (off := 0x060 + 4 * w.toNat) (by omega) with ⟨r, hr, _⟩ | ⟨_, _, ht⟩ | h | h | h | h | h | h
  · have := r.offset_lt
    omega
  · rw [ht, ofNat_eq_of_mod (x := w) (by omega)]
  all_goals omega

theorem target_expset (size : Nat) (w : BitVec 3) : target size (0x080 + 4 * w.toNat) = .expset w := by
  have hw := w.isLt
  rcases target_cases size (off := 0x080 + 4 * w.toNat) (by omega) with ⟨r, hr, _⟩ | h | ⟨_, _, ht⟩ | h | h | h | h | h
  · have := r.offset_lt
    omega
  · omega
  · rw [ht, ofNat_eq_of_mod (x := w) (by omega)]
  all_goals omega

theorem target_freq (size : Nat) (b : Byte) : target size (0x400 + 4 * b.toNat) = .freq b := by
  have hb := b.isLt
  rw [target, if_neg (by omega), if_pos (by omega), ofNat_eq_of_mod (x := b) (by omega)]

theorem target_node (size : Nat) (i : NodeIx) (k : BitVec 2) (h : i.toNat < 511) :
    target size (0x1000 + 16 * i.toNat + 4 * k.toNat) = .node i k := by
  have hk := k.isLt
  rw [target, if_neg (by omega), if_neg (by omega), if_neg (by omega), if_pos (by omega),
    ofNat_eq_of_mod (x := i) (by omega), ofNat_eq_of_mod (x := k) (by omega)]

theorem target_code (size : Nat) (b : Byte) (k : BitVec 4) :
    target size (0x4000 + 64 * b.toNat + 4 * k.toNat) = .code b k := by
  have hb := b.isLt
  have hk := k.isLt
  rw [target, if_neg (by omega), if_neg (by omega), if_neg (by omega), if_neg (by omega), if_neg (by omega),
    if_pos (by omega), ofNat_eq_of_mod (x := b) (by omega), ofNat_eq_of_mod (x := k) (by omega)]

theorem target_dmemWord {size a : Nat} (h : a < size) : target size (0x100000 + a) = .dmem a := by
  rw [target, if_neg (by omega), if_neg (by omega), if_neg (by omega), if_neg (by omega), if_neg (by omega),
    if_neg (by omega), if_neg (by omega), Nat.add_sub_cancel_left, if_pos h]

/-- Settles O13: each target stands at its offset, window by window. -/
theorem registerMapOffsets : Obligations.RegisterMapOffsets := by
  refine fun size => ⟨fun x hx => ?_, fun w => ⟨target_leafset size w, target_expset size w⟩, target_freq size,
    target_node size, target_code size, fun k hk => target_dmemWord hk⟩
  obtain ⟨r, _, rfl⟩ := List.mem_map.mp (show x ∈ Reg.all.map (fun r => (r.offset, r)) from hx)
  exact target_regOffset size r

/-! ## The bits of the words -/

/-- A word put together from fields, as a number. -/
theorem toNat_append_eq_add {m n : Nat} (x : BitVec m) (y : BitVec n) :
    (x ++ y).toNat = 2 ^ n * x.toNat + y.toNat := by
  rw [BitVec.toNat_append, ← Nat.shiftLeft_add_eq_or_of_lt y.isLt, Nat.shiftLeft_eq, Nat.mul_comm]

theorem ctrlWord_toNat (s : State) : s.ctrlWord.toNat = 2 * s.ie.toNat := by
  simp only [State.ctrlWord, toNat_append_eq_add, BitVec.toNat_ofBool, BitVec.toNat_ofNat]
  omega

theorem statusWord_toNat (s : State) :
    s.statusWord.toNat = s.pend.isSome.toNat + 2 * s.tree.valid.toNat + 4 * s.codes.valid.toNat := by
  simp only [State.statusWord, State.busy, toNat_append_eq_add, BitVec.toNat_ofBool, BitVec.toNat_ofNat]
  omega

theorem eventWord_toNat (e : Event) : e.word.toNat = e.done.toNat + 2 * e.err.toNat + 4 * e.ovr.toNat := by
  simp only [Event.word, toNat_append_eq_add, BitVec.toNat_ofBool, BitVec.toNat_ofNat]
  omega

/-- A DMEM word is its four bytes in little-endian order (R51). -/
theorem readWord_toNat (m : Memory) (a : Nat) : (m.readWord a).toNat = (m.read a).toNat +
    2 ^ 8 * (m.read (a + 1)).toNat + 2 ^ 16 * (m.read (a + 2)).toNat + 2 ^ 24 * (m.read (a + 3)).toNat := by
  simp only [Memory.readWord, toNat_append_eq_add]
  omega

theorem nodeWord0_getLsbD (n : Node) {b : Nat} (hb : b < 32) : (n.word 0).getLsbD b =
    (if b = 0 then n.valid else if b = 1 then decide (n.kind = .internal)
      else if 8 ≤ b ∧ b < 16 then n.sym.getLsbD (b - 8) else false) := by
  have hkind : n.kind.bit = decide (n.kind = .internal) := by cases n.kind <;> rfl
  have hword : n.word 0 = 0#16 ++ n.sym ++ 0#6 ++ BitVec.ofBool n.kind.bit ++ BitVec.ofBool n.valid := rfl
  rw [hword, hkind]
  simp only [BitVec.getLsbD_append, BitVec.getLsbD_ofBool]
  interval_cases b <;> simp

theorem nodeWord3_getLsbD (n : Node) {b : Nat} (hb : b < 32) : (n.word 3).getLsbD b =
    (if b < 9 then n.left.getLsbD b else if 16 ≤ b ∧ b < 25 then n.right.getLsbD (b - 16) else false) := by
  have hword : n.word 3 = 0#7 ++ n.right ++ 0#7 ++ n.left := rfl
  rw [hword]
  simp only [BitVec.getLsbD_append]
  interval_cases b <;> simp

theorem nodeWord1_getLsbD (n : Node) {b : Nat} (hb : b < 32) : (n.word 1).getLsbD b = n.freq.getLsbD b := by
  show (n.freq.extractLsb' 0 32).getLsbD b = _
  simp [hb]

theorem nodeWord2_getLsbD (n : Node) {b : Nat} :
    (n.word 2).getLsbD b = (if b < 8 then n.freq.getLsbD (32 + b) else false) := by
  show (0#24 ++ n.freq.extractLsb' 32 8).getLsbD b = _
  rw [BitVec.getLsbD_append]
  by_cases h : b < 8 <;> simp [h]

theorem codeWord0_getLsbD (c : Code) {b : Nat} (hb : b < 32) : (c.word 0).getLsbD b = c.len.getLsbD b := by
  show (c.len.setWidth 32).getLsbD b = _
  simp [hb]

/-- Words 1 to 8 of a CODE entry hold BITS from its low end up (R42). -/
theorem codeWord_bits_getLsbD (c : Code) {w b : Nat} (hw : w < 8) (hb : b < 32) :
    (c.word (BitVec.ofNat 4 (1 + w))).getLsbD b = c.bits.getLsbD (32 * w + b) := by
  have hk : (BitVec.ofNat 4 (1 + w)).toNat = 1 + w := by rw [BitVec.toNat_ofNat]; omega
  rw [Code.word, hk, if_neg (by omega), if_pos (by omega), Nat.add_sub_cancel_left]
  simp [hb]
  omega

theorem codeWord_reserved (c : Code) {w : Nat} (hw : 9 ≤ w) (hw' : w < 16) : c.word (BitVec.ofNat 4 w) = 0#32 := by
  have hk : (BitVec.ofNat 4 w).toNat = w := by rw [BitVec.toNat_ofNat]; omega
  rw [Code.word, hk, if_neg (by omega), if_neg (by omega)]

/-- Settles O15: word by word, from the layout of each. -/
theorem windowWordLayout : Obligations.WindowWordLayout :=
  ⟨fun n _ hb => ⟨nodeWord0_getLsbD n hb, nodeWord1_getLsbD n hb, nodeWord2_getLsbD n, nodeWord3_getLsbD n hb⟩,
    fun c b hb => ⟨codeWord0_getLsbD c hb, fun _ hw => codeWord_bits_getLsbD c hw hb,
      fun _ hw hw' => by rw [codeWord_reserved c hw hw', BitVec.getLsbD_zero]⟩,
    fun x w b hb => bitmapWord_getLsbD x w b hb⟩

/-! ## What a read returns -/

theorem readTarget_reg {s : State} {off : Nat} (r : Reg) (h : off = r.offset) :
    s.readTarget (target s.mem.size off) = s.readReg r := by
  rw [h, target_regOffset]
  rfl

/-- The value read at an offset is the current value of what stands there (R23). -/
theorem registerReads_target (s : State) (off : Nat) :
    RegisterReads s off (s.readTarget (target s.mem.size off)) where
  id := readTarget_reg .id
  version := readTarget_reg .version
  ctrl h := by rw [readTarget_reg .ctrl h]; exact ctrlWord_toNat s
  status h := by rw [readTarget_reg .status h]; exact statusWord_toNat s
  event h := by rw [readTarget_reg .event h]; exact eventWord_toNat s.event
  errcode h := by rw [readTarget_reg .errcode h]; exact BitVec.toNat_setWidth_of_le (by decide)
  errinfo := readTarget_reg .errinfo
  cmd := readTarget_reg .cmd
  operands := ⟨readTarget_reg .src, readTarget_reg .len, readTarget_reg .dst, readTarget_reg .bits⟩
  results := ⟨readTarget_reg .outLen, readTarget_reg .outBits⟩
  leafCount h := by rw [readTarget_reg .leafCount h]; exact BitVec.toNat_setWidth_of_le (by decide)
  nodeCount h := by rw [readTarget_reg .nodeCount h]; exact BitVec.toNat_setWidth_of_le (by decide)
  root h := by rw [readTarget_reg .root h]; exact BitVec.toNat_setWidth_of_le (by decide)
  maxCodeLen h := by rw [readTarget_reg .maxCodeLen h]; exact BitVec.toNat_setWidth_of_le (by decide)
  dmemSize := readTarget_reg .dmemSize
  bitmaps w b hw hb := by
    have hn : (BitVec.ofNat 3 w).toNat = w := by rw [BitVec.toNat_ofNat]; omega
    have hbit : ∀ x : BitVec 256, (bitmapWord x (BitVec.ofNat 3 w)).getLsbD b = x.getLsbD (32 * w + b) := fun x => by
      rw [bitmapWord_getLsbD _ _ _ hb, hn]
    constructor
    · rintro rfl
      have ht := target_leafset s.mem.size (BitVec.ofNat 3 w)
      rw [hn] at ht
      rw [ht]
      exact hbit s.tree.leafset
    · rintro rfl
      have ht := target_expset s.mem.size (BitVec.ofNat 3 w)
      rw [hn] at ht
      rw [ht]
      exact hbit s.expset
  freq b h := by rw [h, target_freq]; rfl
  node i k hi h := by rw [h, target_node _ i k hi]; rfl
  code b k h := by rw [h, target_code]; rfl
  dmem k hk h := by rw [h, target_dmemWord hk]; exact readWord_toNat s.mem (4 * k)

/-! ## One transaction of the host -/

theorem step_write {s : State} {off : BitVec 21} {v : Word} {rest : List HostOp}
    (h : HostTurn s (.write off 32 v) rest) (h4 : off.toNat % 4 = 0) :
    step s = .next ((s.hostAdvance rest).busWrite off v) := by
  rw [step_host h, hostStep, if_pos (by simp [transactionAdmitted, h4])]

/-- A write that is not dropped goes to the target at its offset. -/
theorem busWrite_of_target {s : State} {off : BitVec 21} {v : Word} {tg : Target}
    (ht : target s.mem.size off.toNat = tg) (h : s.pend = none ∨ tg.dropsWhenBusy = false) :
    s.busWrite off v = s.writeTarget v tg := by
  rw [State.busWrite, ht, if_neg]
  rcases h with h | h <;> simp [State.busy, h]

theorem step_write_target {s : State} {off : BitVec 21} {v : Word} {rest : List HostOp} {tg : Target}
    (h : HostTurn s (.write off 32 v) rest) (h4 : off.toNat % 4 = 0) (ht : target s.mem.size off.toNat = tg)
    (hd : s.pend = none ∨ tg.dropsWhenBusy = false) : step s = .next ((s.hostAdvance rest).writeTarget v tg) := by
  rw [step_write h h4]
  exact congrArg _ (busWrite_of_target (s := s.hostAdvance rest) ht hd)

/-- Control registers and unmapped offsets below 0x400 are no window (R58). -/
theorem controlTarget_isWindow {off : Nat} (h4 : off % 4 = 0) (h : off < 0x400) :
    (controlTarget off).isWindow = false := by
  rcases controlTarget_cases h4 h with ⟨r, _, ht⟩ | ⟨_, _, ht⟩ | ⟨_, _, ht⟩ | ⟨_, ht⟩ <;> rw [ht] <;> rfl

/-- A read that is no window read while BUSY = 1 returns what stands at the offset and changes nothing (R54). -/
theorem busRead_current {s : State} {off : BitVec 21} (h4 : off.toNat % 4 = 0) (h : s.pend = none ∨ off.toNat < 0x400) :
    s.busRead off = (s.readTarget (target s.mem.size off.toNat), s) := by
  rw [State.busRead, if_neg]
  rcases h with h | h
  · simp [State.busy, h]
  · simp [target, h, controlTarget_isWindow h4 h]

/-- What a target holds does not depend on the model's own fields. -/
theorem readTarget_hostSide (s : State) (l n : Nat) (ops : List HostOp) (rs : List ReadRecord) (tg : Target) :
    State.readTarget { s with latency := l, draws := n, host := ops, reads := rs } tg = s.readTarget tg := by
  cases tg with
  | reg r => cases r <;> rfl
  | _ => rfl

theorem step_read {s : State} {off : BitVec 21} {rest : List HostOp} (h : HostTurn s (.read off 32) rest)
    (h4 : off.toNat % 4 = 0) (hq : s.pend = none ∨ off.toNat < 0x400) :
    step s = .next { s with
      host := rest, latency := s.latency - 1
      reads := ⟨off, s.readTarget (target s.mem.size off.toNat), none⟩ :: s.reads } := by
  rw [step_host h, hostStep, if_pos (by simp [transactionAdmitted, h4]), busRead_current (s := s.hostAdvance rest) h4 hq]
  simp only [State.hostAdvance, readTarget_hostSide]
  rfl

/-- Settles O10: the second read finds the state of the first but for the host's side, which no target reads. -/
theorem readsHaveNoSideEffect : Obligations.ReadsHaveNoSideEffect := by
  intro s off rest h h4 hq
  refine ⟨registerReads_target s off.toNat, step_read h h4 hq, fun rest' _ t ht h' => ?_⟩
  rw [step_read h h4 hq] at ht
  cases ht
  rw [step_read h' h4 hq]
  simp only [readTarget_hostSide]

/-! ## Reads after reset -/

theorem reset_busRead_reg (r : Reg) :
    (State.reset.busRead (BitVec.ofNat 21 r.offset)).1 = State.reset.readReg r := by
  have hoff : (BitVec.ofNat 21 r.offset).toNat = r.offset := by
    have := r.offset_lt
    rw [BitVec.toNat_ofNat]
    omega
  rw [busRead_current (by rw [hoff]; exact r.offset_lt.2) (.inl rfl)]
  exact readTarget_reg r hoff

theorem bitmapWord_zero (w : BitVec 3) : bitmapWord 0 w = 0 := by
  simp [bitmapWord]

theorem reset_busRead_bitmap {off : BitVec 21} (h4 : off.toNat % 4 = 0) (h : 0x060 ≤ off.toNat ∧ off.toNat < 0x0A0) :
    (State.reset.busRead off).1 = 0 := by
  rw [busRead_current h4 (.inl rfl)]
  rcases target_cases State.reset.mem.size h4 with ⟨r, hr, _⟩ | ⟨_, _, ht⟩ | ⟨_, _, ht⟩ | h | h | h | h | h
  · have := r.offset_lt
    omega
  · rw [ht]; exact bitmapWord_zero _
  · rw [ht]; exact bitmapWord_zero _
  all_goals omega

/-- Settles O14: each register at its offset, the bitmaps' words, and the tables by their empty entries. -/
theorem resetRegisterReads : Obligations.ResetRegisterReads := by
  refine ⟨fun x hx => ?_, fun off h => ?_, symGet_freqEmpty, fun i => ?_, fun b k => ?_⟩
  · obtain ⟨r, _, rfl⟩ := List.mem_map.mp
      (show x ∈ Reg.all.map (fun r => (BitVec.ofNat 21 r.offset, State.reset.readReg r)) from hx)
    exact reset_busRead_reg r
  · refine reset_busRead_bitmap ?_ ?_ <;> revert off <;> simp
  · have hempty : nodeAt State.reset.tree.node i = Node.empty := nodeAt_replicate i
    simp only [State.readTarget, hempty]
    decide
  · have hempty : symGet State.reset.codes.entry b = Code.empty := symGet_replicate _ b
    simp only [State.readTarget, hempty]
    revert k
    decide

/-! ## Writes to CTRL and EVENT -/

/-- CTRL reads IE in bit 1 and 0 elsewhere (R25). -/
theorem ctrlWord_of_ie {s : State} {v : Word} (h : s.ie = v.getLsbD 1) : s.ctrlWord = v &&& 2 := by
  apply BitVec.eq_of_getLsbD_eq
  intro i hi
  rw [State.ctrlWord, h]
  simp only [BitVec.getLsbD_append, BitVec.getLsbD_ofBool, BitVec.getLsbD_and]
  interval_cases i <;> simp

theorem eventWord_clear (e : Event) (v : Word) : (e.clear v).word = e.word &&& ~~~(v &&& 7) := by
  apply BitVec.eq_of_getLsbD_eq
  intro i hi
  simp only [Event.word, Event.clear, BitVec.getLsbD_append, BitVec.getLsbD_ofBool, BitVec.getLsbD_and, BitVec.getLsbD_not]
  interval_cases i <;> simp

/-- Settles O17: the write reaches CTRL, idle or busy. -/
theorem ctrlWriteSetsIe : Obligations.CtrlWriteSetsIe := by
  intro s v rest h hv
  refine ⟨_, ?_, rfl, ?_⟩
  · rw [step_write_target h (by decide) (target_regOffset _ .ctrl) (.inr rfl), State.writeTarget, State.writeReg,
      State.writeCtrl, hv]
    rfl
  · exact ctrlWord_of_ie rfl

/-- Settles O18: the write reaches EVENT, idle or busy, and clears bit by bit. -/
theorem eventWriteClearsBits : Obligations.EventWriteClearsBits := by
  intro s v rest h
  exact ⟨s.event.clear v, step_write_target h (by decide) (target_regOffset _ .event) (.inr rfl),
    eventWord_clear s.event v⟩

/-- Settles O20: the write reaches its target, which takes the word. -/
theorem idleWritesStoreTheWord : Obligations.IdleWritesStoreTheWord := by
  intro s off v rest hh hp stored
  have key : ∀ tg, target s.mem.size off.toNat = tg → off.toNat % 4 = 0 →
      step s = .next ((s.hostAdvance rest).writeTarget v tg) := fun tg ht h4 =>
    step_write_target ⟨hh, .inl hp⟩ h4 ht (.inl hp)
  have reg : ∀ r : Reg, off.toNat = r.offset → step s = .next ((s.hostAdvance rest).writeTarget v (.reg r)) :=
    fun r hr => key _ (by rw [hr, target_regOffset]) (by rw [hr]; exact r.offset_lt.2)
  refine ⟨fun h => reg .src (by rw [h]; rfl), fun h => reg .len (by rw [h]; rfl), fun h => reg .dst (by rw [h]; rfl),
    fun h => reg .bits (by rw [h]; rfl), fun w hw => ?_, fun b hb => ?_⟩
  · exact ⟨_, key (.expset w) (by rw [hw, target_expset]) (by omega), bitmapWord_set_same s.expset w v,
      fun u hu => bitmapWord_set_other s.expset v hu⟩
  · exact ⟨_, key (.freq b) (by rw [hb, target_freq]) (by omega), symGet_symSet_same s.freq b v,
      fun c hc => symGet_symSet_other s.freq v hc⟩

/-- Settles O22: every completion sets DONE or ERR, and the writes to EVENT and CTRL set both factors of irq. -/
theorem irqFollowsEvents : Obligations.IrqFollowsEvents := by
  refine ⟨fun i s t p hp h => ?_, fun s rest h => ?_, fun s rest h => ?_, fun s rest h => ?_⟩
  · rcases exec_next hp h with ⟨e, rfl⟩ | ⟨f, tr, c, m, o, rfl, _⟩ <;> simp [State.irq]
  · exact ⟨_, step_write_target h (by decide) (target_regOffset _ .event) (.inr rfl), by
      simp [State.irq, State.writeTarget, State.writeReg, Event.clear]⟩
  · exact ⟨_, step_write_target h (by decide) (target_regOffset _ .ctrl) (.inr rfl), by
      simp [State.irq, State.writeTarget, State.writeReg, State.writeCtrl]⟩
  · exact ⟨_, step_write_target h (by decide) (target_regOffset _ .ctrl) (.inr rfl), by
      simp [State.irq, State.writeTarget, State.writeReg, State.writeCtrl]⟩

end Sys2Proof
end

section
/-! PROOFS. What changes only by a command's completion or a reset, and what a completion leaves and reports (O57, O58, O19, O52,
O60). -/

namespace Sys2Proof

open Machine

/-! ## The command of a word -/

/-- The fields of a word join to the word: no bit is dropped (R66). -/
theorem joinFields_splitWord (w : Word) : joinFields (splitWord w) = w := by
  apply BitVec.eq_of_getLsbD_eq
  intro i hi
  simp only [joinFields, splitWord, BitVec.getLsbD_append, BitVec.getLsbD_extractLsb', BitVec.getLsbD_ofBool]
  rcases Nat.lt_or_ge i 8 with h8 | h8
  · simp [h8]
  · obtain rfl | rfl | h10 : i = 8 ∨ i = 9 ∨ 10 ≤ i := by omega
    · rfl
    · rfl
    · simp [show ¬ i < 8 by omega, show ¬ i - 8 < 1 by omega, show ¬ i - 8 - 1 < 1 by omega,
        show i - 8 - 1 - 1 < 22 by omega, show 10 + (i - 8 - 1 - 1) = i by omega]

theorem CmdFields.eq_of {f : CmdFields} {n : Nat} {c a : Bool} (hr : f.rsv = 0#22) (ho : f.opc.toNat = n)
    (ha : f.acc = a) (hc : f.chk = c) : f = ⟨0, c, a, BitVec.ofNat 8 n⟩ := by
  cases f
  simp_all [← ho]

/-- A word that decodes has the fields of its command (R67, R68). -/
theorem splitWord_of_decode {w : Word} {i : Instr} (h : decode w = .ok i) : splitWord w = i.fields := by
  simp only [decode] at h
  split at h
  · cases h
  · rename_i hr
    split at h
    case h_10 => split at h <;> cases h
    all_goals
      rename_i ho ha hc
      cases h
      exact CmdFields.eq_of (not_not.mp hr) ho ha hc

/-- A word that decodes is the encoding of its command (R66, R67). -/
theorem eq_encode_of_decode {w : Word} {i : Instr} (h : decode w = .ok i) : w = encode i := by
  rw [encode, ← splitWord_of_decode h, joinFields_splitWord]

/-! ## Resets, and what every other host statement keeps -/

/-- The statement resets the block: the platform's power-on reset, or a CTRL write with SRST set (R25, R132). -/
def Resets (op : HostOp) : Prop := op = .powerOn ∨ ∃ v : Word, op = .write 0x008 32 v ∧ v.getLsbD 0 = true

theorem hostStep_resets {s : State} {op : HostOp} {rest : List HostOp} (h : HostTurn s op rest) (hr : Resets op) :
    step s = .next (s.hostAdvance rest).resetElements := by
  rcases hr with rfl | ⟨v, rfl, hv⟩
  · rw [step_host h]
    rfl
  · rw [step_write_target h (by decide) (target_regOffset _ .ctrl) (.inr rfl), State.writeTarget, State.writeReg,
      State.writeCtrl, if_pos hv]
    rfl

/-- Every EVENT bit set in `e` is set in `f`. -/
def EventsKept (e f : Event) : Prop :=
  (e.done = true → f.done = true) ∧ (e.err = true → f.err = true) ∧ (e.ovr = true → f.ovr = true)

theorem EventsKept.refl (e : Event) : EventsKept e e := ⟨id, id, id⟩

/-- A host statement that is no reset keeps the error report, the tree and the code table, and every EVENT bit unless it
writes EVENT. -/
theorem hostStep_frame {s t : State} {op : HostOp} {rest : List HostOp} (h : hostStep s op rest = .next t)
    (hr : ¬ Resets op) : t.err = s.err ∧ t.tree = s.tree ∧ t.codes = s.codes ∧
      (EventsKept s.event t.event ∨ ∃ v : Word, op = .write 0x010 32 v) := by
  have hkept := EventsKept.refl s.event
  rcases hostStep_next h with ⟨off, v, rfl, _, rfl⟩ | ⟨rfl, _⟩ | ⟨l, n, r, _, rfl, _⟩
  · rcases (s.hostAdvance rest).busWrite_cases off v with e | ⟨_, e⟩ | ⟨ho, hv, _⟩ | ⟨_, _, e⟩ | ⟨ho, e⟩ | ⟨_, _, e⟩ |
      ⟨_, _, e⟩ | ⟨_, _, e⟩ | ⟨_, _, e⟩ | ⟨_, _, _, e⟩
    case inr.inr.inl =>
      have hoff : off = 0x008 := BitVec.eq_of_toNat_eq ho
      exact absurd (.inr ⟨v, by rw [hoff], hv⟩) hr
    case inr.inr.inr.inr.inl =>
      have hoff : off = 0x010 := BitVec.eq_of_toNat_eq ho
      rw [e, hoff]
      exact ⟨rfl, rfl, rfl, .inr ⟨v, rfl⟩⟩
    case inr.inl =>
      rw [e]
      exact ⟨rfl, rfl, rfl, .inl ⟨id, id, fun _ => rfl⟩⟩
    all_goals
      rw [e]
      exact ⟨rfl, rfl, rfl, .inl hkept⟩
  · exact absurd (.inl rfl) hr
  · exact ⟨rfl, rfl, rfl, .inl hkept⟩

theorem Resets.turn {s : State} {op : HostOp} {rest : List HostOp} (hr : Resets op) (h : HostTurn s op rest) :
    (∃ rest, HostTurn s .powerOn rest) ∨ (∃ v rest, HostTurn s (.write 0x008 32 v) rest ∧ v.getLsbD 0 = true) := by
  rcases hr with rfl | ⟨v, rfl, hv⟩
  · exact .inl ⟨rest, h⟩
  · exact .inr ⟨v, rest, h, hv⟩

/-! ## What a command leaves unchanged -/

theorem exec_keeps_tree {i : Instr} {s t : State} {p : Pend} (hp : s.pend = some p) (h : exec i s = .next t)
    (hi : i ≠ .build) : t.tree = s.tree := by
  rcases exec_next hp h with ⟨e, rfl⟩ | ⟨f, tr, c, m, o, rfl, _, htree, _, _⟩
  · rfl
  · exact htree hi

theorem exec_keeps_codes {i : Instr} {s t : State} {p : Pend} (hp : s.pend = some p) (h : exec i s = .next t)
    (hi : i ≠ .build) (hi' : i ≠ .gencode) : t.codes = s.codes := by
  rcases exec_next hp h with ⟨e, rfl⟩ | ⟨f, tr, c, m, o, rfl, _, _, hcodes, _⟩
  · rfl
  · exact hcodes hi hi'

theorem exec_keeps_events {i : Instr} {s t : State} {p : Pend} (hp : s.pend = some p) (h : exec i s = .next t) :
    EventsKept s.event t.event := by
  rcases exec_next hp h with ⟨e, rfl⟩ | ⟨f, tr, c, m, o, rfl, _⟩
  · exact ⟨id, fun _ => rfl, id⟩
  · exact ⟨fun _ => rfl, id, id⟩

/-- Settles O57: of the commands only BUILD writes the tree, and of the host's statements only a reset. -/
theorem onlyBuildAndResetChangeTheTree : Obligations.OnlyBuildAndResetChangeTheTree := by
  intro s t h hne
  rcases step_next h with ⟨_, _, rfl⟩ | ⟨p, hc, ⟨i, hd, he⟩ | ⟨e, _, rfl⟩⟩ | ⟨op, rest, ht, hs⟩
  · exact absurd rfl hne
  · have hi : i = .build := by_contra fun hi => hne (exec_keeps_tree hc.1 he hi)
    exact .inl ⟨p, hc, by rw [eq_encode_of_decode hd, hi]; rfl⟩
  · exact absurd rfl hne
  · have hr : Resets op := by_contra fun hr => hne (hostStep_frame hs hr).2.1
    exact .inr (hr.turn ht)

/-- Settles O58: of the commands only BUILD and GENCODE write the code table, and of the host's statements only a reset. -/
theorem onlyBuildGencodeAndResetChangeTheCodes : Obligations.OnlyBuildGencodeAndResetChangeTheCodes := by
  intro s t h hne
  rcases step_next h with ⟨_, _, rfl⟩ | ⟨p, hc, ⟨i, hd, he⟩ | ⟨e, _, rfl⟩⟩ | ⟨op, rest, ht, hs⟩
  · exact absurd rfl hne
  · have hi : i = .build ∨ i = .gencode := by
      by_contra hi
      obtain ⟨hb, hg⟩ := not_or.mp hi
      exact hne (exec_keeps_codes hc.1 he hb hg)
    refine .inl ⟨p, hc, ?_⟩
    rw [eq_encode_of_decode hd]
    rcases hi with rfl | rfl
    · exact .inl rfl
    · exact .inr rfl
  · exact absurd rfl hne
  · have hr : Resets op := by_contra fun hr => hne (hostStep_frame hs hr).2.2.1
    exact .inr (hr.turn ht)

/-- Settles O19: a completion only sets EVENT bits, and a host statement that clears one writes EVENT or resets. -/
theorem eventBitsAreSticky : Obligations.EventBitsAreSticky := by
  intro s t h
  rcases step_next h with ⟨_, _, rfl⟩ | ⟨p, hc, ⟨i, _, he⟩ | ⟨e, _, rfl⟩⟩ | ⟨op, rest, ht, hs⟩
  · exact .inl (EventsKept.refl _)
  · exact .inl (exec_keeps_events hc.1 he)
  · exact .inl ⟨id, fun _ => rfl, id⟩
  · by_cases hr : Resets op
    · rcases hr.turn ht with hpow | hsoft
      · exact .inr (.inl hpow)
      · exact .inr (.inr (.inr hsoft))
    · obtain ⟨_, _, _, hkept | ⟨v, rfl⟩⟩ := hostStep_frame hs hr
      · exact .inl hkept
      · exact .inr (.inr (.inl ⟨v, rest, ht⟩))

/-! ## The frame of a command -/

theorem isCodec_iff {i : Instr} : isCodec i = true ↔ i = .encode ∨ i = .decode ∨ i = .decodeChk := by
  cases i <;> simp [isCodec]

/-- Settles O52: a failure writes no table and no memory, and each family's writes are its own. -/
theorem commandFrame : Obligations.CommandFrame := by
  intro i s t p hp hsize h
  rcases exec_writes hp h with ⟨e, rfl⟩ | ⟨u, hu, rfl⟩
  · refine ⟨rfl, rfl, rfl, rfl, rfl, rfl, rfl, rfl, rfl, rfl, fun _ _ _ => rfl, fun _ => rfl, fun _ _ => rfl,
      fun h1 h2 h3 => ⟨?_, rfl⟩, fun _ _ _ => rfl⟩
    have hc : ¬ isCodec i = true := by simp [isCodec_iff, h1, h2, h3]
    simp [hc]
  · cases hu with
    | nothing hi =>
      exact ⟨rfl, rfl, rfl, rfl, rfl, rfl, rfl, rfl, rfl, rfl, fun _ _ _ => rfl, fun _ => rfl, fun _ _ => rfl,
        fun _ _ _ => ⟨rfl, rfl⟩, fun _ _ _ => rfl⟩
    | freq f hi =>
      exact ⟨rfl, rfl, rfl, rfl, rfl, rfl, rfl, rfl, rfl, rfl, fun h1 h2 h3 => absurd hi (by simp [h1, h2, h3]),
        fun _ => rfl, fun _ _ => rfl, fun _ _ _ => ⟨rfl, rfl⟩, fun _ _ _ => rfl⟩
    | tree hi =>
      exact ⟨rfl, rfl, rfl, rfl, rfl, rfl, rfl, rfl, rfl, rfl, fun _ _ _ => rfl, fun hb => absurd hi hb,
        fun hb _ => absurd hi hb, fun _ _ _ => ⟨rfl, rfl⟩, fun _ _ _ => rfl⟩
    | codes xs hi =>
      exact ⟨rfl, rfl, rfl, rfl, rfl, rfl, rfl, rfl, rfl, rfl, fun _ _ _ => rfl, fun _ => rfl,
        fun _ hg => absurd hi hg, fun _ _ _ => ⟨rfl, rfl⟩, fun _ _ _ => rfl⟩
    | output bytes bits hi hf =>
      refine ⟨rfl, rfl, rfl, rfl, rfl, Memory.writeBytes_size _ _ _, Memory.writeBytes_draw _ _ _, rfl, rfl, rfl,
        fun _ _ _ => rfl, fun _ => rfl, fun _ _ => rfl,
        fun h1 h2 h3 => absurd (isCodec_iff.mp hi) (by simp [h1, h2, h3]), fun a ha _ => ?_⟩
      have hlen : (BitVec.ofNat 32 bytes.length).toNat = bytes.length := by
        simp only [Config.dmemSizeOk, Bool.and_eq_true, decide_eq_true_eq] at hsize
        rw [BitVec.toNat_ofNat, Nat.mod_eq_of_lt]
        rcases hf with rfl | hf
        · decide
        · omega
      refine Memory.read_writeBytes_outside s.mem bytes ?_
      rwa [← hlen]

/-! ## The error report -/

/-- A command's result is the outcome of its checks (R79, R121). -/
theorem executeOf_says (i : Instr) (s : State) (p : Pend) :
    CmdResult.Says (executeOf i s p) (firstError (checksOf s p.ops i)) := by
  cases i with
  | nop => rfl
  | clrf => rfl
  | count => exact count_says s p
  | countAcc => exact countAcc_says s p
  | build => exact build_says s p
  | gencode => exact gencode_says s p
  | encode => exact encode_says s p
  | decode => exact decode_says s p
  | decodeChk => exact decodeChk_says s p

theorem Writes.event {i : Instr} {s u : State} {p : Pend} (h : Writes i s p u) : u.event = s.event := by
  cases h <;> rfl

/-- The core's step empties PEND and reports the pending command's outcome (R77). -/
theorem core_reports_outcome {s t : State} {p : Pend} (hc : CoreTurn s p) (h : step s = .next t) :
    t.pend = none ∧ t.err = outcomeOf s p ∧
      t.event = if (outcomeOf s p).code = .ok then { s.event with done := true } else { s.event with err := true } := by
  rw [step_core hc] at h
  cases hd : decode p.word with
  | ok i =>
    rw [coreStep_ok hc.1 hd, exec_eq_runPending] at h
    simpa only [outcomeOf, hd] using
      runPending_says hc.1 h (executeOf_says i s p) fun u hu => (executeOf_writes hu).event
  | error e =>
    rw [coreStep_error hc.1 hd] at h
    cases h
    simp [outcomeOf, hd]

/-- Settles O60: a host statement resets the report or keeps it, and the core's step writes the outcome. -/
theorem errorReportIsTheLastCompletions : Obligations.ErrorReportIsTheLastCompletions := by
  refine ⟨fun s t op rest ht h => ⟨fun hr => ?_, fun hpow hctrl => ?_⟩, fun s t p => core_reports_outcome⟩
  · rw [hostStep_resets ht hr] at h
    cases h
    exact ⟨rfl, rfl, rfl⟩
  · have hr : ¬ Resets op := by
      rintro (hp | ⟨v, hv, hbit⟩)
      · exact hpow hp
      · rw [hctrl v hv] at hbit
        cases hbit
    rw [step_host ht] at h
    exact (hostStep_frame h hr).1

end Sys2Proof
end

section
/-! PROOFS. BUILD on a table with one symbol (O29), and GENCODE on an arena with a cycle (O37). -/

namespace Sys2Proof

open Machine

/-! ## One symbol -/

theorem presentSymbols_one {f : FreqTable} {b : Byte} (hb : symGet f b ≠ 0) (h : ∀ c : Byte, c ≠ b → symGet f c = 0) :
    presentSymbols f = [b] := by
  have hnodup : (presentSymbols f).Nodup := (presentSymbols_rise f).imp fun hlt he => by simp [he] at hlt
  refine List.perm_singleton.mp ((List.perm_ext_iff_of_nodup hnodup (List.nodup_singleton b)).mpr fun c => ?_)
  rw [mem_presentSymbols, List.mem_singleton]
  exact ⟨not_imp_comm.mp (h c), fun he => he ▸ hb⟩

theorem exec_build_tree {s : State} {p : Pend} (hp : s.pend = some p) (h : presentSymbols s.freq ≠ []) :
    exec .build s = .next (completed { s with tree := buildTree s.freq, codes := Codes.empty }) := by
  rw [exec_eq_runPending, State.runPending_some hp, executeOf, buildCommand, if_neg h]
  rfl

/-- Settles O29: the arena of one leaf is that leaf and an Internal entry over it. -/
theorem buildOneSymbol : Obligations.BuildOneSymbol := by
  intro s p b hp hb h
  have hone := presentSymbols_one hb h
  have hne : presentSymbols s.freq ≠ [] := by simp [hone]
  have harena := arenaOf_one hone
  have hlen : (arenaOf (leavesOf s.freq)).length = 2 := by rw [harena]; rfl
  refine ⟨buildTree s.freq, exec_build_tree hp hne, rfl, ?_, ?_, ?_, fun c => ?_, ?_, ?_, fun i hi => ?_⟩
  · exact BitVec.eq_of_toNat_eq (by rw [buildTree_leafCount, hone]; rfl)
  · exact BitVec.eq_of_toNat_eq (by rw [buildTree_nodeCount _ hne, hlen]; rfl)
  · have hroot := buildTree_root s.freq hne
    rw [hlen] at hroot
    exact BitVec.eq_of_toNat_eq (Nat.succ.inj hroot)
  · rw [leafset_bit]
    by_cases hc : c = b
    · simpa [hc] using hb
    · simp [hc, h c hc]
  · rw [buildTree_nodeAt _ _ (by decide), harena]
    rfl
  · rw [buildTree_nodeAt _ _ (by decide), harena]
    rfl
  · exact buildTree_empty _ _ (by rw [hlen]; exact hi)

/-! ## A traversal that does not end -/

/-- The nodes from which the traversal ends within a depth. -/
def endingNodes (t : Vector Node 511) (fuel : Nat) : Finset (Fin 512) :=
  Finset.univ.filter fun i => (leafCodes t fuel (BitVec.ofFin i) 0 0).isSome

section

variable {t : Vector Node 511}

theorem mem_endingNodes {fuel : Nat} {n : NodeIx} (l v : Nat) :
    n.toFin ∈ endingNodes t fuel ↔ (leafCodes t fuel n l v).isSome := by
  simp only [endingNodes, Finset.mem_filter, Finset.mem_univ, true_and, BitVec.ofFin_toFin]
  rw [leafCodes_isSome_iff fuel n 0 0 l v]

theorem endingNodes_mono : Monotone (endingNodes t) := by
  refine monotone_nat_of_le_succ fun fuel i hi => ?_
  obtain ⟨xs, hx⟩ := Option.isSome_iff_exists.mp ((mem_endingNodes (n := BitVec.ofFin i) 0 0).mp hi)
  exact (mem_endingNodes (n := BitVec.ofFin i) 0 0).mpr (by rw [leafCodes_mono hx]; rfl)

/-- The traversal ends from a node within one more step exactly when it is a Leaf, or ends from each child there is. -/
theorem mem_endingNodes_succ {fuel : Nat} {n : NodeIx} : n.toFin ∈ endingNodes t (fuel + 1) ↔
    (nodeAt t n).kind = .leaf ∨
      ∀ b, (nodeAt t n).child b ≠ nil → ((nodeAt t n).child b).toFin ∈ endingNodes t fuel := by
  rw [mem_endingNodes 0 0, leafCodes]
  cases hk : (nodeAt t n).kind with
  | leaf => simp
  | internal =>
    have side : ∀ (m : NodeIx) (l v : Nat), (m ≠ nil → m.toFin ∈ endingNodes t fuel) ↔
        (if m = nil then some [] else leafCodes t fuel m l v).isSome := by
      intro m l v
      rw [mem_endingNodes l v]
      split <;> simp [*]
    rw [Bool.forall_bool]
    simp only [Node.child, Bool.false_eq_true, if_false, if_true, reduceCtorEq, false_or]
    rw [side _ (0 + 1) (2 * 0), side _ (0 + 1) (2 * 0 + 1)]
    generalize (if (nodeAt t n).left = nil then some [] else leafCodes t fuel (nodeAt t n).left (0 + 1) (2 * 0)) = xs
    generalize (if (nodeAt t n).right = nil then some [] else
      leafCodes t fuel (nodeAt t n).right (0 + 1) (2 * 0 + 1)) = ys
    cases xs <;> cases ys <;> simp

/-- Once no node is added, none is added later. -/
theorem endingNodes_stable {fuel : Nat} (h : endingNodes t fuel = endingNodes t (fuel + 1)) :
    endingNodes t (fuel + 1) = endingNodes t (fuel + 2) := by
  ext i
  have step := fun k => mem_endingNodes_succ (t := t) (fuel := k) (n := BitVec.ofFin i)
  rw [step fuel, step (fuel + 1), ← h]

/-- A depth of 512 is enough where any depth is: the sets of ending nodes grow until they stand still, and there are 512
node indices. -/
theorem endingNodes_subset (fuel : Nat) : endingNodes t fuel ⊆ endingNodes t 512 := by
  rcases Nat.le_total fuel 512 with hle | hge
  · exact endingNodes_mono hle
  · have hcard : (endingNodes t fuel).card = (endingNodes t 512).card :=
      Nat.stabilises_of_monotone (f := fun k => (endingNodes t k).card)
        (fun _ _ hkl => Finset.card_le_card (endingNodes_mono hkl))
        (fun k => (Finset.card_le_univ _).trans_eq (Fintype.card_fin 512))
        (fun k hk => congrArg Finset.card (endingNodes_stable
          (Finset.eq_of_subset_of_card_le (endingNodes_mono k.le_succ) hk.ge))) hge
    exact (Finset.eq_of_subset_of_card_le (endingNodes_mono hge) hcard.le).ge

/-- Where the rule's stack is empty after `fuel` pops, the traversal ends from every node that stood on it. -/
theorem endingNodes_of_stackTraverse {fuel : Nat} {stack : List (NodeIx × Nat × Nat)} {c d : Vector Code 256}
    (h : stackTraverse t fuel stack c = some d) : ∀ x ∈ stack, x.1.toFin ∈ endingNodes t fuel := by
  induction fuel generalizing stack c with
  | zero =>
    cases stack with
    | nil => simp
    | cons x stack => cases h
  | succ fuel ih =>
    cases stack with
    | nil => simp
    | cons x stack =>
      obtain ⟨n, l, v⟩ := x
      rw [stackTraverse] at h
      intro y hy
      cases hk : (nodeAt t n).kind with
      | leaf =>
        rw [hk] at h
        rcases List.mem_cons.mp hy with rfl | hy
        · exact mem_endingNodes_succ.mpr (.inl hk)
        · exact endingNodes_mono fuel.le_succ (ih h y hy)
      | internal =>
        rw [hk] at h
        have hrest := ih h
        rcases List.mem_cons.mp hy with rfl | hy
        · refine mem_endingNodes_succ.mpr (.inr fun b hb => ?_)
          cases b with
          | false =>
            have hl : (nodeAt t n).left ≠ nil := hb
            exact hrest ((nodeAt t n).left, l + 1, 2 * v) (by simp [hl])
          | true =>
            have hr : (nodeAt t n).right ≠ nil := hb
            exact hrest ((nodeAt t n).right, l + 1, 2 * v + 1) (by simp [hr])
        · exact endingNodes_mono fuel.le_succ (hrest y (by simp [hy]))

end

theorem exec_gencode_fault {s : State} {p : Pend} {f : Fault} (hp : s.pend = some p) (h : exec .gencode s = .fault f) :
    leafCodes s.tree.node 512 s.tree.root 0 0 = none := by
  rw [exec_eq_runPending, State.runPending_some hp, executeOf, gencodeCommand] at h
  split at h
  · cases hl : leafCodes s.tree.node 512 s.tree.root 0 0 with
    | none => rfl
    | some xs => rw [hl] at h; cases h
  · cases h

/-- Settles O37: if the stack were empty after some number of pops, the traversal from ROOT would end within depth 512. -/
theorem gencodeFaultsOnlyOnEndlessTraversal : Obligations.GencodeFaultsOnlyOnEndlessTraversal := by
  intro s p f hp h fuel
  cases hs : stackTraverse s.tree.node fuel [(s.tree.root, 0, 0)] (Vector.replicate 256 Code.empty) with
  | none => rfl
  | some d =>
    have hroot := endingNodes_of_stackTraverse hs _ (List.mem_singleton.mpr rfl)
    have hends := (mem_endingNodes 0 0).mp (endingNodes_subset fuel hroot)
    rw [exec_gencode_fault hp h] at hends
    cases hends

end Sys2Proof
end

section
/-! PROOFS. Host transactions that are dropped, ignored, refused or answered by a draw, both resets and the DMEM window (O8,
O9, O16, O21, O11, O12). -/

namespace Sys2Proof

open Machine

/-! ## Which transactions the host makes -/

/-- R53, as the two conditions it names. -/
theorem transactionAdmitted_iff {off : BitVec 21} {width : Nat} :
    transactionAdmitted off width = true ↔ width = 32 ∧ off.toNat % 4 = 0 := by
  simp [transactionAdmitted]

theorem hostStep_of_admitted (s : State) {op : HostOp} (rest : List HostOp) (h : op.admitted = true) :
    ∃ t, hostStep s op rest = .next t := by
  cases op with
  | read off width => exact ⟨_, if_pos h⟩
  | write off width v => exact ⟨_, if_pos h⟩
  | check off value => exact ⟨_, if_pos h⟩
  | powerOn => exact ⟨_, rfl⟩
  | wait off mask value =>
    have ha : transactionAdmitted off 32 = true := h
    rw [hostStep, if_pos ha]
    split
    · exact ⟨_, rfl⟩
    · exact ⟨_, rfl⟩

theorem hostStep_of_not_admitted (s : State) {op : HostOp} (rest : List HostOp) (h : op.admitted = false) :
    hostStep s op rest = .refused .inadmissibleTransaction := by
  have hn : ¬ op.admitted = true := by simp [h]
  cases op with
  | powerOn => cases h
  | _ => exact if_neg hn

theorem step_read_admitted {s : State} {off : BitVec 21} {rest : List HostOp} (h : HostTurn s (.read off 32) rest)
    (h4 : off.toNat % 4 = 0) : step s =
      .next (((s.hostAdvance rest).busRead off).2.record off ((s.hostAdvance rest).busRead off).1 none) := by
  rw [step_host h, hostStep, if_pos (transactionAdmitted_iff.mpr ⟨rfl, h4⟩)]

theorem busRead_host (s : State) (off : BitVec 21) : (s.busRead off).2.host = s.host := by
  rcases s.busRead_snd off with e | e <;> rw [e]

theorem busWrite_host (s : State) (off : BitVec 21) (v : Word) : (s.busWrite off v).host = s.host := by
  rcases s.busWrite_cases off v with e | ⟨_, e⟩ | ⟨_, _, e⟩ | ⟨_, _, e⟩ | ⟨_, e⟩ | ⟨_, _, e⟩ | ⟨_, _, e⟩ | ⟨_, _, e⟩ |
    ⟨_, _, e⟩ | ⟨_, _, _, e⟩ <;> rw [e] <;> rfl

/-- Settles O12: the two conditions are R53's check, and an admitted access leaves the host at its next statement. -/
theorem inadmissibleTransactionIsRefused : Obligations.InadmissibleTransactionIsRefused := by
  intro s off width v rest h
  split
  · rename_i hadm
    obtain ⟨rfl, h4⟩ := hadm
    rcases h with h | h
    · exact ⟨_, step_read_admitted h h4, busRead_host _ off⟩
    · exact ⟨_, step_write h h4, busWrite_host _ off v⟩
  · rename_i hadm
    have hno : transactionAdmitted off width = false :=
      Bool.eq_false_iff.mpr fun ha => hadm (transactionAdmitted_iff.mp ha)
    rcases h with h | h
    · exact (step_host h).trans (hostStep_of_not_admitted s rest hno)
    · exact (step_host h).trans (hostStep_of_not_admitted s rest hno)

/-! ## While BUSY = 1 -/

/-- The registers of R58's list. -/
def droppedRegs : List Reg := [.cmd, .src, .len, .dst, .bits]

/-- The offsets of R58's list name targets that drop a write while BUSY = 1. -/
theorem target_dropsWhenBusy {size off : Nat} (h4 : off % 4 = 0)
    (h : off ∈ droppedRegs.map Reg.offset ∨ (0x080 ≤ off ∧ off < 0x0A0) ∨ (0x400 ≤ off ∧ off < 0x800) ∨
      (0x100000 ≤ off ∧ off < 0x100000 + size)) : (target size off).dropsWhenBusy = true := by
  rcases h with h | h
  · obtain ⟨r, hr, rfl⟩ := List.mem_map.mp h
    rw [target_regOffset]
    revert r
    decide
  · rcases target_cases size h4 with ⟨r, hr, _⟩ | h' | ⟨_, _, ht⟩ | ⟨_, _, ht⟩ | h' | h' | ⟨_, _, ht⟩ | ⟨h', _⟩
    · have := r.offset_lt
      omega
    · omega
    · rw [ht]; rfl
    · rw [ht]; rfl
    · omega
    · omega
    · rw [ht]; rfl
    · omega

theorem busWrite_dropped {s : State} {off : BitVec 21} (v : Word) (hp : s.pend ≠ none)
    (hd : (target s.mem.size off.toNat).dropsWhenBusy = true) : s.busWrite off v = s.setOvr := by
  rw [State.busWrite, s.busy_eq.mpr hp, hd]
  rfl

/-- Settles O8: the offset's target is one whose write is dropped. -/
theorem busyWritesAreDropped : Obligations.BusyWritesAreDropped := by
  intro s off v rest h hp h4 hoff
  rw [step_write h h4, busWrite_dropped (s := s.hostAdvance rest) v hp (target_dropsWhenBusy h4 hoff)]
  rfl

/-- The four windows' offsets name window words. -/
theorem target_isWindow {size off : Nat} (h4 : off % 4 = 0)
    (h : (0x400 ≤ off ∧ off < 0x800) ∨ (0x1000 ≤ off ∧ off < 0x2FF0) ∨ (0x4000 ≤ off ∧ off < 0x8000) ∨
      (0x100000 ≤ off ∧ off < 0x100000 + size)) : (target size off).isWindow = true := by
  rcases target_cases size h4 with ⟨r, hr, _⟩ | h' | h' | ⟨_, _, ht⟩ | ⟨_, _, ht⟩ | ⟨_, _, ht⟩ | ⟨_, _, ht⟩ | ⟨h', _⟩
  · have := r.offset_lt
    omega
  · omega
  · omega
  · rw [ht]; rfl
  · rw [ht]; rfl
  · rw [ht]; rfl
  · rw [ht]; rfl
  · omega

theorem busRead_draw {s : State} {off : BitVec 21} (hp : s.pend ≠ none)
    (hw : (target s.mem.size off.toNat).isWindow = true) :
    s.busRead off = (Config.windowDraw s.draws, { s with draws := s.draws + 1 }) := by
  rw [State.busRead, s.busy_eq.mpr hp, hw]
  rfl

/-- Settles O11: the offset's target is a window word, whose read takes the draw. -/
theorem busyWindowReadIsADraw : Obligations.BusyWindowReadIsADraw := by
  intro s off rest h h4 hp hoff
  rw [step_read_admitted h h4, busRead_draw (s := s.hostAdvance rest) hp (target_isWindow h4 hoff)]
  rfl

/-! ## Unmapped offsets, read-only words and reserved bits -/

theorem target_unmapped {size off : Nat} (h4 : off % 4 = 0)
    (h : (0x04C ≤ off ∧ off ≤ 0x05C) ∨ (0x0A0 ≤ off ∧ off ≤ 0x3FC) ∨ (0x800 ≤ off ∧ off ≤ 0xFFC) ∨
      (0x2FF0 ≤ off ∧ off ≤ 0x3FFC) ∨ (0x8000 ≤ off ∧ off ≤ 0xFFFFC) ∨ 0x100000 + size ≤ off) :
    target size off = .unmapped := by
  rcases target_cases size h4 with ⟨r, hr, _⟩ | h' | h' | h' | h' | h' | h' | ⟨_, ht⟩
  case inr.inr.inr.inr.inr.inr.inr => exact ht
  case inl =>
    have := r.offset_lt
    omega
  all_goals omega

/-- An unmapped offset reads 0, idle or busy (R55; log entry 14). -/
theorem busRead_unmapped {s : State} {off : BitVec 21} (ht : target s.mem.size off.toNat = .unmapped) :
    s.busRead off = (0, s) := by
  rw [State.busRead, ht, if_neg (by simp [Target.isWindow])]
  rfl

/-- A write to the target is ignored, and neither dropped nor reported in EVENT.OVR (R55). -/
def IgnoresWrites (tg : Target) : Prop := tg.dropsWhenBusy = false ∧ ∀ (s : State) (v : Word), s.writeTarget v tg = s

theorem step_write_ignored {s : State} {off : BitVec 21} {v : Word} {rest : List HostOp}
    (h : HostTurn s (.write off 32 v) rest) (h4 : off.toNat % 4 = 0) (hi : IgnoresWrites (target s.mem.size off.toNat)) :
    step s = .next (s.hostAdvance rest) := by
  rw [step_write_target h h4 rfl (.inr hi.1), hi.2]

/-- The read-only registers of R23. -/
def readOnlyRegs : List Reg :=
  [.id, .version, .status, .errcode, .errinfo, .outLen, .outBits, .leafCount, .nodeCount, .root, .maxCodeLen, .dmemSize]

theorem readOnlyRegs_ignoreWrites : ∀ r ∈ readOnlyRegs, IgnoresWrites (.reg r) := by
  simp [readOnlyRegs, IgnoresWrites, Target.dropsWhenBusy, State.writeTarget, State.writeReg]

theorem target_readOnly {size off : Nat} (h4 : off % 4 = 0)
    (h : off ∈ readOnlyRegs.map Reg.offset ∨ (0x060 ≤ off ∧ off ≤ 0x07C) ∨ (0x1000 ≤ off ∧ off ≤ 0x2FEC) ∨
      (0x4000 ≤ off ∧ off ≤ 0x7FFC)) : IgnoresWrites (target size off) := by
  rcases h with h | h
  · obtain ⟨r, hr, rfl⟩ := List.mem_map.mp h
    rw [target_regOffset]
    exact readOnlyRegs_ignoreWrites r hr
  · rcases target_cases size h4 with ⟨r, hr, _⟩ | ⟨_, _, ht⟩ | h' | h' | ⟨_, _, ht⟩ | ⟨_, _, ht⟩ | h' | ⟨h', _⟩
    · have := r.offset_lt
      omega
    · rw [ht]; exact ⟨rfl, fun _ _ => rfl⟩
    · omega
    · omega
    · rw [ht]; exact ⟨rfl, fun _ _ => rfl⟩
    · rw [ht]; exact ⟨rfl, fun _ _ => rfl⟩
    · omega
    · omega

/-- A field at the low end of a word reads 0 above its width. -/
theorem setWidth_and_high {n : Nat} (x : BitVec n) {m : Word} (hm : ∀ i < n, m.getLsbD i = false) :
    x.setWidth 32 &&& m = 0 := by
  apply BitVec.eq_of_getLsbD_eq
  intro i hi
  by_cases hn : i < n
  · simp [hm i hn]
  · simp [BitVec.getLsbD_of_ge x i (by omega)]

/-- The reserved bits of the eight registers that have some read 0 (R55). -/
theorem reservedBits_zero (s : State) : s.readReg .ctrl &&& 0xFFFFFFFD = 0 ∧ s.readReg .status &&& 0xFFFFFFF8 = 0 ∧
    s.readReg .event &&& 0xFFFFFFF8 = 0 ∧ s.readReg .errcode &&& 0xFFFFFF00 = 0 ∧
    s.readReg .leafCount &&& 0xFFFFFE00 = 0 ∧ s.readReg .nodeCount &&& 0xFFFFFE00 = 0 ∧
    s.readReg .root &&& 0xFFFFFE00 = 0 ∧ s.readReg .maxCodeLen &&& 0xFFFFFF00 = 0 := by
  refine ⟨?_, ?_, ?_, setWidth_and_high _ (by decide), setWidth_and_high _ (by decide), setWidth_and_high _ (by decide),
    setWidth_and_high _ (by decide), setWidth_and_high _ (by decide)⟩
  · simp only [State.readReg, State.ctrlWord]
    cases s.ie <;> rfl
  · simp only [State.readReg, State.statusWord]
    cases s.codes.valid <;> cases s.tree.valid <;> cases s.busy <;> rfl
  · simp only [State.readReg, Event.word]
    cases s.event.ovr <;> cases s.event.err <;> cases s.event.done <;> rfl

theorem busWrite_ctrl_reserved (s : State) (v : Word) : s.busWrite 0x008 v = s.busWrite 0x008 (v &&& 3) := by
  have hw := fun v : Word => busWrite_of_target (s := s) (off := 0x008) (v := v) (target_regOffset _ .ctrl) (.inr rfl)
  rw [hw, hw]
  simp [State.writeTarget, State.writeReg, State.writeCtrl]

theorem busWrite_event_reserved (s : State) (v : Word) : s.busWrite 0x010 v = s.busWrite 0x010 (v &&& 7) := by
  have hw := fun v : Word => busWrite_of_target (s := s) (off := 0x010) (v := v) (target_regOffset _ .event) (.inr rfl)
  rw [hw, hw]
  simp [State.writeTarget, State.writeReg, Event.clear]

/-- Settles O9: unmapped offsets name nothing, read-only ones a target that ignores the write. -/
theorem unmappedAndReadOnlyWritesAreIgnored : Obligations.UnmappedAndReadOnlyWritesAreIgnored := by
  refine ⟨fun s off rest h h4 hu => ?_, fun s off v rest h h4 hoff => step_write_ignored h h4 ?_, reservedBits_zero,
    fun s v => ⟨busWrite_ctrl_reserved s v, busWrite_event_reserved s v⟩⟩
  · rw [step_read_admitted h h4, busRead_unmapped (s := s.hostAdvance rest) (target_unmapped h4 hu)]
    rfl
  · rcases hoff with hu | hr
    · rw [target_unmapped h4 hu]
      exact ⟨rfl, fun _ _ => rfl⟩
    · exact target_readOnly h4 hr

/-! ## The resets -/

/-- A reset leaves every element at its reset value, whatever the state before (R133). -/
theorem resetElements_resetValues (s : State) : ResetValues s.resetElements where
  ctrl := ⟨BitVec.eq_of_toNat_eq (ctrlWord_toNat _), rfl⟩
  status := BitVec.eq_of_toNat_eq (statusWord_toNat _)
  event := BitVec.eq_of_toNat_eq (eventWord_toNat _)
  err := rfl
  cmd := rfl
  operands := ⟨rfl, rfl, rfl, rfl⟩
  results := ⟨rfl, rfl⟩
  summary := ⟨rfl, rfl, rfl⟩
  root := rfl
  bitmaps w := ⟨bitmapWord_zero w, bitmapWord_zero w⟩
  freq := symGet_freqEmpty
  node := nodeAt_replicate
  code := symGet_replicate Code.empty
  pend := rfl

theorem step_resets {s : State} {op : HostOp} {rest : List HostOp} (h : HostTurn s op rest) (hr : Resets op) :
    ∃ t, step s = .next t ∧ ResetValues t ∧ t.mem = s.mem ∧ t.host = rest ∧ t.reads = s.reads :=
  ⟨_, hostStep_resets h hr, resetElements_resetValues _, rfl, rfl, rfl⟩

/-- Settles O16: the power-up state is a reset of itself, and both resets are one operation. -/
theorem resetsSetEveryElement : Obligations.ResetsSetEveryElement :=
  ⟨⟨resetElements_resetValues State.reset, fun _ => rfl⟩, fun _ v _ h hv => step_resets h (.inr ⟨v, rfl, hv⟩),
    fun _ _ h => step_resets h (.inl rfl)⟩

/-! ## The DMEM window -/

theorem writeBytes_stored {m : Memory} (h : Rising m.cells) (a : Nat) (bytes : List Byte) :
    Stored m (m.writeBytes a bytes) a bytes :=
  ⟨Memory.writeBytes_size _ _ _, Memory.writeBytes_draw _ _ _, Memory.read_writeBytes_inside h a bytes,
    fun _ => Memory.read_writeBytes_outside m bytes⟩

/-- Settles O21: the write stores the word's four bytes, and the read puts the four bytes together. -/
theorem dmemWindowIsLittleEndian : Obligations.DmemWindowIsLittleEndian := by
  intro s off v rest k hw hp hoff hk
  have ht : target s.mem.size off.toNat = .dmem (4 * k) := by rw [hoff, target_dmemWord hk]
  have h4 : off.toNat % 4 = 0 := by omega
  refine ⟨fun hh => ⟨_, step_write_target ⟨hh, .inl hp⟩ h4 ht (.inl hp), ?_⟩,
    fun hh => ⟨_, step_read ⟨hh, .inl hp⟩ h4 (.inl hp), ?_⟩⟩
  · exact writeBytes_stored (Memory.wf_rising hw) _ _
  · rw [ht]
    exact readWord_toNat s.mem (4 * k)

end Sys2Proof
end

section
/-! PROOFS. The core's step, what the invariant excludes, when a pending command ends, and when DMEM changes (O4, O27, O55, O56,
O59). -/

namespace Sys2Proof

open Machine

/-! ## The core's step -/

/-- Settles O4: at the core's turn the step is the completion, which decodes the word and runs it. -/
theorem stepRunsThePendingCommand : Obligations.StepRunsThePendingCommand := by
  intro s p i hc hd
  rw [step_core hc, coreStep_ok hc.1 hd]

theorem exec_of_fail {i : Instr} {s : State} {p : Pend} {e : ErrReport} (hp : s.pend = some p)
    (h : executeOf i s p = .fail e) : exec i s = .next (s.failWith (isCodec i) e) := by
  rw [exec_eq_runPending, State.runPending_some hp, h]
  rfl

theorem countCommand_range_error {s : State} {p : Pend} (acc : Bool)
    (h : s.mem.size < p.ops.src.toNat + p.ops.len.toNat) : countCommand acc s p = .fail ⟨.addressRange, 0⟩ :=
  if_neg (by simpa [Memory.rangeOk] using h)

/-- Settles O27: the range is COUNT's first check, in both forms. -/
theorem countRangeError : Obligations.CountRangeError := by
  intro i s p hi hp h
  rcases hi with rfl | rfl
  · exact exec_of_fail hp (countCommand_range_error false h)
  · exact exec_of_fail hp (countCommand_range_error true h)

/-! ## No step of an invariant state faults -/

theorem countCommand_ne_hang (acc : Bool) (s : State) (p : Pend) : countCommand acc s p ≠ .hang := by
  unfold countCommand
  repeat' split
  all_goals simp

theorem encodeCommand_ne_hang (s : State) (p : Pend) : encodeCommand s p ≠ .hang := by
  unfold encodeCommand
  repeat' split
  all_goals simp

theorem decodeCommand_ne_hang (chk : Bool) (s : State) (p : Pend) : decodeCommand chk s p ≠ .hang := by
  unfold decodeCommand decodeStream
  repeat' split
  all_goals simp

theorem buildCommand_ne_hang (s : State) (p : Pend) : buildCommand s p ≠ .hang := by
  unfold buildCommand
  split <;> simp

/-- In a tree of BUILD's shape GENCODE's traversal ends. -/
theorem TreeOk.gencodeCommand_ne_hang {s : State} (h : TreeOk s) (p : Pend) : gencodeCommand s p ≠ .hang := by
  unfold gencodeCommand
  split
  · rename_i hv
    obtain ⟨xs, hx⟩ := (h.shape hv).leafCodes_isSome 512 s.tree.root 0 0 le_rfl s.tree.root.isLt
    simp [hx]
  · simp

theorem Inv.executeOf_ne_hang {s : State} (h : Inv s) (i : Instr) (p : Pend) : executeOf i s p ≠ .hang := by
  cases i with
  | nop => exact nofun
  | clrf => exact nofun
  | count => exact countCommand_ne_hang false s p
  | countAcc => exact countCommand_ne_hang true s p
  | build => exact buildCommand_ne_hang s p
  | gencode => exact h.tree.gencodeCommand_ne_hang p
  | encode => exact encodeCommand_ne_hang s p
  | decode => exact decodeCommand_ne_hang false s p
  | decodeChk => exact decodeCommand_ne_hang true s p

/-- Every pending command of an invariant state completes, and PEND is empty after it (R77). -/
theorem Inv.exec_completes {s : State} {p : Pend} (h : Inv s) (hp : s.pend = some p) (i : Instr) :
    ∃ t, exec i s = .next t ∧ t.pend = none := by
  rw [exec_eq_runPending, State.runPending_some hp]
  cases he : executeOf i s p with
  | done u => exact ⟨_, rfl, rfl⟩
  | fail e => exact ⟨_, rfl, rfl⟩
  | hang => exact absurd he (h.executeOf_ne_hang i p)

/-- At the core's turn the step completes the pending word, legal or not (R70, R77). -/
theorem Inv.core_completes {s : State} {p : Pend} (h : Inv s) (hc : CoreTurn s p) :
    ∃ t, step s = .next t ∧ t.pend = none := by
  rw [step_core hc]
  cases hd : decode p.word with
  | ok i =>
    rw [coreStep_ok hc.1 hd]
    exact h.exec_completes hc.1 i
  | error e => exact ⟨_, coreStep_error hc.1 hd, rfl⟩

/-- A step of an invariant state goes on, or is the refusal of a transaction outside R53's two conditions. -/
theorem Inv.step_cases {s : State} (h : Inv s) : (∃ t, step s = .next t) ∨
    (step s = .refused .inadmissibleTransaction ∧ ∃ op rest, HostTurn s op rest ∧ op.admitted = false) := by
  rcases turn_cases s with ⟨hp, hh⟩ | ⟨p, hc⟩ | ⟨op, rest, ht⟩
  · exact .inl ⟨s, by rw [step, nextTurn, hp, hh]; rfl⟩
  · obtain ⟨t, hs, _⟩ := h.core_completes hc
    exact .inl ⟨t, hs⟩
  · rw [step_host ht]
    cases ha : op.admitted with
    | true => exact .inl (hostStep_of_admitted s rest ha)
    | false => exact .inr ⟨hostStep_of_not_admitted s rest ha, op, rest, ht, ha⟩

/-- Settles O55: the step's two outcomes exclude a fault, and the second is the only refusal. -/
theorem invariantStatesNeverFault : Obligations.InvariantStatesNeverFault := by
  intro s h
  rcases h.step_cases with ⟨t, hs⟩ | ⟨hs, hop⟩
  · exact ⟨fun f hf => by simp [hs] at hf, fun r hr => by simp [hs] at hr⟩
  · refine ⟨fun f hf => by simp [hs] at hf, fun r hr => ⟨?_, hop⟩⟩
    rw [hs] at hr
    cases hr
    rfl

/-! ## A pending command ends -/

/-- A write made while a command is pending leaves it pending, with its latency, or resets the block (R58, R134). -/
theorem busWrite_pending {s : State} {p : Pend} (hp : s.pend = some p) (off : BitVec 21) (v : Word) :
    (s.busWrite off v).pend = none ∨ (s.busWrite off v).pend = some p ∧ (s.busWrite off v).latency = s.latency := by
  have hbusy : s.pend ≠ none := by simp [hp]
  rcases s.busWrite_cases off v with e | ⟨_, e⟩ | ⟨_, _, e⟩ | ⟨_, _, e⟩ | ⟨_, e⟩ | ⟨_, hn, _⟩ | ⟨hn, _⟩ | ⟨hn, _⟩ |
    ⟨hn, _⟩ | ⟨hn, _⟩
  · rw [e]; exact .inr ⟨hp, rfl⟩
  · rw [e]; exact .inr ⟨hp, rfl⟩
  · rw [e]; exact .inl rfl
  · rw [e]; exact .inr ⟨hp, rfl⟩
  · rw [e]; exact .inr ⟨hp, rfl⟩
  all_goals exact absurd hn hbusy

/-- A host statement leaves the host at the next one, or at itself again (`wait`). -/
theorem hostStep_host {s t : State} {op : HostOp} {rest : List HostOp} (h : hostStep s op rest = .next t) :
    t.host = rest ∨ t.host = op :: rest := by
  rcases hostStep_next h with ⟨off, v, _, _, rfl⟩ | ⟨_, rfl⟩ | ⟨l, n, r, hl, rfl, _⟩
  · exact .inl (busWrite_host _ off v)
  · exact .inl rfl
  · exact hl

/-- A host statement run while a command is pending discards it or takes one from its latency (R82, R134). -/
theorem hostStep_pending {s t : State} {p : Pend} {op : HostOp} {rest : List HostOp} (hp : s.pend = some p)
    (h : hostStep s op rest = .next t) : t.pend = none ∨ t.pend = some p ∧ t.latency = s.latency - 1 := by
  rcases hostStep_next h with ⟨off, v, _, _, rfl⟩ | ⟨_, rfl⟩ | ⟨l, n, r, _, rfl, _⟩
  · exact busWrite_pending (s := s.hostAdvance rest) hp off v
  · exact .inl rfl
  · exact .inr ⟨hp, rfl⟩

theorem run_of_step {s t : State} (h : step s = .next t) (k : Nat) :
    Host.Core.run core (k + 1) s = Host.Core.run core k t := by
  have hcore : core.step s = .next t := h
  simp only [Host.Core.run, hcore]

/-- The bound of O56 for each latency: the core's turn ends the command, and a host statement before it takes one from the
latency. -/
theorem pending_ends (n : Nat) {s : State} {p : Pend} (h : Inv s) (hp : s.pend = some p) (hn : s.latency = n)
    (ha : ∀ op ∈ s.host, op.admitted = true) :
    ∃ k t, k ≤ n + 1 ∧ Host.Core.run core k s = .next t ∧ t.pend = none := by
  induction n generalizing s with
  | zero =>
    obtain ⟨t, hs, ht⟩ := h.core_completes ⟨hp, .inr hn⟩
    exact ⟨1, t, le_rfl, run_of_step hs 0, ht⟩
  | succ n ih =>
    cases hh : s.host with
    | nil =>
      obtain ⟨t, hs, ht⟩ := h.core_completes ⟨hp, .inl hh⟩
      exact ⟨1, t, by omega, run_of_step hs 0, ht⟩
    | cons op rest =>
      have hturn : HostTurn s op rest := ⟨hh, .inr (by omega)⟩
      obtain ⟨t, ht⟩ := hostStep_of_admitted s rest (ha op (by simp [hh]))
      have hs : step s = .next t := (step_host hturn).trans ht
      rcases hostStep_pending hp ht with hnone | ⟨hpend, hlat⟩
      · exact ⟨1, t, by omega, run_of_step hs 0, hnone⟩
      · have hadm : ∀ op ∈ t.host, op.admitted = true := by
          rcases hostStep_host ht with e | e
          · exact fun o ho => ha o (by rw [hh]; exact List.mem_cons_of_mem _ (e ▸ ho))
          · rwa [e, ← hh]
        obtain ⟨k, u, hk, hrun, hu⟩ := ih (everyStepKeepsTheInvariant s t h hs) hpend (by omega) hadm
        exact ⟨k + 1, u, by omega, (run_of_step hs k).trans hrun, hu⟩

/-- Settles O56, by induction on the latency. -/
theorem pendingCommandEnds : Obligations.PendingCommandEnds :=
  fun s _ h hp ha => pending_ends s.latency h hp rfl ha

/-! ## When a DMEM byte changes -/

theorem exec_keeps_mem {i : Instr} {s t : State} {p : Pend} (hp : s.pend = some p) (h : exec i s = .next t)
    (hi : isCodec i = false) : t.mem = s.mem := by
  rcases exec_next hp h with ⟨e, rfl⟩ | ⟨f, tr, c, m, o, rfl, _, _, _, hmem⟩
  · rfl
  · exact (hmem hi).1

/-- A host statement keeps DMEM, or is a write to one word of it while no command is pending (R50, R58). -/
theorem hostStep_mem {s t : State} {op : HostOp} {rest : List HostOp} (h : hostStep s op rest = .next t) :
    t.mem = s.mem ∨ ∃ off v, op = .write off 32 v ∧ s.pend = none ∧ 0x100000 ≤ off.toNat ∧
      t.mem = s.mem.writeWord (off.toNat - 0x100000) v := by
  rcases hostStep_next h with ⟨off, v, hop, _, rfl⟩ | ⟨_, rfl⟩ | ⟨l, n, r, _, rfl, _⟩
  · rcases (s.hostAdvance rest).busWrite_cases off v with e | ⟨_, e⟩ | ⟨_, _, e⟩ | ⟨_, _, e⟩ | ⟨_, e⟩ | ⟨_, _, e⟩ |
      ⟨_, _, e⟩ | ⟨_, _, e⟩ | ⟨_, _, e⟩ | ⟨hn, hlo, _, e⟩
    case inr.inr.inr.inr.inr.inr.inr.inr.inr =>
      rw [e]
      exact .inr ⟨off, v, hop, hn, hlo, rfl⟩
    all_goals
      rw [e]
      exact .inl rfl
  · exact .inl rfl
  · exact .inl rfl

/-- A byte that a word's store changes is one of the word's four. -/
theorem near_of_read_writeWord_ne {m : Memory} {a x : Nat} {v : Word} (h : (m.writeWord a v).read x ≠ m.read x) :
    a ≤ x ∧ x < a + 4 := by
  by_contra hout
  exact h (Memory.read_writeBytes_outside m _ (by simp only [List.length_cons, List.length_nil]; omega))

/-- Settles O59: of the commands only ENCODE and DECODE write DMEM, and of the host's statements only an idle window write. -/
theorem dmemBytesStayUntilWritten : Obligations.DmemBytesStayUntilWritten := by
  intro s t a h hne
  rcases step_next h with ⟨_, _, rfl⟩ | ⟨p, hc, ⟨i, hd, he⟩ | ⟨e, _, rfl⟩⟩ | ⟨op, rest, ht, hs⟩
  · exact absurd rfl hne
  · refine .inr ⟨p, hc, ?_⟩
    have hi : isCodec i = true := by
      by_contra hi
      exact hne (by rw [exec_keeps_mem hc.1 he (by simpa using hi)])
    rw [eq_encode_of_decode hd]
    rcases isCodec_iff.mp hi with rfl | rfl | rfl <;> decide
  · exact absurd rfl hne
  · rcases hostStep_mem hs with hm | ⟨off, v, rfl, hp, hlo, hm⟩
    · exact absurd (by rw [hm]) hne
    · rw [hm] at hne
      obtain ⟨hle, hlt⟩ := near_of_read_writeWord_ne hne
      exact .inl ⟨off, v, rest, ht, hp, hlo, hle, hlt⟩

end Sys2Proof
end

section
/-! PROOFS. The command words: the decoder and the encoder, the nine legal words, and the step of an illegal one (O1, O2, O3,
O5). -/

namespace Sys2Proof

open Machine

/-! ## The decoder and the encoder -/

@[simp] theorem decode_encode (i : Instr) : decode (encode i) = .ok i := by
  cases i <;> rfl

/-- The words of a command are its encoding alone (R68). -/
theorem decode_eq_ok_iff {w : Word} {i : Instr} : decode w = .ok i ↔ w = encode i :=
  ⟨eq_encode_of_decode, fun h => h ▸ decode_encode i⟩

/-- Settles O3: both directions of the decoder's characterisation by the encoder. -/
theorem decodeAndEncodeAgree : Obligations.DecodeAndEncodeAgree :=
  ⟨decode_encode, fun _ _ h => (decode_eq_ok_iff.mp h).symm⟩

/-- Settles O1: a legal word is its command's encoding, and an illegal one shows its reason. -/
theorem writtenWordsDecode : Obligations.WrittenWordsDecode :=
  ⟨decode_encode .nop, decode_encode .clrf, decode_encode .count, decode_encode .countAcc, decode_encode .build,
    decode_encode .gencode, decode_encode .encode, decode_encode .decode, decode_encode .decodeChk, rfl, rfl, rfl⟩

/-! ## The nine words -/

theorem Instr.mem_all (i : Instr) : i ∈ Instr.all := by
  cases i <;> decide

theorem mem_map_encode_iff {w : Word} {i : Instr} : (w, i) ∈ Instr.all.map (fun j => (encode j, j)) ↔ w = encode i := by
  simp [Instr.mem_all, eq_comm]

/-- Settles O2: R68's table lists each command beside its encoding, the one word that decodes to it. -/
theorem legalWordsAreExactlyNine : Obligations.LegalWordsAreExactlyNine := fun _ _ =>
  decode_eq_ok_iff.trans mem_map_encode_iff.symm

/-- A word that is no command's encoding is illegal (R68, R70). -/
theorem decode_error_of_not_mem {w : Word} (h : w ∉ Instr.all.map encode) : ∃ e, decode w = .error e := by
  cases hd : decode w with
  | ok i => exact absurd (decode_eq_ok_iff.mp hd ▸ List.mem_map_of_mem i.mem_all) h
  | error e => exact ⟨e, rfl⟩

/-- Settles O5: a word outside the nine does not decode, and the completion of such a word is its error report alone. -/
theorem illegalWordReportsItself : Obligations.IllegalWordReportsItself := by
  intro s p hc hw
  obtain ⟨e, he⟩ := decode_error_of_not_mem hw
  rw [step_core hc, coreStep_error hc.1 he]
  rfl

end Sys2Proof
end

section
/-! PROOFS. The acceptance of a command, its completion all or nothing, and ENCODE after BUILD (O7, O23, O35, O50, O43). -/

namespace Sys2Proof

open Machine

/-! ## Acceptance -/

/-- STATUS.BUSY is bit 0 of STATUS (R23). -/
theorem statusWord_bit_zero (s : State) : s.statusWord.getLsbD 0 = s.busy := by
  rw [State.statusWord, BitVec.getLsbD_append, if_pos Nat.one_pos, BitVec.getLsbD_ofBool, decide_eq_true rfl,
    Bool.true_and]

/-- Settles O7: an idle CMD write reaches its register, which accepts the word; a busy one is on R58's list. -/
theorem cmdWriteIsAccepted : Obligations.CmdWriteIsAccepted := by
  refine ⟨fun s v rest hh hp => ?_, fun s v rest ht hp => ?_⟩
  · exact ⟨(s.hostAdvance rest).accept v, _, _,
      step_write_target ⟨hh, .inl hp⟩ (by decide) (target_regOffset _ .cmd) (.inl hp), rfl, statusWord_bit_zero _⟩
  · exact busyWritesAreDropped s 0x01C v rest ht hp (by decide) (.inl (by decide))

/-! ## Completion -/

theorem exec_of_done {i : Instr} {s u : State} {p : Pend} (hp : s.pend = some p) (h : executeOf i s p = .done u) :
    exec i s = .next u.succeed := by
  rw [exec_eq_runPending, State.runPending_some hp, h]
  rfl

/-- Settles O23: NOP's `execute` answers the state it was given. -/
theorem nopCompletes : Obligations.NopCompletes := fun _ _ hp => exec_of_done hp rfl

/-- Settles O35: TREE_VALID is GENCODE's first check. -/
theorem gencodeNeedsATree : Obligations.GencodeNeedsATree := by
  intro s p hp hv
  have hfail : gencodeCommand s p = .fail ⟨.noTree, 0⟩ := if_neg (by simp [hv])
  exact exec_of_fail hp hfail

/-- No command fails with the code OK: a failure's report is that of a check (R121). -/
theorem executeOf_fail_ne_ok {i : Instr} {s : State} {p : Pend} {e : ErrReport} (h : executeOf i s p = .fail e) :
    e.code ≠ .ok := by
  have hsays := executeOf_says i s p
  rw [h] at hsays
  exact hsays.2

/-- A pending command fails with a code other than OK, or succeeds with its writes (R77). -/
theorem exec_completion {i : Instr} {s t : State} {p : Pend} (hp : s.pend = some p) (h : exec i s = .next t) :
    (∃ e : ErrReport, e.code ≠ .ok ∧ t = s.failWith (isCodec i) e) ∨ ∃ u, Writes i s p u ∧ t = u.succeed := by
  rw [exec_eq_runPending, State.runPending_some hp] at h
  cases hr : executeOf i s p with
  | done u => rw [hr] at h; cases h; exact .inr ⟨u, executeOf_writes hr, rfl⟩
  | fail e => rw [hr] at h; cases h; exact .inl ⟨e, executeOf_fail_ne_ok hr, rfl⟩
  | hang => rw [hr] at h; cases h

/-- The `Err` arm of a command's completion: ENCODE and DECODE also set OUT_LEN and OUT_BITS to 0 (R77, R123). -/
theorem failWith_isCodec (i : Instr) (s : State) (e : ErrReport) : s.failWith (isCodec i) e =
    if i = .encode ∨ i = .decode ∨ i = .decodeChk then erredCodec s e.code e.info else erred s e.code e.info := by
  simp only [← isCodec_iff]
  cases isCodec i <;> rfl

/-- Settles O50: the report of a failure is never OK, so ERRCODE tells the two completions apart. -/
theorem commandsAreAllOrNothing : Obligations.CommandsAreAllOrNothing := by
  intro i s t p hp h
  rcases exec_completion hp h with ⟨e, hne, rfl⟩ | ⟨u, hu, rfl⟩
  · exact ⟨rfl, fun hok => absurd hok hne, fun _ => failWith_isCodec i s e⟩
  · refine ⟨rfl, fun _ => ⟨rfl, ?_⟩, fun hne => absurd rfl hne⟩
    rw [State.succeed_event, hu.event]

/-! ## ENCODE after BUILD -/

theorem build_success_codes {s t : State} {p : Pend} (hp : s.pend = some p) (h : exec .build s = .next t)
    (hok : t.err.code = .ok) : t.codes = Codes.empty := by
  rcases exec_completion hp h with ⟨e, hne, rfl⟩ | ⟨u, hu, rfl⟩
  · exact absurd hok hne
  · cases hu with
    | tree => rfl
    | freq f hi => simp at hi
    | nothing hi => cases hi
    | codes xs hi => cases hi
    | output bytes bits hi => cases hi

/-- CODE_VALID is ENCODE's first check (R107). -/
theorem exec_encode_noCode {s : State} {p : Pend} (hp : s.pend = some p) (hv : s.codes.valid = false) :
    exec .encode s = .next (erredCodec s .noCode 0) := by
  have hfail : encodeCommand s p = .fail ⟨.noCode, 0⟩ := if_neg (by simp [hv])
  exact exec_of_fail hp hfail

/-- Of the writes only GENCODE's set CODE_VALID. -/
theorem Writes.codes_invalid {i : Instr} {s u : State} {p : Pend} (h : Writes i s p u) (hi : i ≠ .gencode)
    (hv : s.codes.valid = false) : u.codes.valid = false := by
  cases h with
  | codes xs hg => exact absurd hg hi
  | tree => rfl
  | _ => exact hv

theorem hostStep_codes_invalid {s t : State} {op : HostOp} {rest : List HostOp} (h : HostTurn s op rest)
    (hs : step s = .next t) (hv : s.codes.valid = false) : t.codes.valid = false := by
  by_cases hr : Resets op
  · rw [hostStep_resets h hr] at hs
    cases hs
    rfl
  · rw [step_host h] at hs
    obtain ⟨_, _, hcodes, _⟩ := hostStep_frame hs hr
    rw [hcodes, hv]

/-- A step that does not complete a GENCODE leaves CODE_VALID 0 (R26). -/
theorem step_codes_invalid {s t : State} (h : step s = .next t) (hv : s.codes.valid = false)
    (hg : ∀ p, CoreTurn s p → p.word ≠ encode .gencode) : t.codes.valid = false := by
  rcases step_next h with ⟨_, _, rfl⟩ | ⟨p, hc, ⟨i, hd, he⟩ | ⟨e, _, rfl⟩⟩ | ⟨op, rest, ht, _⟩
  · exact hv
  · have hi : i ≠ .gencode := fun hi => hg p hc (hi ▸ eq_encode_of_decode hd)
    rcases exec_completion hc.1 he with ⟨e, _, rfl⟩ | ⟨u, hu, rfl⟩
    · exact hv
    · exact hu.codes_invalid hi hv
  · exact hv
  · exact hostStep_codes_invalid ht h hv

/-- A run of one step more begins with a step. -/
theorem run_succ_next {s u : State} {k : Nat} (h : Host.Core.run core (k + 1) s = .next u) :
    ∃ t, step s = .next t ∧ Host.Core.run core k t = .next u := by
  cases hs : step s with
  | next t => exact ⟨t, rfl, (run_of_step hs k).symm.trans h⟩
  | fault f =>
    have hcore : core.step s = .fault f := hs
    simp [Host.Core.run, hcore] at h
  | refused r =>
    have hcore : core.step s = .refused r := hs
    simp [Host.Core.run, hcore] at h

/-- A run in which no step completes a GENCODE leaves CODE_VALID 0. -/
theorem run_codes_invalid {k : Nat} {s u : State} (h : Host.Core.run core k s = .next u)
    (hg : ∀ (j : Nat) (v : State) (g : Pend), j < k → Host.Core.run core j s = .next v → CoreTurn v g →
      g.word ≠ encode .gencode) (hv : s.codes.valid = false) : u.codes.valid = false := by
  induction k generalizing s with
  | zero => cases h; exact hv
  | succ k ih =>
    obtain ⟨t, hs, hrun⟩ := run_succ_next h
    have hvt : t.codes.valid = false := step_codes_invalid hs hv fun p => hg 0 s p (by omega) rfl
    refine ih hrun (fun j v g hj hv' => ?_) hvt
    exact hg (j + 1) v g (by omega) ((run_of_step hs j).trans hv')

/-- Settles O43: BUILD empties the code table, and no step but GENCODE's completion sets CODE_VALID again. -/
theorem encodeAfterBuildNeedsGencode : Obligations.EncodeAfterBuildNeedsGencode := by
  intro s t p hp hb hok
  have hv : t.codes.valid = false := by rw [build_success_codes hp hb hok]; rfl
  refine ⟨fun q => exec_encode_noCode rfl hv, fun k u q hrun hg hc hq => ?_⟩
  have hd : decode q.word = .ok .encode := decode_eq_ok_iff.mpr hq
  rw [step_core hc, coreStep_ok hc.1 hd]
  exact exec_encode_noCode hc.1 (run_codes_invalid hrun hg hv)

end Sys2Proof
end

section
/-! PROOFS. CLRF and COUNT on a valid range (O24, O25, O26), and the error reports of each command (O51). -/

namespace Sys2Proof

open Machine

/-! ## CLRF and COUNT -/

/-- Settles O24: CLRF's `execute` answers the state with the empty table. -/
theorem clrfClearsFreq : Obligations.ClrfClearsFreq :=
  fun _ _ hp => ⟨FreqTable.empty, exec_of_done hp rfl, symGet_freqEmpty⟩

/-- The table a COUNT starts from: the FREQ table itself with ACC = 1, otherwise the empty one (R86). -/
def countBase (acc : Bool) (s : State) : FreqTable := if acc then s.freq else FreqTable.empty

theorem rangeOk_of_le {m : Memory} {a l : Nat} (h : a + l ≤ m.size) : m.rangeOk a l = true := decide_eq_true h

theorem countCommand_of_ok {acc : Bool} {s : State} {p : Pend} {f : FreqTable}
    (hr : p.ops.src.toNat + p.ops.len.toNat ≤ s.mem.size)
    (h : countBytes (inputOf s p.ops) (countBase acc s) = .ok f) : countCommand acc s p = .done { s with freq := f } := by
  rw [countCommand, if_pos (rangeOk_of_le hr), inputBytes_eq_inputOf, ← countBase, h]

theorem countCommand_of_error {acc : Bool} {s : State} {p : Pend} {b : Byte}
    (hr : p.ops.src.toNat + p.ops.len.toNat ≤ s.mem.size)
    (h : countBytes (inputOf s p.ops) (countBase acc s) = .error b) :
    countCommand acc s p = .fail ⟨.countOverflow, infoOf b.toNat⟩ := by
  rw [countCommand, if_pos (rangeOk_of_le hr), inputBytes_eq_inputOf, ← countBase, h]

/-- COUNT on a valid range adds the occurrences to its starting table, if no entry would pass 2^32 − 1 (R86, R87). -/
theorem countCommand_adds {acc : Bool} {s : State} {p : Pend} (hr : p.ops.src.toNat + p.ops.len.toNat ≤ s.mem.size)
    (hfit : ∀ b : Byte, (symGet (countBase acc s) b).toNat + (inputOf s p.ops).count b < 2 ^ 32) :
    ∃ f, countCommand acc s p = .done { s with freq := f } ∧
      (∀ b : Byte, (symGet f b).toNat = (symGet (countBase acc s) b).toNat + (inputOf s p.ops).count b) ∧
      ((List.range 256).map (fun k => (symGet f (BitVec.ofNat 8 k)).toNat)).sum =
        ((List.range 256).map (fun k => (symGet (countBase acc s) (BitVec.ofNat 8 k)).toNat)).sum + p.ops.len.toNat := by
  obtain ⟨f, hf⟩ := countBytes_isOk hfit
  have hsum := countBytes_sum hf
  rw [inputOf_length] at hsum
  exact ⟨f, countCommand_of_ok hr hf, countBytes_ok hf, hsum⟩

/-- COUNT with ACC = 0 starts every count at 0. -/
theorem countBase_false_toNat (s : State) (b : Byte) : (symGet (countBase false s) b).toNat = 0 := by
  rw [show symGet (countBase false s) b = 0 from symGet_freqEmpty b]
  rfl

/-- A byte occurs in the input at most LEN times, which a word holds. -/
theorem count_inputOf_lt (s : State) (o : Operands) (b : Byte) : (inputOf s o).count b < 2 ^ 32 :=
  calc (inputOf s o).count b ≤ (inputOf s o).length := List.count_le_length
    _ = o.len.toNat := inputOf_length s o
    _ < 2 ^ 32 := o.len.isLt

/-- Settles O25: from the empty table no count passes LEN, so the pass never overflows. -/
theorem countCountsTheRange : Obligations.CountCountsTheRange := by
  intro s p hp hr
  obtain ⟨f, hdone, hcount, hsum⟩ := countCommand_adds (acc := false) hr
    (fun b => by rw [countBase_false_toNat, Nat.zero_add]; exact count_inputOf_lt s p.ops b)
  simp only [countBase_false_toNat, List.map_const', List.sum_replicate, smul_zero, Nat.zero_add] at hcount hsum
  exact ⟨f, exec_of_done hp hdone, hcount, hsum⟩

/-- Settles O26: the pass adds the occurrences, or stops at the first byte whose entry stands at 2^32 − 1. -/
theorem countAccAddsOrOverflows : Obligations.CountAccAddsOrOverflows := by
  intro s p hp hr
  refine ⟨fun hfit => ?_, fun k b hk hb hj => ?_⟩
  · obtain ⟨f, hdone, hcount, hsum⟩ := countCommand_adds (acc := true) hr hfit
    exact ⟨f, exec_of_done hp hdone, hcount, hsum⟩
  · have hfail := countCommand_of_error (acc := true) hr (countBytes_overflow hk hb hj)
    rw [infoOf, BitVec.ofNat_toNat] at hfail
    exact exec_of_fail hp hfail

/-! ## The error reports -/

/-- The first failing check is one of the checks. -/
theorem mem_of_firstError {cs : List Check} {e : ErrReport} (h : firstError cs = some e) : ∃ c ∈ cs, c.report = e := by
  obtain ⟨c, hc, rfl⟩ := Option.map_eq_some_iff.mp h
  exact ⟨c, List.mem_of_find?_eq_some hc, rfl⟩

/-- A completed command reports success or one of its checks (R79, R121). -/
theorem exec_reports {i : Instr} {s t : State} {p : Pend} (hp : s.pend = some p) (h : exec i s = .next t) :
    t.err = ⟨.ok, 0⟩ ∨ ∃ c ∈ checksOf s p.ops i, c.report = t.err := by
  rw [exec_eq_runPending] at h
  obtain ⟨_, herr, _⟩ := runPending_says hp h (executeOf_says i s p) fun u hu => (executeOf_writes hu).event
  cases he : firstError (checksOf s p.ops i) with
  | none => exact .inl (by rw [herr, he, Option.getD_none])
  | some e => exact .inr (by rw [herr, he, Option.getD_some]; exact mem_of_firstError he)

/-- A number below a word names itself as error information. -/
theorem toNat_ofNat_lt {k n : Nat} (hk : k < n) (hn : n ≤ 2 ^ 32) : (BitVec.ofNat 32 k).toNat < n := by
  rwa [BitVec.toNat_ofNat, Nat.mod_eq_of_lt (hk.trans_le hn)]

/-- The reports of DECODE's checks after its tree check (R120). -/
def DecodeReports (o : Operands) (e : ErrReport) : Prop :=
  e = ⟨.corruptStream, 0xFFFFFFFF⟩ ∨ e = ⟨.addressRange, 0⟩ ∨
    (e.code = .corruptStream ∧ e.info.toNat ≤ o.bits.toNat) ∨ e = ⟨.addressRange, 1⟩

theorem decodeChecks_report {s : State} {o : Operands} {c : Check} (h : c ∈ decodeChecks s o) :
    DecodeReports o c.report := by
  simp only [decodeChecks, bitChecks, List.mem_append, List.mem_cons, List.not_mem_nil, or_false, List.mem_flatMap,
    List.mem_range] at h
  obtain ((rfl | rfl) | ⟨i, hi, rfl | rfl⟩) | rfl := h
  · exact .inl rfl
  · exact .inr (.inl rfl)
  · exact .inr (.inr (.inl ⟨rfl, (toNat_ofNat_lt hi o.bits.isLt.le).le⟩))
  · exact .inr (.inr (.inr rfl))
  · exact .inr (.inr (.inl ⟨rfl, le_rfl⟩))

theorem countAccChecks_report {s : State} {o : Operands} {c : Check} (h : c ∈ checksOf s o .countAcc) :
    c.report = ⟨.addressRange, 0⟩ ∨ (c.report.code = .countOverflow ∧ c.report.info.toNat < 256) := by
  obtain rfl | h := List.mem_cons.mp h
  · exact .inl rfl
  · obtain ⟨k, _, rfl⟩ := List.mem_map.mp h
    refine .inr ⟨rfl, ?_⟩
    rw [BitVec.toNat_setWidth_of_le (by decide)]
    exact BitVec.isLt _

theorem encodeChecks_report {s : State} {o : Operands} {c : Check} (h : c ∈ checksOf s o .encode) :
    c.report = ⟨.noCode, 0⟩ ∨ c.report = ⟨.addressRange, 0⟩ ∨ c.report = ⟨.emptyInput, 0⟩ ∨
      (c.report.code = .encodingConsistency ∧ c.report.info.toNat < o.len.toNat) ∨ c.report = ⟨.addressRange, 1⟩ := by
  simp only [checksOf, List.mem_append, List.mem_cons, List.not_mem_nil, or_false, List.mem_map, List.mem_range] at h
  obtain ((rfl | rfl | rfl) | ⟨k, hk, rfl⟩) | rfl := h
  · exact .inl rfl
  · exact .inr (.inl rfl)
  · exact .inr (.inr (.inl rfl))
  · exact .inr (.inr (.inr (.inl ⟨rfl, toNat_ofNat_lt hk o.len.isLt.le⟩)))
  · exact .inr (.inr (.inr (.inr rfl)))

theorem decodeChkChecks_report {s : State} {o : Operands} {c : Check} (h : c ∈ checksOf s o .decodeChk) :
    c.report = ⟨.noTree, 0⟩ ∨ (c.report.code = .treeMismatch ∧ c.report.info.toNat < 256) ∨
      DecodeReports o c.report := by
  simp only [checksOf, List.mem_append, List.mem_cons, List.mem_map, List.mem_range] at h
  obtain (rfl | ⟨k, hk, rfl⟩) | h := h
  · exact .inl rfl
  · exact .inr (.inl ⟨rfl, toNat_ofNat_lt hk (by decide)⟩)
  · exact .inr (.inr (decodeChecks_report h))

/-- Settles O51: a report is success or that of one of the command's checks, and each check's report is in R120's table. -/
theorem errorCodesOfEachCommand : Obligations.ErrorCodesOfEachCommand := by
  refine ⟨fun i s t p hp h => ?_, fun x hx s hs => ?_⟩
  · obtain hok | ⟨c, hc, hreport⟩ := exec_reports hp h
    · cases i with
      | nop | clrf => exact hok
      | _ => exact .inl hok
    · rw [← hreport]
      cases i with
      | nop | clrf => cases hc
      | count | build | gencode => exact .inr (congrArg Check.report (List.mem_singleton.mp hc))
      | countAcc => exact .inr (countAccChecks_report hc)
      | encode => exact .inr (encodeChecks_report hc)
      | decode =>
        obtain rfl | hc := List.mem_cons.mp hc
        · exact .inr (.inl rfl)
        · exact .inr (.inr (.inr (decodeChecks_report hc)))
      | decodeChk =>
        obtain hno | hmismatch | hdecode := decodeChkChecks_report hc
        · exact .inr (.inl hno)
        · exact .inr (.inr (.inl ⟨rfl, hmismatch⟩))
        · exact .inr (.inr (.inr hdecode))
  · have hbyte : x.1.byte.setWidth 32 = x.2 := by
      clear hs
      revert x
      decide
    rw [State.readReg, hs, hbyte]

end Sys2Proof
end

section
/-! PROOFS. BUILD on an empty table, the tree it makes, and its merges (O28, O30, O31). -/

namespace Sys2Proof

open Machine

/-! ## The two outcomes -/

theorem presentSymbols_eq_nil_iff {f : FreqTable} : presentSymbols f = [] ↔ ∀ b : Byte, symGet f b = 0 := by
  simp only [List.eq_nil_iff_forall_not_mem, mem_presentSymbols, not_not]

/-- Settles O28: with no symbol present BUILD's only check fails. -/
theorem buildRefusesAnEmptyTable : Obligations.BuildRefusesAnEmptyTable := by
  intro s p hp hf
  have hfail : buildCommand s p = .fail ⟨.emptyInput, 0⟩ := if_pos (presentSymbols_eq_nil_iff.mpr hf)
  exact exec_of_fail hp hfail

/-- A BUILD that succeeds has found a symbol and has written the tree of its FREQ table (R95). -/
theorem build_success {s t : State} {p : Pend} (hp : s.pend = some p) (h : exec .build s = .next t)
    (hok : t.err.code = .ok) : presentSymbols s.freq ≠ [] ∧ t.tree = buildTree s.freq := by
  have hne : presentSymbols s.freq ≠ [] := fun hnil => by
    rw [buildRefusesAnEmptyTable s p hp (presentSymbols_eq_nil_iff.mp hnil)] at h
    cases h
    cases hok
  rw [exec_build_tree hp hne] at h
  cases h
  exact ⟨hne, rfl⟩

/-! ## The tree -/

theorem ofNat9_toNat {i : Nat} (h : i < 512) : (BitVec.ofNat 9 i).toNat = i := by
  rw [BitVec.toNat_ofNat, Nat.mod_eq_of_lt h]

/-- Settles O30: the shape and the root's FREQ are those of BUILD's tree, whose leaves are the present symbols'. -/
theorem buildMakesTheTree : Obligations.BuildMakesTheTree := by
  intro s p hp symbols hne
  have hlen : symbols.length ≤ 256 := presentSymbols_length s.freq
  refine ⟨buildTree s.freq, exec_build_tree hp hne, rfl, buildTree_shape _ hne, buildTree_leafCount _, fun i hi => ?_,
    buildTree_root_freq _ hne⟩
  have hi9 : (BitVec.ofNat 9 i).toNat = i := ofNat9_toNat (by omega)
  rw [buildTree_leaf s.freq _ (by rw [hi9]; exact hi)]
  simp only [hi9]
  rfl

/-! ## The merges -/

/-- Node `c` has no parent below `j` in the arena when it is no child of an Internal entry below `j` of the tree. -/
theorem no_parent_below {f : FreqTable} (h : 2 ≤ (presentSymbols f).length) {j c : NodeIx}
    (hc : ∀ i : NodeIx, (buildTree f).internalAt i → i.toNat < j.toNat →
      (nodeAt (buildTree f).node i).left ≠ c ∧ (nodeAt (buildTree f).node i).right ≠ c) :
    ∀ i, i < j.toNat → ¬ Parent (leavesOf f).length (arenaOf (leavesOf f)) i c.toNat := by
  intro i hi hpar
  have hi9 : (BitVec.ofNat 9 i).toNat = i := ofNat9_toNat (by omega)
  rw [← hi9, parent_iff f h, BitVec.ofNat_toNat, BitVec.setWidth_eq] at hpar
  obtain ⟨hint, hchild⟩ := hpar
  obtain ⟨hl, hr⟩ := hc _ hint (by rw [hi9]; exact hi)
  exact hchild.elim hl hr

/-- Settles O31: the entry is the Internal node over the keys that BUILD extracted, the two least left. -/
theorem buildMergesTheTwoLeast : Obligations.BuildMergesTheTwoLeast := by
  intro s t p hp he hok h2 j hj
  obtain ⟨_, htree⟩ := build_success hp he hok
  rw [htree] at h2 hj ⊢
  rw [buildTree_leafCount] at h2
  obtain ⟨a, b, hm, hnode, ha, hb, hafreq, hbfreq⟩ := buildTree_internal s.freq h2 j hj
  have ha9 : (BitVec.ofNat 9 a.ix).toNat = a.ix := ofNat9_toNat (by omega)
  have hb9 : (BitVec.ofNat 9 b.ix).toNat = b.ix := ofNat9_toNat (by omega)
  have hleft : (nodeAt (buildTree s.freq).node j).left = BitVec.ofNat 9 b.ix := by rw [hnode]; rfl
  have hright : (nodeAt (buildTree s.freq).node j).right = BitVec.ofNat 9 a.ix := by rw [hnode]; rfl
  rw [hleft, hright]
  refine ⟨?_, ?_, fun c hcj hca hcb hcp => ?_⟩
  · rw [keyBefore, hafreq, hbfreq, ha9, hb9]
    exact (Key.lt_iff a b).mp hm.ordered
  · rw [hafreq, hbfreq, hnode]
    rfl
  · have hcl : c.toNat < (arenaOf (leavesOf s.freq)).length := by
      have := (List.getElem?_eq_some_iff.mp hm.node).1
      omega
    have hget := List.getElem?_eq_getElem hcl
    have hcfreq : (nodeAt (buildTree s.freq).node c).freq = (arenaOf (leavesOf s.freq))[c.toNat].freq := by
      rw [buildTree_nodeAt _ _ (by have hj9 := j.isLt; omega), hget]
      rfl
    rw [keyBefore, hbfreq, hb9, hcfreq]
    have hne : ∀ i : Nat, c ≠ BitVec.ofNat 9 i → c.toNat ≠ i := fun i hci he => hci (by simp [← he])
    exact (Key.lt_iff b _).mp (hm.least c.toNat _ hcj (hne _ hca) (hne _ hcb) hget (no_parent_below h2 hcp))

end Sys2Proof
end

section
/-! PROOFS. Code lengths apart from any tree: Kraft's inequality, and the exchange that makes the two least weights the
deepest pair (R98). -/

namespace Sys2Proof

/-! ## Kraft sums -/

/-- The Kraft sum of code lengths, `sum of 2^(−l)` (R103). -/
noncomputable def kraft (lengths : Multiset ℕ) : ℝ := (lengths.map fun l => (1 / 2 : ℝ) ^ l).sum

@[simp] theorem kraft_cons (l : ℕ) (lengths : Multiset ℕ) : kraft (l ::ₘ lengths) = (1 / 2) ^ l + kraft lengths := by
  simp [kraft]

theorem kraft_nonneg (lengths : Multiset ℕ) : 0 ≤ kraft lengths :=
  Multiset.sum_nonneg fun x hx => by
    obtain ⟨l, _, rfl⟩ := Multiset.mem_map.mp hx
    positivity

/-- A Kraft sum is a multiple of its least term. -/
theorem kraft_eq_mul_of_le {lengths : Multiset ℕ} {m : ℕ} (h : ∀ l ∈ lengths, l ≤ m) :
    ∃ k : ℕ, kraft lengths = k * (1 / 2) ^ m := by
  induction lengths using Multiset.induction with
  | empty => exact ⟨0, by simp [kraft]⟩
  | cons l lengths ih =>
    obtain ⟨k, hk⟩ := ih fun l' hl' => h l' (Multiset.mem_cons_of_mem hl')
    obtain ⟨d, rfl⟩ := Nat.exists_eq_add_of_le (h l (Multiset.mem_cons_self l lengths))
    have hl : (1 / 2 : ℝ) ^ l = (2 ^ d : ℕ) * (1 / 2) ^ (l + d) := by
      rw [pow_add, mul_left_comm, Nat.cast_pow, Nat.cast_ofNat, ← mul_pow]
      norm_num
    exact ⟨2 ^ d + k, by rw [kraft_cons, hk, hl, Nat.cast_add, add_mul]⟩

/-- A Kraft sum below 1 leaves room for one more code of the greatest length. -/
theorem kraft_add_le_one {lengths : Multiset ℕ} {m : ℕ} (h : ∀ l ∈ lengths, l ≤ m) (hlt : kraft lengths < 1) :
    (1 / 2) ^ m + kraft lengths ≤ 1 := by
  obtain ⟨k, hk⟩ := kraft_eq_mul_of_le h
  have hone : (2 ^ m : ℝ) * (1 / 2) ^ m = 1 := by rw [← mul_pow]; norm_num
  have hk2 : (k : ℝ) < 2 ^ m := by
    refine lt_of_mul_lt_mul_right ?_ (by positivity : (0 : ℝ) ≤ (1 / 2) ^ m)
    rwa [hone, ← hk]
  have hsucc : (k : ℝ) + 1 ≤ 2 ^ m := by exact_mod_cast hk2
  calc (1 / 2) ^ m + kraft lengths = ((k : ℝ) + 1) * (1 / 2) ^ m := by rw [hk]; ring
    _ ≤ 2 ^ m * (1 / 2) ^ m := by gcongr
    _ = 1 := hone

/-! ## Weighted code lengths -/

/-- The total encoded length of weighted code lengths: the sum of weight times length (R98). -/
def codeCost (code : Multiset (ℕ × ℕ)) : ℕ := (code.map fun x => x.1 * x.2).sum

@[simp] theorem codeCost_cons (x : ℕ × ℕ) (code : Multiset (ℕ × ℕ)) :
    codeCost (x ::ₘ code) = x.1 * x.2 + codeCost code := by
  simp [codeCost]

/-- Exchanging its length with the greatest gives a least weight the greatest length, and costs nothing. -/
theorem exists_longest_for_least {code : Multiset (ℕ × ℕ)} {a : ℕ} {weights : Multiset ℕ}
    (hw : code.map Prod.fst = a ::ₘ weights) (ha : ∀ w ∈ weights, a ≤ w) :
    ∃ (m : ℕ) (rest : Multiset (ℕ × ℕ)), rest.map Prod.fst = weights ∧
      m ::ₘ rest.map Prod.snd = code.map Prod.snd ∧ (∀ l ∈ rest.map Prod.snd, l ≤ m) ∧
      a * m + codeCost rest ≤ codeCost code := by
  obtain ⟨⟨a, x⟩, hx, rfl, rfl⟩ := (Multiset.map_eq_cons _ _ _ _).mpr hw
  obtain ⟨⟨w, m⟩, hm, hmax⟩ := code.toFinset.exists_max_image Prod.snd ⟨(a, x), by simpa using hx⟩
  have hmax' : ∀ y ∈ code, y.2 ≤ m := fun y hy => hmax y (by simpa using hy)
  obtain ⟨code, rfl⟩ := Multiset.exists_cons_of_mem hx
  rw [Multiset.erase_cons_head] at ha ⊢
  rcases Multiset.mem_cons.mp (Multiset.mem_toFinset.mp hm) with he | hmem
  · cases he
    refine ⟨x, code, rfl, by simp, fun l hl => ?_, by simp⟩
    obtain ⟨y, hy, rfl⟩ := Multiset.mem_map.mp hl
    exact hmax' y (Multiset.mem_cons_of_mem hy)
  · obtain ⟨code, rfl⟩ := Multiset.exists_cons_of_mem hmem
    have haw : a ≤ w := ha w (by simp)
    have hxm : x ≤ m := hmax' (a, x) (by simp)
    refine ⟨m, (w, x) ::ₘ code, by simp, by simp [Multiset.cons_swap], fun l hl => ?_, ?_⟩
    · simp only [Multiset.map_cons, Multiset.mem_cons, Multiset.mem_map] at hl
      rcases hl with rfl | ⟨y, hy, rfl⟩
      · exact hxm
      · exact hmax' y (by simp [hy])
    · have hexchange : a * m + w * x ≤ a * x + w * m := by nlinarith
      simp only [codeCost_cons]
      omega

/-- The two least weights can share a parent: joining them leaves code lengths for the merged weights that still satisfy
Kraft's inequality and cost less by the merged weight. -/
theorem exists_merged_code {code : Multiset (ℕ × ℕ)} {a b : ℕ} {weights : Multiset ℕ}
    (hw : code.map Prod.fst = a ::ₘ b ::ₘ weights) (hab : a ≤ b) (hb : ∀ w ∈ weights, b ≤ w)
    (hk : kraft (code.map Prod.snd) ≤ 1) :
    ∃ merged : Multiset (ℕ × ℕ), merged.map Prod.fst = (a + b) ::ₘ weights ∧ kraft (merged.map Prod.snd) ≤ 1 ∧
      codeCost merged + (a + b) ≤ codeCost code := by
  have ha : ∀ w ∈ b ::ₘ weights, a ≤ w := fun w hw => by
    rcases Multiset.mem_cons.mp hw with rfl | hw
    · exact hab
    · exact hab.trans (hb w hw)
  obtain ⟨m, rest, hrest, hlen, hmax, hcost⟩ := exists_longest_for_least hw ha
  obtain ⟨l, rest', hrest', hlen', hmax', hcost'⟩ := exists_longest_for_least hrest hb
  have hlm : l ≤ m := hmax l (by rw [← hlen']; simp)
  -- the longest length can be cut to the second longest
  have hroom : (1 / 2) ^ l + kraft (rest.map Prod.snd) ≤ 1 := by
    refine kraft_add_le_one (fun y hy => ?_) ?_
    · rw [← hlen'] at hy
      rcases Multiset.mem_cons.mp hy with rfl | hy
      · exact le_rfl
      · exact hmax' y hy
    · rw [← hlen, kraft_cons] at hk
      have : (0 : ℝ) < (1 / 2) ^ m := by positivity
      linarith
  rw [← hlen', kraft_cons] at hroom
  have hnonneg := kraft_nonneg (rest'.map Prod.snd)
  cases l with
  | zero => norm_num at hroom; linarith
  | succ l =>
    refine ⟨(a + b, l) ::ₘ rest', by simp [hrest'], ?_, ?_⟩
    · rw [Multiset.map_cons, kraft_cons]
      rw [pow_succ] at hroom
      linarith
    · have hcut : a * (l + 1) ≤ a * m := Nat.mul_le_mul_left a hlm
      rw [codeCost_cons]
      linarith

/-! ## Codes of which no string begins another -/

/-- Non-empty strings of which none begins another are uniquely decodable: the first of a concatenation is determined. -/
theorem uniquelyDecodable_of_prefixFree {S : Set (List Bool)} (hne : [] ∉ S)
    (h : ∀ v ∈ S, ∀ w ∈ S, v <+: w → v = w) : InformationTheory.UniquelyDecodable S := by
  intro xs
  induction xs with
  | nil =>
    intro ys _ hys he
    cases ys with
    | nil => rfl
    | cons w ys =>
      have hw : w = [] := (List.append_eq_nil_iff.mp he.symm).1
      exact absurd (hw ▸ hys w (by simp)) hne
  | cons v xs ih =>
    intro ys hxs hys he
    cases ys with
    | nil =>
      have hv : v = [] := (List.append_eq_nil_iff.mp he).1
      exact absurd (hv ▸ hxs v (by simp)) hne
    | cons w ys =>
      have hv := hxs v (by simp)
      have hw := hys w (by simp)
      rw [List.flatten_cons, List.flatten_cons] at he
      have hvw : v = w := by
        rcases List.prefix_or_prefix_of_prefix ⟨_, he⟩ ⟨ys.flatten, rfl⟩ with hp | hp
        · exact h v hv w hw hp
        · exact (h w hw v hv hp).symm
      subst hvw
      rw [ih ys (fun x hx => hxs x (by simp [hx])) (fun y hy => hys y (by simp [hy])) (List.append_cancel_left he)]

/-- Kraft's inequality for a code of non-empty strings of which none begins another. -/
theorem kraft_le_one {α : Type} {xs : List α} (hnodup : xs.Nodup) {c : α → List Bool} (hne : ∀ a ∈ xs, c a ≠ [])
    (h : ∀ a ∈ xs, ∀ b ∈ xs, a ≠ b → ¬ c a <+: c b) : kraft ↑(xs.map fun a => (c a).length) ≤ 1 := by
  have hinj : ∀ a ∈ xs, ∀ b ∈ xs, c a = c b → a = b := fun a ha b hb he =>
    by_contra fun hab => h a ha b hb hab (he ▸ List.prefix_rfl)
  have hcodes : (xs.map c).Nodup := hnodup.map_on hinj
  have hdec : InformationTheory.UniquelyDecodable ((xs.map c).toFinset : Set (List Bool)) := by
    refine uniquelyDecodable_of_prefixFree (by simpa using fun a ha => hne a ha) fun v hv w hw hp => ?_
    rw [Finset.mem_coe, List.mem_toFinset, List.mem_map] at hv hw
    obtain ⟨a, ha, rfl⟩ := hv
    obtain ⟨b, hb, rfl⟩ := hw
    by_contra hab
    exact h a ha b hb (fun he => hab (he ▸ rfl)) hp
  have hk := InformationTheory.kraft_mcmillan_inequality hdec
  rw [List.sum_toFinset _ hcodes, Fintype.card_bool, List.map_map] at hk
  simpa [kraft, Function.comp_def] using hk

end Sys2Proof
end

section
/-! PROOFS. BUILD's tree is optimal (O32): along the merges, the depths of the nodes without a parent cost no more than any
code lengths that satisfy Kraft's inequality. -/

namespace Sys2Proof

open Machine

/-! ## Depths -/

/-- `D` gives the depth of every node of the arena of `n` leaves: 0 for a tree's root, and one more than its parent's for a
child (R98). -/
structure ArenaDepths (n : Nat) (arena : List Node) (D : NodeIx → Nat) : Prop where
  root : ∀ (k : Key) (total : Nat), Forest n arena [k] total → D (BitVec.ofNat 9 k.ix) = 0
  child : ∀ (j : Nat) (nd : Node), n ≤ j → arena[j]? = some nd →
    D nd.left = D (BitVec.ofNat 9 j) + 1 ∧ D nd.right = D (BitVec.ofNat 9 j) + 1

/-- In a tree of BUILD's shape the length of a node's path is a function of the node (R96, R98). -/
theorem TreeShape.exists_depth {t : Tree} (h : TreeShape t) :
    ∃ D : NodeIx → Nat, ∀ bs i, t.descend t.root bs = some i → D i = bs.length := by
  have hnode : ∀ i : NodeIx, ∃ d : Nat, ∀ bs, t.descend t.root bs = some i → d = bs.length := fun i => by
    by_cases hi : ∃ bs, t.descend t.root bs = some i
    · obtain ⟨bs, hbs⟩ := hi
      exact ⟨bs.length, fun cs hcs => congrArg List.length (h.path_unique hbs hcs)⟩
    · exact ⟨0, fun bs hbs => absurd ⟨bs, hbs⟩ hi⟩
  choose D hD using hnode
  exact ⟨D, fun bs i => hD i bs⟩

/-- A child is one deeper than its parent. -/
theorem TreeShape.depth_child {t : Tree} (h : TreeShape t) {D : NodeIx → Nat}
    (hD : ∀ bs i, t.descend t.root bs = some i → D i = bs.length) {i : NodeIx} (hi : t.internalAt i) (b : Bool)
    (hb : (nodeAt t.node i).child b ≠ nil) : D ((nodeAt t.node i).child b) = D i + 1 := by
  have hlast := h.root_last
  obtain ⟨bs, hbs⟩ := h.path_exists i (by have hlt := hi.2; omega)
  obtain ⟨_, hkind, _⟩ := h.internal_entry i hi
  rw [hD bs i hbs, hD (bs ++ [b]) _ (descend_snoc.mpr ⟨i, hbs, hkind, rfl, hb⟩), List.length_append]
  rfl

/-- The nodes without a parent are fixed by the arena, so a forest of one tree has one root. -/
theorem forest_root_unique {n total total' : Nat} {arena : List Node} {k k' : Key} (hf : Forest n arena [k] total)
    (hf' : Forest n arena [k'] total') : k.ix = k'.ix := by
  obtain ⟨nd, hnd, _⟩ := hf.key k (by simp)
  have hlt : k.ix < arena.length := (List.getElem?_eq_some_iff.mp hnd).1
  have hmem : k.ix ∈ [k'].map Key.ix := (hf'.alive _ hlt).mpr ((hf.alive _ hlt).mp (by simp))
  simpa using hmem

/-- The lengths of the paths in BUILD's tree are the depths of its arena. -/
theorem buildTree_depths {f : FreqTable} (h : 2 ≤ (presentSymbols f).length) {D : NodeIx → Nat}
    (hD : ∀ bs i, (buildTree f).descend (buildTree f).root bs = some i → D i = bs.length) :
    ArenaDepths (leavesOf f).length (arenaOf (leavesOf f)) D := by
  have hne : presentSymbols f ≠ [] := fun hnil => by simp [hnil] at h
  have hshape := buildTree_shape f hne
  have hlast := buildTree_root f hne
  have hlast' := hshape.root_last
  have hcount := buildTree_nodeCount f hne
  have hbound := (buildTree f).nodeCount.isLt
  constructor
  · intro k total hk
    obtain ⟨k', hk', hlen, _⟩ := arenaOf_forest f h
    have hroot : BitVec.ofNat 9 k.ix = (buildTree f).root := by
      rw [forest_root_unique hk hk', show k'.ix = (buildTree f).root.toNat by omega, BitVec.ofNat_toNat, BitVec.setWidth_eq]
    exact hD [] _ (by rw [hroot]; rfl)
  · intro j nd hj hnd
    have hjlt : j < (arenaOf (leavesOf f)).length := (List.getElem?_eq_some_iff.mp hnd).1
    have hj9 : (BitVec.ofNat 9 j).toNat = j := ofNat9_toNat (by omega)
    have hint : (buildTree f).internalAt (BitVec.ofNat 9 j) := by
      rw [Machine.Tree.internalAt, hj9, buildTree_leafCount]
      exact ⟨by simpa using hj, by omega⟩
    have hnode : nodeAt (buildTree f).node (BitVec.ofNat 9 j) = nd := by
      rw [buildTree_nodeAt f _ (by omega), hj9, hnd]
      rfl
    obtain ⟨_, _, _, hleft⟩ := hshape.internal_entry _ hint
    have hright := hshape.right_child _ hint
    rw [if_neg (by rw [buildTree_leafCount]; omega)] at hright
    have hne_nil : ∀ i : NodeIx, i.toNat < (BitVec.ofNat 9 j).toNat → i ≠ nil := fun i hi he => by
      have hnil : i.toNat = 511 := by rw [he]; rfl
      omega
    rw [← hnode]
    exact ⟨hshape.depth_child hD hint false (hne_nil _ hleft), hshape.depth_child hD hint true (hne_nil _ hright.1)⟩

/-! ## The merges -/

theorem Key.freq_le_of_lt {a b : Key} (h : a.lt b = true) : a.freq.toNat ≤ b.freq.toNat := by
  rcases (Key.lt_iff a b).mp h with hlt | ⟨heq, _⟩
  · exact hlt.le
  · exact heq ▸ le_rfl

/-- What the heap's nodes cost at given depths: the sum of FREQ times depth. -/
def heapCost (D : NodeIx → Nat) (heap : List Key) : Nat :=
  (heap.map fun k => k.freq.toNat * D (BitVec.ofNat 9 k.ix)).sum

@[simp] theorem heapCost_cons (D : NodeIx → Nat) (k : Key) (heap : List Key) :
    heapCost D (k :: heap) = k.freq.toNat * D (BitVec.ofNat 9 k.ix) + heapCost D heap := by
  simp [heapCost]

theorem ArenaDepths.heapCost_root {n total : Nat} {arena : List Node} {D : NodeIx → Nat} {k : Key}
    (hD : ArenaDepths n arena D) (hf : Forest n arena [k] total) : heapCost D [k] = 0 := by
  simp [heapCost, hD.root k total hf]

/-- Extracting the two least keys splits the heap (R91). -/
theorem extract_two {heap heap1 heap2 : List Key} {a b : Key} (hn : (heap.map Key.ix).Nodup)
    (ha : extractMin heap = some (a, heap1)) (hb : extractMin heap1 = some (b, heap2)) :
    heap.Perm (a :: b :: heap2) ∧ a.freq.toNat ≤ b.freq.toNat ∧ ∀ k ∈ heap2, b.freq.toNat ≤ k.freq.toNat := by
  have hpa := extractMin_perm ha
  have hpb := extractMin_perm hb
  have hn1 : (heap1.map Key.ix).Nodup := (List.nodup_cons.mp ((hpa.map Key.ix).nodup_iff.mp hn)).2
  exact ⟨hpa.trans (hpb.cons a), Key.freq_le_of_lt (extractMin_least hn ha b (hpb.mem_iff.mpr (by simp))),
    fun k hk => Key.freq_le_of_lt (extractMin_least hn1 hb k hk)⟩

/-- The depths the merges give the nodes that have no parent yet cost no more than any code lengths for their weights that
satisfy Kraft's inequality. -/
theorem mergeForest_heapCost_le {n total : Nat} (hn : n ≤ 256) (ht : total < 2 ^ 40) {final : List Node}
    {D : NodeIx → Nat} (hD : ArenaDepths n final D) (fuel : Nat) {arena : List Node} {heap : List Key}
    {code : Multiset (ℕ × ℕ)} (hfinal : mergeForest fuel arena heap = final) (hf : Forest n arena heap total)
    (hne : heap ≠ []) (hfuel : heap.length ≤ fuel + 1)
    (hw : code.map Prod.fst = ↑(heap.map fun k => k.freq.toNat)) (hk : kraft (code.map Prod.snd) ≤ 1) :
    heapCost D heap ≤ codeCost code := by
  induction fuel generalizing arena heap code with
  | zero =>
    obtain ⟨k, hk1⟩ := List.length_eq_one_iff.mp
      (Nat.le_antisymm hfuel (List.length_pos_iff.mpr hne))
    subst hfinal hk1
    exact (hD.heapCost_root hf).trans_le (Nat.zero_le _)
  | succ fuel ih =>
    rw [mergeForest] at hfinal
    split at hfinal
    next hnone => exact absurd (extractMin_eq_none.mp hnone) hne
    next a heap1 ha =>
      split at hfinal
      next hnone =>
        have hp := extractMin_perm ha
        rw [extractMin_eq_none.mp hnone] at hp
        rw [List.perm_singleton.mp hp] at hf ⊢
        subst hfinal
        exact (hD.heapCost_root hf).trans_le (Nat.zero_le _)
      next b heap2 hb =>
        obtain ⟨hperm, hab, hleast⟩ := extract_two hf.nodup ha hb
        have hlen := hperm.length_eq
        simp only [List.length_cons] at hlen
        -- the sum of the two is exact
        have hsum := hf.total_eq
        rw [(hperm.map _).sum_eq, List.map_cons, List.map_cons, List.sum_cons, List.sum_cons] at hsum
        have hexact : (a.freq + b.freq).toNat = a.freq.toNat + b.freq.toNat := by
          rw [BitVec.toNat_add, Nat.mod_eq_of_lt (by omega)]
        -- the code with the two joined covers the heap after the merge
        rw [Multiset.coe_eq_coe.mpr (hperm.map _), List.map_cons, List.map_cons, ← Multiset.cons_coe,
          ← Multiset.cons_coe] at hw
        obtain ⟨merged, hmw, hmk, hmcost⟩ := exists_merged_code hw hab (by simpa using hleast) hk
        have hrest := ih hfinal (hf.merge hn ht ha hb) (by simp) (by simp; omega)
          (by rw [hmw, List.map_cons, hexact, Multiset.cons_coe]) hmk
        -- the two stand one below the node over them
        have hnode : final[arena.length]? = some (mergedNode a b) := by
          rw [← hfinal, mergeForest_prefix _ _ _ _ (by simp)]
          simp
        obtain ⟨hdb, hda⟩ := hD.child arena.length _ hf.size hnode
        have hcost : heapCost D heap = heapCost D (a :: b :: heap2) := (hperm.map _).sum_eq
        rw [heapCost_cons, hexact] at hrest
        rw [hcost, heapCost_cons, heapCost_cons, show D (BitVec.ofNat 9 a.ix) = _ from hda,
          show D (BitVec.ofNat 9 b.ix) = _ from hdb]
        linarith

/-! ## The symbols -/

theorem presentSymbols_nodup (f : FreqTable) : (presentSymbols f).Nodup :=
  (presentSymbols_rise f).imp fun hlt he => by simp [he] at hlt

/-- For two symbols or more the arena is what the merges make of the leaves (R91). -/
theorem arenaOf_eq_mergeForest {f : FreqTable} (h : 2 ≤ (presentSymbols f).length) :
    arenaOf (leavesOf f) = mergeForest (leavesOf f).length (leavesOf f) (leafKeys (leavesOf f)) := by
  unfold arenaOf
  split
  next l hl =>
    have hlen := congrArg List.length hl
    simp only [List.length_map, List.length_singleton] at hlen
    omega
  next => rfl

/-- A leaf's FREQ is its symbol's count (R89). -/
@[simp] theorem leafNode_freq_toNat (f : FreqTable) (b : Byte) : (leafNode f b).freq.toNat = (symGet f b).toNat :=
  BitVec.toNat_setWidth_of_le (by decide)

/-- The leaves' cost at the depths of their nodes is the symbols' cost at their paths' lengths. -/
theorem heapCost_leafKeys {f : FreqTable} (hne : presentSymbols f ≠ []) {D : NodeIx → Nat} {d : Byte → Nat}
    (hD : ∀ bs i, (buildTree f).descend (buildTree f).root bs = some i → D i = bs.length)
    (hd : ∀ bs b, (buildTree f).pathTo bs b → d b = bs.length) :
    heapCost D (leafKeys (leavesOf f)) = ((presentSymbols f).map fun b => (symGet f b).toNat * d b).sum := by
  have hshape := buildTree_shape f hne
  have hcount := buildTree_leafCount f
  have hbound := presentSymbols_length f
  have hroot := hshape.root_internal.1
  have hdepth : ∀ i (hi : i < (presentSymbols f).length), D (BitVec.ofNat 9 i) = d (presentSymbols f)[i] := by
    intro i hi
    have hi9 : (BitVec.ofNat 9 i).toNat = i := ofNat9_toNat (by omega)
    obtain ⟨bs, hbs⟩ := hshape.path_exists (BitVec.ofNat 9 i) (by omega)
    have hleaf := buildTree_leaf f (BitVec.ofNat 9 i) (by omega)
    simp only [hi9] at hleaf
    rw [hD bs _ hbs, hd bs _ ⟨_, hbs, by rw [hleaf]; rfl, by rw [hleaf]; rfl⟩]
  refine congrArg List.sum (List.ext_getElem (by simp [leafKeys]) fun i h1 h2 => ?_)
  have hi : i < (presentSymbols f).length := by simpa using h2
  simp [leafKeys, hdepth i hi]

/-- The present symbols' code lengths, each with its symbol's count. -/
def symbolCode (f : FreqTable) (c : Byte → List Bool) : Multiset (ℕ × ℕ) :=
  ↑((presentSymbols f).map fun b => ((symGet f b).toNat, (c b).length))

theorem codeCost_symbolCode (f : FreqTable) (c : Byte → List Bool) :
    codeCost (symbolCode f c) = ((presentSymbols f).map fun b => (symGet f b).toNat * (c b).length).sum := by
  simp [codeCost, symbolCode, Function.comp_def]

theorem symbolCode_weights (f : FreqTable) (c : Byte → List Bool) :
    (symbolCode f c).map Prod.fst = ↑((leafKeys (leavesOf f)).map fun k => k.freq.toNat) := by
  rw [symbolCode, Multiset.map_coe, List.map_map]
  exact congrArg _ (List.ext_getElem (by simp [leafKeys]) fun i h1 h2 => by simp [leafKeys])

theorem symbolCode_kraft {f : FreqTable} {c : Byte → List Bool} (hne : ∀ b, symGet f b ≠ 0 → c b ≠ [])
    (h : ∀ a b, a ≠ b → symGet f a ≠ 0 → symGet f b ≠ 0 → ¬ c a <+: c b) :
    kraft ((symbolCode f c).map Prod.snd) ≤ 1 := by
  rw [symbolCode, Multiset.map_coe, List.map_map]
  exact kraft_le_one (presentSymbols_nodup f) (fun a ha => hne a (mem_presentSymbols.mp ha))
    fun a ha b hb hab => h a b hab (mem_presentSymbols.mp ha) (mem_presentSymbols.mp hb)

/-! ## Optimality -/

section

variable {f : FreqTable} {d : Byte → Nat} {c : Byte → List Bool}
  (hd : ∀ bs b, (buildTree f).pathTo bs b → d b = bs.length) (hne : ∀ b, symGet f b ≠ 0 → c b ≠ [])

include hd hne

/-- For two symbols or more the merges begin with the leaves' keys, which have the symbols' counts. -/
theorem buildTree_cost_le (h2 : 2 ≤ (presentSymbols f).length)
    (h : ∀ a b, a ≠ b → symGet f a ≠ 0 → symGet f b ≠ 0 → ¬ c a <+: c b) :
    ((presentSymbols f).map fun b => (symGet f b).toNat * d b).sum ≤
      ((presentSymbols f).map fun b => (symGet f b).toNat * (c b).length).sum := by
  have hsome : presentSymbols f ≠ [] := fun hnil => by simp [hnil] at h2
  obtain ⟨D, hD⟩ := (buildTree_shape f hsome).exists_depth
  have hkeys : (leafKeys (leavesOf f)).length = (presentSymbols f).length := by simp [leafKeys]
  rw [← heapCost_leafKeys hsome hD hd, ← codeCost_symbolCode]
  exact mergeForest_heapCost_le (by simpa using presentSymbols_length f) (sum_freq_lt f) (buildTree_depths h2 hD)
    (leavesOf f).length (arenaOf_eq_mergeForest h2).symm (leafForest (leavesOf_total f))
    (List.length_pos_iff.mp (by omega)) (by simp [hkeys]) (symbolCode_weights f c) (symbolCode_kraft hne h)

/-- The lone leaf has depth 1 (R94), and its code string is not empty. -/
theorem buildTree_cost_le_one (h1 : (presentSymbols f).length = 1) :
    ((presentSymbols f).map fun b => (symGet f b).toNat * d b).sum ≤
      ((presentSymbols f).map fun b => (symGet f b).toNat * (c b).length).sum := by
  have hsome : presentSymbols f ≠ [] := fun hnil => by simp [hnil] at h1
  have hshape := buildTree_shape f hsome
  refine List.sum_le_sum fun b hb => Nat.mul_le_mul_left _ ?_
  have hfreq : symGet f b ≠ 0 := mem_presentSymbols.mp hb
  have hpos : 0 < (c b).length := List.length_pos_iff.mpr (hne b hfreq)
  obtain ⟨bs, hbs⟩ := (hshape.pathTo_iff b).mpr (by rw [leafset_bit]; simpa using hfreq)
  have hlen : bs.length ≤ 1 := by
    obtain ⟨i, hi, _⟩ := hbs
    have hcount := buildTree_leafCount f
    have hnodes := hshape.nodeCount_eq
    rw [if_pos (by omega)] at hnodes
    have hlast := hshape.root_last
    rcases hshape.descend_length le_rfl hi with hle | rfl
    · omega
    · exact Nat.zero_le 1
  rw [hd bs b hbs]
  omega

end

/-- Settles O32: the sums over all symbols are those over the present ones, of which there are one, or two or more. -/
theorem buildIsOptimal : Obligations.BuildIsOptimal := by
  intro s t p d c hp he hok hd hne hc
  obtain ⟨hsome, htree⟩ := build_success hp he hok
  rw [htree] at hd
  rw [← sum_presentSymbols s.freq d, ← sum_presentSymbols s.freq fun b => (c b).length]
  rcases Nat.lt_or_ge (presentSymbols s.freq).length 2 with h1 | h2
  · have hpos := List.length_pos_iff.mpr hsome
    exact buildTree_cost_le_one hd hne (by omega)
  · exact buildTree_cost_le hd hne h2 hc

end Sys2Proof
end

section
/-! PROOFS. GENCODE's code table: it holds the tree's path codes and is the one the rule's stack writes (O33, O36), and the
code of a lone leaf (O34). -/

namespace Sys2Proof

open Machine

/-! ## The command -/

/-- With a tree whose traversal ends, GENCODE completes with the table of the entries collected (R102). -/
theorem exec_gencode_of_leafCodes {s : State} {p : Pend} {xs : List (Byte × Code)} (hp : s.pend = some p)
    (hv : s.tree.valid = true) (hx : leafCodes s.tree.node 512 s.tree.root 0 0 = some xs) :
    exec .gencode s = .next (completed { s with codes := ⟨true, maxCodeLen (codeTableOf xs), codeTableOf xs⟩ }) := by
  have hdone : executeOf .gencode s p =
      .done { s with codes := ⟨true, maxCodeLen (codeTableOf xs), codeTableOf xs⟩ } := by
    rw [executeOf, gencodeCommand, if_pos hv, hx]
  exact exec_of_done hp hdone

/-- Settles O33: on a tree of BUILD's shape the traversal ends, and its entries are the leaves' paths. -/
theorem gencodeWritesThePathCodes : Obligations.GencodeWritesThePathCodes := by
  intro s p hp hv hshape
  obtain ⟨xs, hx⟩ := hshape.leafCodes_isSome 512 s.tree.root 0 0 le_rfl s.tree.root.isLt
  exact ⟨_, exec_gencode_of_leafCodes hp hv hx, rfl, hshape.pathCodes hx⟩

/-- A GENCODE that succeeds has written the table of the entries its traversal collected (R102). -/
theorem gencode_success {s t : State} {p : Pend} (hp : s.pend = some p) (h : exec .gencode s = .next t)
    (hok : t.err.code = .ok) :
    ∃ xs, leafCodes s.tree.node 512 s.tree.root 0 0 = some xs ∧ t.codes.entry = codeTableOf xs := by
  rcases exec_completion hp h with ⟨e, hne, rfl⟩ | ⟨u, hu, rfl⟩
  · exact absurd hok hne
  · cases hu with
    | codes xs _ _ hx => exact ⟨xs, hx, rfl⟩
    | nothing hi => cases hi
    | freq f hi => simp at hi
    | tree hi => cases hi
    | output bytes bits hi => cases hi

/-- Settles O36: the pops of ROOT's subtree set exactly the entries collected, and then the stack is empty. -/
theorem gencodeIsTheStackTraversal : Obligations.GencodeIsTheStackTraversal := by
  intro s t p hp h hok
  obtain ⟨xs, hx, hentry⟩ := gencode_success hp h hok
  obtain ⟨k, hk⟩ := stackTraverse_subtree hx
  refine ⟨k + 0, ?_⟩
  rw [hk, stackTraverse, hentry]
  rfl

/-! ## One leaf -/

section

variable {t : Tree} (h : TreeShape t) (hone : t.leafCount.toNat = 1)

include h hone

/-- The lone leaf stands left of ROOT, and there is nothing right of it (R94, R101). -/
theorem TreeShape.lone_path {bs : List Bool} {b : Byte} (hp : t.pathTo bs b) : bs = [false] := by
  have hright : (nodeAt t.node t.root).right = nil := by simpa [hone] using h.right_child t.root h.root_internal
  have hnodes := h.nodeCount_eq
  rw [if_pos hone] at hnodes
  have hlast := h.root_last
  obtain ⟨hpos, _⟩ := h.pathTo_length hp
  obtain ⟨n, hd, _⟩ := hp
  have hlen : bs.length = 1 := by
    rcases h.descend_length le_rfl hd with hle | rfl
    · omega
    · cases hpos
  obtain ⟨d, rfl⟩ := List.length_eq_one_iff.mp hlen
  cases d with
  | false => rfl
  | true =>
    obtain ⟨m, hm, _, hchild, hne⟩ := descend_snoc.mp (show t.descend t.root ([] ++ [true]) = some n from hd)
    cases hm
    exact absurd (hchild.symm.trans hright) hne

/-- One leaf, one symbol (R89). -/
theorem TreeShape.lone_symbol {b c : Byte} (hb : t.leafset.getLsbD b.toNat = true)
    (hc : t.leafset.getLsbD c.toNat = true) : c = b := by
  obtain ⟨i, hi, rfl⟩ := (h.leafset_iff b).mp hb
  obtain ⟨j, hj, rfl⟩ := (h.leafset_iff c).mp hc
  rw [BitVec.eq_of_toNat_eq (show i.toNat = j.toNat by omega)]

/-- The path codes of a tree with one leaf: "0" for its symbol, and no other (R101). -/
theorem TreeShape.lone_code {c : Codes} (hc : PathCodes t c) {b : Byte} (hb : t.leafset.getLsbD b.toNat = true) :
    symGet c.entry b = ⟨1, 0⟩ ∧ ∀ a : Byte, a ≠ b → symGet c.entry a = ⟨0, 0⟩ := by
  obtain ⟨bs, hbs⟩ := (h.pathTo_iff b).mpr hb
  obtain ⟨_, _, hcode⟩ := hc.leaf_code bs b hbs
  rw [h.lone_path hone hbs] at hcode
  exact ⟨hcode, fun a ha => hc.no_code a
    (Bool.eq_false_iff.mpr fun hmem => ha (h.lone_symbol hone hb hmem))⟩

end

/-- Settles O34: the table has one code that is not empty, so its length is the longest. -/
theorem gencodeOneSymbol : Obligations.GencodeOneSymbol := by
  intro s t p b hp hv hshape hone hb hexec
  obtain ⟨c, hnext, _, hc⟩ := gencodeWritesThePathCodes s p hp hv hshape
  obtain rfl : completed { s with codes := c } = t := by
    rw [hnext] at hexec
    injection hexec
  obtain ⟨hcode, hother⟩ := hshape.lone_code (by rw [hone]; rfl) hc hb
  obtain ⟨hmax, a, ha⟩ := hc.longest
  refine ⟨hcode, ?_, hother⟩
  show c.maxLen = 1
  rw [← ha]
  by_cases hab : a = b
  · rw [hab, hcode]
  · have hpos := hmax b
    rw [hcode, ← ha, hother a hab] at hpos
    cases hpos

end Sys2Proof
end

section
/-! PROOFS. The path codes as a code: none begins another (O38), and the Kraft sum is exact (O39). -/

namespace Sys2Proof

open Machine

variable {t : Tree}

/-! ## No path begins another -/

/-- A path ends at the first Leaf it reaches (R112). -/
theorem descend_of_leaf {n m : NodeIx} {bs : List Bool} (hk : (nodeAt t.node n).kind = .leaf)
    (hd : t.descend n bs = some m) : bs = [] ∧ n = m := by
  cases bs with
  | nil => cases hd; exact ⟨rfl, rfl⟩
  | cons b bs => simp [Machine.Tree.descend, hk] at hd

theorem pathTo_prefix {bs cs : List Bool} {b c : Byte} (hb : t.pathTo bs b) (hc : t.pathTo cs c) (hp : bs <+: cs) :
    b = c := by
  obtain ⟨n, hn, hnk, rfl⟩ := hb
  obtain ⟨m, hm, _, rfl⟩ := hc
  obtain ⟨ds, rfl⟩ := hp
  rw [descend_append, hn] at hm
  rw [(descend_of_leaf hnk hm).2]

/-! ## The strings of the code table -/

/-- With CODE_VALID the machine has a tree of BUILD's shape, and the table holds its path codes. -/
theorem Inv.pathCodes {s : State} (h : Inv s) (hv : s.codes.valid = true) :
    TreeShape s.tree ∧ PathCodes s.tree s.codes := by
  rcases h.codes with ⟨hn, _⟩ | ⟨_, htree, hcodes⟩
  · simp [hv] at hn
  · exact ⟨h.tree.shape htree, hcodes⟩

section

variable (h : TreeShape t) {c : Codes} (hc : PathCodes t c)

include h hc

/-- The code string of a symbol of the tree is its path (R100, R105). -/
theorem TreeShape.pathTo_string {b : Byte} (hb : t.leafset.getLsbD b.toNat = true) :
    t.pathTo (symGet c.entry b).string b := by
  obtain ⟨bs, hbs⟩ := (h.pathTo_iff b).mpr hb
  rw [hc.string_eq hbs]
  exact hbs

theorem TreeShape.len_ne_zero_iff (b : Byte) :
    (symGet c.entry b).len ≠ 0 ↔ t.leafset.getLsbD b.toNat = true := by
  constructor
  · intro hlen
    by_contra hb
    exact hlen (by rw [hc.no_code b (Bool.eq_false_iff.mpr hb)]; rfl)
  · intro hb hlen
    have hpos := (h.pathTo_length (h.pathTo_string hc hb)).1
    rw [Code.string_length, hlen] at hpos
    cases hpos

end

/-- Settles O38: a code is a path, and a path that begins another is that path. -/
theorem codesArePrefixFree : Obligations.CodesArePrefixFree := by
  intro s hi hv
  obtain ⟨hshape, hcodes⟩ := hi.pathCodes hv
  exact ⟨hshape.len_ne_zero_iff hcodes, fun b c hbc hb hc hp =>
    hbc (pathTo_prefix (hshape.pathTo_string hcodes hb) (hshape.pathTo_string hcodes hc) hp)⟩

/-! ## The Kraft sum under a node -/

/-- The codes that begin with the bits `p` share of the Kraft sum, over 2^255 (R103). -/
def kraftUnder (t : Tree) (c : Codes) (p : List Bool) : ℕ :=
  ∑ b : Byte with t.leafset.getLsbD b.toNat = true,
    if p <+: (symGet c.entry b).string then 2 ^ (255 - (symGet c.entry b).len.toNat) else 0

/-- A string that begins with `p` and is longer goes on with one bit or the other, not with both. -/
theorem ite_prefix_snoc {p bits : List Bool} (hne : bits ≠ p) (w : ℕ) :
    (if p <+: bits then w else 0) = (if p ++ [false] <+: bits then w else 0) + (if p ++ [true] <+: bits then w else 0) := by
  by_cases hp : p <+: bits
  · obtain ⟨r, rfl⟩ := hp
    cases r with
    | nil => simp at hne
    | cons d r => cases d <;> simp [List.prefix_append_right_inj]
  · have hnot : ∀ d, ¬ p ++ [d] <+: bits := fun d hd => hp ((List.prefix_append p [d]).trans hd)
    simp [hp, hnot]

/-- A node of the tree that is no Leaf is one of its Internal entries (R89). -/
theorem TreeShape.internalAt_of_kind (h : TreeShape t) {n : NodeIx} (hn : n.toNat ≤ t.root.toNat)
    (hk : (nodeAt t.node n).kind = .internal) : t.internalAt n := by
  refine h.internal_of_le (Nat.le_of_not_lt fun hlt => ?_) hn
  rw [(h.leaf_iff hn).mpr hlt] at hk
  cases hk

/-- With two leaves or more an Internal entry has both children (R91). -/
theorem TreeShape.child_ne_nil (h : TreeShape t) (hmany : t.leafCount.toNat ≠ 1) {n : NodeIx} (hn : t.internalAt n)
    (d : Bool) : (nodeAt t.node n).child d ≠ nil := by
  have hlt := n.isLt
  have hne : ∀ i : NodeIx, i.toNat < n.toNat → i ≠ nil := by
    rintro _ hi rfl
    have hnil : nil.toNat = 511 := rfl
    omega
  have hright := h.right_child n hn
  rw [if_neg hmany] at hright
  obtain ⟨_, _, _, hleft⟩ := h.internal_entry n hn
  cases d with
  | false => exact hne _ hleft
  | true => exact hne _ hright.1

/-- No path of the tree is longer than 255 (R98). -/
theorem TreeShape.path_length_le (h : TreeShape t) {p : List Bool} {n : NodeIx} (hd : t.descend t.root p = some n) :
    p.length ≤ 255 := by
  have hcount := h.leafCount_range
  have hnodes := h.nodeCount_eq
  have hlast := h.root_last
  rcases h.descend_length le_rfl hd with hle | rfl
  · split at hnodes <;> omega
  · simp

section

variable (h : TreeShape t) {c : Codes} (hc : PathCodes t c)

include h hc

/-- Under a Leaf there is its own code alone. -/
theorem TreeShape.kraftUnder_leaf {p : List Bool} {b : Byte} (hp : t.pathTo p b) :
    kraftUnder t c p = 2 ^ (255 - p.length) := by
  have hb := (h.pathTo_iff b).mp ⟨p, hp⟩
  have hs := hc.string_eq hp
  rw [kraftUnder, Finset.sum_eq_single_of_mem b (by simpa using hb)]
  · rw [hs, if_pos List.prefix_rfl, ← Code.string_length, hs]
  · intro a ha hab
    refine if_neg fun hpre => hab ?_
    exact (pathTo_prefix hp (h.pathTo_string hc (by simpa using ha)) hpre).symm

/-- The codes under an Internal node go on to its left or to its right. -/
theorem TreeShape.kraftUnder_split {p : List Bool} {n : NodeIx} (hp : t.pathInside p n) :
    kraftUnder t c p = kraftUnder t c (p ++ [false]) + kraftUnder t c (p ++ [true]) := by
  obtain ⟨hd, hk⟩ := hp
  rw [kraftUnder, kraftUnder, kraftUnder, ← Finset.sum_add_distrib]
  refine Finset.sum_congr rfl fun b hb => ?_
  have hne : (symGet c.entry b).string ≠ p := fun he => by
    obtain ⟨m, hm, hmk, _⟩ := h.pathTo_string hc (b := b) (by simpa using hb)
    rw [he, hd] at hm
    cases hm
    rw [hk] at hmk
    cases hmk
  exact ite_prefix_snoc hne _

/-- With two leaves or more, the codes under a node share as much as a code that ends there would have. -/
theorem TreeShape.kraftUnder_eq (hmany : t.leafCount.toNat ≠ 1) {p : List Bool} {n : NodeIx}
    (hd : t.descend t.root p = some n) : kraftUnder t c p = 2 ^ (255 - p.length) := by
  induction hk : n.toNat using Nat.strong_induction_on generalizing n p with
  | _ k ih =>
    subst hk
    cases hkind : (nodeAt t.node n).kind with
    | leaf => exact h.kraftUnder_leaf hc ⟨n, hd, hkind, rfl⟩
    | internal =>
      have hn := h.internalAt_of_kind (h.descend_le le_rfl hd).1 hkind
      have hnil := h.child_ne_nil hmany hn
      have hchild : ∀ d, t.descend t.root (p ++ [d]) = some ((nodeAt t.node n).child d) := fun d =>
        descend_snoc.mpr ⟨n, hd, hkind, rfl, hnil d⟩
      have hsub : ∀ d, kraftUnder t c (p ++ [d]) = 2 ^ (255 - (p.length + 1)) := fun d => by
        rw [ih _ (h.child_lt hn d (hnil d)) (hchild d) rfl, List.length_append]
        rfl
      have hlen := h.path_length_le (hchild false)
      rw [List.length_append, List.length_singleton] at hlen
      rw [h.kraftUnder_split hc ⟨hd, hkind⟩, hsub, hsub, ← Nat.two_mul, ← Nat.pow_succ',
        show (255 - (p.length + 1)).succ = 255 - p.length by omega]

/-- The Kraft sum, over 2^255, for one leaf and for more (R103). -/
theorem TreeShape.kraftUnder_root :
    kraftUnder t c [] = if t.leafCount.toNat = 1 then 2 ^ 254 else 2 ^ 255 := by
  split
  next hone =>
    obtain ⟨b, hb⟩ : ∃ b : Byte, t.leafset.getLsbD b.toNat = true :=
      ⟨_, (h.leafset_iff _).mpr ⟨0, by simp [hone], rfl⟩⟩
    have hpath : ∀ a : Byte, t.leafset.getLsbD a.toNat = true → (symGet c.entry a).string = [false] :=
      fun a ha => h.lone_path hone (h.pathTo_string hc ha)
    calc kraftUnder t c [] = kraftUnder t c [false] := Finset.sum_congr rfl fun a ha => by
          rw [hpath a (by simpa using ha), if_pos List.nil_prefix, if_pos List.prefix_rfl]
      _ = 2 ^ 254 := h.kraftUnder_leaf hc (hpath b hb ▸ h.pathTo_string hc hb)
  next hmany => exact h.kraftUnder_eq hc hmany rfl

end

/-- A sum over the symbols in a set, by their numbers and by the symbols. -/
theorem sum_filter_range_symbols (q : Nat → Bool) (g : Byte → ℕ) :
    (((List.range 256).filter q).map fun k => g (BitVec.ofNat 8 k)).sum = ∑ b : Byte with q b.toNat = true, g b := by
  rw [← List.sum_toFinset _ (List.nodup_range.filter _)]
  refine Finset.sum_nbij' (BitVec.ofNat 8) BitVec.toNat ?_ ?_ ?_ ?_ fun _ _ => rfl
  · intro k hk
    obtain ⟨hlt, hq⟩ : k < 256 ∧ q k = true := by simpa using hk
    simpa [Nat.mod_eq_of_lt hlt] using hq
  · intro b hb
    simpa [b.isLt] using hb
  · intro k hk
    obtain ⟨hlt, _⟩ : k < 256 ∧ q k = true := by simpa using hk
    rw [BitVec.toNat_ofNat, Nat.mod_eq_of_lt hlt]
  · intro b _
    simp

/-- Settles O39: the sum over the tree's symbols is the sum under ROOT, whose path is empty. -/
theorem kraftSumIsExact : Obligations.KraftSumIsExact := by
  intro s hi hv
  obtain ⟨hshape, hcodes⟩ := hi.pathCodes hv
  rw [sum_filter_range_symbols s.tree.leafset.getLsbD fun b => 2 ^ (255 - (symGet s.codes.entry b).len.toNat),
    ← hshape.kraftUnder_root hcodes, kraftUnder]
  exact Finset.sum_congr rfl fun b _ => (if_pos List.nil_prefix).symm

end Sys2Proof
end

section
/-! PROOFS. ENCODE: the checks it passes and what it then writes (O40, O41, O42), and DECODE of the packed bytes (O48). -/

namespace Sys2Proof

open Machine

/-! ## ENCODE, said once -/

/-- The logical bit sequence of the input (R105). -/
abbrev encodedBits (s : State) (o : Operands) : List Bool :=
  (inputOf s o).flatMap fun b => (symGet s.codes.entry b).string

/-- ENCODE's checks before that of the output range all pass (R107). -/
structure EncodeReady (s : State) (o : Operands) : Prop where
  codes_valid : s.codes.valid = true
  range : o.src.toNat + o.len.toNat ≤ s.mem.size
  nonempty : o.len ≠ 0
  coded : ∀ b ∈ inputOf s o, (symGet s.codes.entry b).len ≠ 0

/-- The state that holds ENCODE's writes: the packed bytes at DST, and their number and that of the bits (R107). -/
def encodeWrites (s : State) (o : Operands) : State :=
  { s with
    mem := s.mem.writeBytes o.dst.toNat (pack (encodedBits s o))
    out := ⟨BitVec.ofNat 32 (ceil8 (encodedBits s o).length), BitVec.ofNat 32 (encodedBits s o).length⟩ }

section

variable {s : State} {p : Pend}

theorem encodeCommand_range_error (hv : s.codes.valid = true) (h : s.mem.size < p.ops.src.toNat + p.ops.len.toNat) :
    encodeCommand s p = .fail ⟨.addressRange, 0⟩ := by
  rw [encodeCommand, if_pos hv, if_neg (by simpa [Memory.rangeOk] using h)]

theorem encodeCommand_empty (hv : s.codes.valid = true) (hr : p.ops.src.toNat + p.ops.len.toNat ≤ s.mem.size)
    (h : p.ops.len = 0) : encodeCommand s p = .fail ⟨.emptyInput, 0⟩ := by
  rw [encodeCommand, if_pos hv, if_pos (rangeOk_of_le hr), if_pos (show p.ops.len = 0#32 from h)]

theorem encodeCommand_of_error {k : Nat} (hv : s.codes.valid = true)
    (hr : p.ops.src.toNat + p.ops.len.toNat ≤ s.mem.size) (hl : p.ops.len ≠ 0)
    (h : encodeBits s.codes.entry 0 (inputOf s p.ops) = .error k) :
    encodeCommand s p = .fail ⟨.encodingConsistency, infoOf k⟩ := by
  rw [encodeCommand, if_pos hv, if_pos (rangeOk_of_le hr), if_neg (show ¬ p.ops.len = 0#32 from hl),
    inputBytes_eq_inputOf, h]

/-- An ENCODE whose other checks pass writes the packed bytes if they have room (R107). -/
theorem encodeCommand_of_ready (h : EncodeReady s p.ops) : encodeCommand s p =
    if s.mem.rangeOk p.ops.dst.toNat (ceil8 (encodedBits s p.ops).length) then .done (encodeWrites s p.ops)
    else .fail ⟨.addressRange, 1⟩ := by
  rw [encodeCommand, if_pos h.codes_valid, if_pos (rangeOk_of_le h.range),
    if_neg (show ¬ p.ops.len = 0#32 from h.nonempty), inputBytes_eq_inputOf, encodeBits_ok 0 h.coded]
  rfl

/-- A command that reports OK has done its writes (R77). -/
theorem exec_success {i : Instr} {t : State} (hp : s.pend = some p) (h : exec i s = .next t) (hok : t.err.code = .ok) :
    ∃ u, executeOf i s p = .done u ∧ t = u.succeed := by
  rw [exec_eq_runPending, State.runPending_some hp] at h
  cases hr : executeOf i s p with
  | done u => rw [hr] at h; cases h; exact ⟨u, rfl, rfl⟩
  | fail e => rw [hr] at h; cases h; exact absurd hok (executeOf_fail_ne_ok hr)
  | hang => rw [hr] at h; cases h

/-- An ENCODE that succeeds has passed its checks and written the packed bytes (R107). -/
theorem encode_success {t : State} (hp : s.pend = some p) (h : exec .encode s = .next t) (hok : t.err.code = .ok) :
    EncodeReady s p.ops ∧ t = (encodeWrites s p.ops).succeed := by
  obtain ⟨u, hu, rfl⟩ := exec_success hp h hok
  obtain ⟨hv, hr, hl, bits, hbits, _, rfl⟩ := encodeCommand_done hu
  obtain ⟨hall, rfl⟩ := encodeBits_ok_iff.mp hbits
  exact ⟨⟨hv, of_decide_eq_true hr, hl, hall⟩, rfl⟩

end

section

variable {s : State} {o : Operands} (hs : Config.dmemSizeOk s.mem.size = true)
  (hr : o.src.toNat + o.len.toNat ≤ s.mem.size)

include hs hr

/-- An input lies in DMEM, so that it has at most 255 · 2^20 code bits, a number that a word holds (R110). -/
theorem encodedBits_length_le : (encodedBits s o).length ≤ 255 * 2 ^ 20 := by
  simp only [Config.dmemSizeOk, Bool.and_eq_true, decide_eq_true_eq] at hs
  obtain ⟨⟨_, hsize⟩, _⟩ := hs
  have hbits : (encodedBits s o).length ≤ 255 * (inputOf s o).length := string_flatMap_le _ _
  rw [inputOf_length] at hbits
  omega

theorem encodeWrites_out_bits : (encodeWrites s o).out.bits.toNat = (encodedBits s o).length := by
  have hle := encodedBits_length_le hs hr
  exact Nat.mod_eq_of_lt (by omega)

theorem encodeWrites_out_len : (encodeWrites s o).out.len.toNat = ceil8 (encodedBits s o).length := by
  have hle := encodedBits_length_le hs hr
  exact Nat.mod_eq_of_lt (by rw [ceil8]; omega)

end

/-- Settles O40: the checks pass, and the bytes stored are the packed bits. -/
theorem encodePacksTheCodes : Obligations.EncodePacksTheCodes := by
  intro s p hp hs hw hv hr hl hall bits hd
  have hready : EncodeReady s p.ops := ⟨hv, hr, hl, hall⟩
  have hfit : p.ops.dst.toNat + ceil8 (encodedBits s p.ops).length ≤ s.mem.size := hd
  have hdone : executeOf .encode s p = .done (encodeWrites s p.ops) := by
    rw [executeOf, encodeCommand_of_ready hready, if_pos (rangeOk_of_le hfit)]
  refine ⟨_, _, pack bits, exec_of_done hp hdone, writeBytes_stored (Memory.wf_rising hw) _ _, pack_length _,
    fun k b j hk hj => pack_bit bits hk hj, encodeWrites_out_bits hs hr, ?_⟩
  rw [pack_length]
  exact encodeWrites_out_len hs hr

/-- Settles O41: each check is made when the ones before it have passed. -/
theorem encodeErrorsInOrder : Obligations.EncodeErrorsInOrder := by
  intro s p hp
  refine ⟨exec_encode_noCode hp, fun hv h => exec_of_fail hp (encodeCommand_range_error hv h),
    fun hv hr h => exec_of_fail hp (encodeCommand_empty hv hr h), fun k b hv hr hk hb hj => ?_,
    fun hv hr hl hall hd => ?_⟩
  · have hl : p.ops.len ≠ 0 := fun h0 => by simp [inputOf, h0] at hk
    have hfail := encodeCommand_of_error hv hr hl (encodeBits_error 0 hk hb hj)
    rw [Nat.zero_add] at hfail
    exact exec_of_fail hp hfail
  · have hfail := encodeCommand_of_ready ⟨hv, hr, hl, hall⟩
    rw [if_neg (by simpa [Memory.rangeOk, ceil8, string_flatMap_length] using hd)] at hfail
    exact exec_of_fail hp hfail

/-! ## The cost -/

/-- A sum over the input's bytes, by symbol: each counts as often as it occurs (R110). -/
theorem sum_map_eq_sum_count (bs : List Byte) (g : Byte → Nat) : (bs.map g).sum =
    ((List.range 256).map fun k => bs.count (BitVec.ofNat 8 k) * g (BitVec.ofNat 8 k)).sum :=
  calc (bs.map g).sum = ∑ b ∈ bs.toFinset, bs.count b * g b := Finset.sum_list_map_count bs g
    _ = ∑ b : Byte, bs.count b * g b := Finset.sum_subset (Finset.subset_univ _) fun b _ hb => by
      rw [List.count_eq_zero.mpr (by simpa using hb), Nat.zero_mul]
    _ = _ := by simpa using (sum_filter_range_symbols (fun _ => true) fun b => bs.count b * g b).symm

/-- Settles O42: OUT_BITS is the sum of the input bytes' code lengths, taken by symbol. -/
theorem encodedBitCountIsTheCost : Obligations.EncodedBitCountIsTheCost := by
  intro s t p hp hs h hok hfreq
  obtain ⟨hready, rfl⟩ := encode_success hp h hok
  simp only [hfreq]
  rw [← sum_map_eq_sum_count (inputOf s p.ops) fun b => (symGet s.codes.entry b).len.toNat, ← string_flatMap_length]
  exact encodeWrites_out_bits hs hready.range

/-! ## DECODE of the packed bytes -/

/-- DECODE of whole codes that have room writes their symbols (R112, R116). -/
theorem exec_decode_whole {i : Instr} {s : State} {p : Pend} {ps : List (List Bool × Byte)} (hp : s.pend = some p)
    (h : DecodeReady i s p.ops) (hw : WholeCodes s.tree ps) (hb : streamOf s p.ops = ps.flatMap Prod.fst)
    (hf : OutputFits s p.ops ps) :
    exec i s = .next (completed { s with
      mem := s.mem.writeBytes p.ops.dst.toNat (ps.map Prod.snd)
      out := ⟨BitVec.ofNat 32 ps.length, p.ops.bits⟩ }) := by
  have hwalk : walk s.tree s.mem.size p.ops.dst.toNat (streamOf s p.ops) 0 0 s.tree.root 0 = .ok (ps.map Prod.snd) := by
    rw [hb]
    simpa [walk_end] using walk_whole (dst := p.ops.dst.toNat) (bs := []) (i := 0) (n := 0) hw hf
  rw [exec_decode_ready h hp, hwalk, ← List.length_map Prod.snd]
  rfl

/-- The input's bytes, each with its code string. -/
def inputCodes (s : State) (o : Operands) : List (List Bool × Byte) :=
  (inputOf s o).map fun b => ((symGet s.codes.entry b).string, b)

@[simp] theorem inputCodes_symbols (s : State) (o : Operands) : (inputCodes s o).map Prod.snd = inputOf s o := by
  simp [inputCodes, Function.comp_def]

@[simp] theorem inputCodes_bits (s : State) (o : Operands) : (inputCodes s o).flatMap Prod.fst = encodedBits s o := by
  simp [inputCodes, List.flatMap_map]

@[simp] theorem inputCodes_length (s : State) (o : Operands) : (inputCodes s o).length = o.len.toNat := by
  simp [inputCodes]

/-- In an invariant state the codes of an input that ENCODE accepts are paths of the tree (R100, R103). -/
theorem Inv.inputCodes_whole {s : State} {o : Operands} (h : Inv s) (hready : EncodeReady s o) :
    WholeCodes s.tree (inputCodes s o) := by
  obtain ⟨hshape, hcodes⟩ := h.pathCodes hready.codes_valid
  intro x hx
  obtain ⟨b, hb, rfl⟩ := List.mem_map.mp hx
  have hpath := hshape.pathTo_string hcodes ((hshape.len_ne_zero_iff hcodes b).mp (hready.coded b hb))
  exact ⟨List.length_pos_iff.mp (hshape.pathTo_length hpath).1, hpath⟩

/-- With CODE_VALID the machine has a tree (R26, R41). -/
theorem Inv.tree_valid {s : State} (h : Inv s) (hv : s.codes.valid = true) : s.tree.valid = true := by
  rcases h.codes with ⟨hn, _⟩ | ⟨_, htree, _⟩
  · simp [hv] at hn
  · exact htree

/-- A DECODE that finds packed bits at SRC takes exactly these bits (R106, R112). -/
theorem streamOf_of_packed {s : State} {o : Operands} {bits : List Bool} (hb : o.bits.toNat = bits.length)
    (h : ∀ k (hk : k < (pack bits).length), s.mem.read (o.src.toNat + k) = (pack bits)[k]) : streamOf s o = bits := by
  refine List.ext_getElem (by rw [streamOf_length, hb]) fun i _ hi => ?_
  have hk : i / 8 < (pack bits).length := by
    rw [pack_length, ceil8]
    omega
  rw [← pack_unpack bits i hi, List.getD_eq_getElem _ _ hk, ← h _ hk]
  simp [streamOf]

/-- Settles O48: the packed bits are the input's codes, which are paths of the tree, and DECODE writes their symbols. -/
theorem decodeUndoesEncode : Obligations.DecodeUndoesEncode := by
  intro s t d p q hi hp h hok hq hw hsize htree hlen hbits hsrc hread hdst
  obtain ⟨hready, rfl⟩ := encode_success hp h hok
  have hs := hi.memory.1
  have hT : q.ops.bits.toNat = (encodedBits s p.ops).length := by
    rw [hbits]
    exact encodeWrites_out_bits hs hready.range
  have hL : q.ops.len.toNat = ceil8 (encodedBits s p.ops).length := by
    rw [hlen]
    exact encodeWrites_out_len hs hready.range
  have hstream : streamOf d q.ops = encodedBits s p.ops := streamOf_of_packed hT fun k hk => by
    rw [hread k (by rw [← hlen, hL, ← pack_length]; exact hk)]
    exact Memory.read_writeBytes_inside (Memory.wf_rising hi.memory.2) _ _ k hk
  have hdecode : DecodeReady .decode d q.ops :=
    ⟨.inl rfl, htree ▸ hi.tree_valid hready.codes_valid, by rw [hL, hT, ceil8], by rw [hsize, hlen]; exact hsrc⟩
  have hnext := exec_decode_whole hq hdecode (htree ▸ hi.inputCodes_whole hready)
    (by rw [hstream, inputCodes_bits]) (.inr (by rwa [hsize, inputCodes_length]))
  refine ⟨_, hnext, rfl, ?_, fun k hk => ?_⟩
  · show BitVec.ofNat 32 (inputCodes s p.ops).length = p.ops.len
    rw [inputCodes_length, BitVec.ofNat_toNat, BitVec.setWidth_eq]
  · show (d.mem.writeBytes _ ((inputCodes s p.ops).map Prod.snd)).read _ = _
    rw [inputCodes_symbols, Memory.read_writeBytes_inside (Memory.wf_rising hw) _ _ k (by rwa [inputOf_length])]
    simp [inputOf]

end Sys2Proof
end

section
/-! PROOFS. DECODE: its checks before the walk (O45), the whole codes it stores (O44), the errors of its walk (O46), and what it
does not read (O47). -/

namespace Sys2Proof

open Machine

variable {i : Instr} {s : State} {p : Pend}

/-! ## The two forms -/

/-- DECODE's two forms differ in the flag CHK (R73, R116). -/
theorem executeOf_decode_form (hi : i = .decode ∨ i = .decodeChk) :
    executeOf i s p = decodeCommand (decide (i = .decodeChk)) s p := by
  rcases hi with rfl | rfl <;> rfl

theorem executeOf_decode_ne_hang (hi : i = .decode ∨ i = .decodeChk) : executeOf i s p ≠ .hang := by
  rw [executeOf_decode_form hi]
  exact decodeCommand_ne_hang _ s p

/-- A failure of ENCODE or DECODE is its error report with OUT_LEN and OUT_BITS set to 0 (R77, R123). -/
theorem exec_of_codec_fail {e : ErrReport} (hi : isCodec i = true) (hp : s.pend = some p)
    (h : executeOf i s p = .fail e) : exec i s = .next (erredCodec s e.code e.info) := by
  rw [exec_of_fail hp h, hi]
  rfl

theorem isCodec_of_decode_form (hi : i = .decode ∨ i = .decodeChk) : isCodec i = true :=
  isCodec_iff.mpr (.inr hi)

/-! ## The checks before the walk -/

section

variable {chk : Bool}

theorem decodeCommand_noTree (hv : s.tree.valid = false) : decodeCommand chk s p = .fail ⟨.noTree, 0⟩ := by
  rw [decodeCommand, if_neg (by simp [hv])]

theorem decodeCommand_mismatch {k : Nat} (hv : s.tree.valid = true)
    (hk : leastDifference s.tree.leafset s.expset = some k) :
    decodeCommand true s p = .fail ⟨.treeMismatch, infoOf k⟩ := by
  rw [decodeCommand, if_pos hv, if_pos rfl, hk]

/-- Past its tree check a DECODE is the same with CHK = 1 and CHK = 0 (R115, R116). -/
theorem decodeCommand_checked (hv : s.tree.valid = true) (hc : chk = true → s.tree.leafset = s.expset) :
    decodeCommand chk s p = decodeStream s p := by
  have hnone : (if chk then leastDifference s.tree.leafset s.expset else none) = none := by
    cases chk with
    | false => rfl
    | true => exact leastDifference_none.mpr (hc rfl)
  rw [decodeCommand, if_pos hv, hnone]

theorem decodeStream_length_error (h : p.ops.len.toNat ≠ ceil8 p.ops.bits.toNat) :
    decodeStream s p = .fail ⟨.corruptStream, 0xFFFFFFFF⟩ := by
  rw [decodeStream, if_neg h]
  rfl

theorem decodeStream_range_error (hl : p.ops.len.toNat = ceil8 p.ops.bits.toNat)
    (h : s.mem.size < p.ops.src.toNat + p.ops.len.toNat) : decodeStream s p = .fail ⟨.addressRange, 0⟩ := by
  rw [decodeStream, if_pos hl, if_neg (by simpa [Memory.rangeOk] using h)]

end

/-- Settles O45: each check is made when the ones before it have passed. -/
theorem decodeChecksBeforeTheWalk : Obligations.DecodeChecksBeforeTheWalk := by
  intro i s p hi hp
  have hform := executeOf_decode_form (s := s) (p := p) hi
  have hfail {e : ErrReport} (h : executeOf i s p = .fail e) : exec i s = .next (erredCodec s e.code e.info) :=
    exec_of_codec_fail (isCodec_of_decode_form hi) hp h
  have hchecked (hc : i = .decodeChk → s.tree.leafset = s.expset) (hv : s.tree.valid = true) :
      executeOf i s p = decodeStream s p :=
    hform.trans (decodeCommand_checked hv fun h => hc (of_decide_eq_true h))
  refine ⟨fun hv => hfail (hform.trans (decodeCommand_noTree hv)), fun k hchk hv hk hne hleast => ?_,
    fun hc hv hl => hfail ((hchecked hc hv).trans (decodeStream_length_error hl)),
    fun hc hv hl hr => hfail ((hchecked hc hv).trans (decodeStream_range_error hl hr))⟩
  subst hchk
  exact hfail (decodeCommand_mismatch hv (leastDifference_some.mpr ⟨hk, hne, hleast⟩))

/-! ## Whole codes -/

/-- Settles O44: the walk over whole codes emits their symbols, at most one for each of the BITS bits. -/
theorem decodeStoresTheSymbols : Obligations.DecodeStoresTheSymbols := by
  intro i s p ps hp hw hready hwhole hstream hfit
  refine ⟨_, _, exec_decode_whole hp hready hwhole hstream hfit, writeBytes_stored (Memory.wf_rising hw) _ _, ?_, rfl⟩
  have hle : ps.length ≤ p.ops.bits.toNat := by
    rw [← streamOf_length s p.ops, hstream]
    exact hwhole.length_le
  exact Nat.mod_eq_of_lt (hle.trans_lt p.ops.bits.isLt)

/-! ## The errors of the walk -/

/-- An error met after whole codes that have room is the walk's, counted on from their bits and symbols (R116, R121). -/
theorem walk_error_after_whole {t : Tree} {size dst : Nat} {ps : List (List Bool × Byte)} {bs : List Bool} {e : ErrReport}
    (hw : WholeCodes t ps) (hf : ps = [] ∨ dst + ps.length ≤ size)
    (h : walk t size dst bs (ps.flatMap Prod.fst).length ps.length t.root 0 = .error e) :
    walk t size dst (ps.flatMap Prod.fst ++ bs) 0 0 t.root 0 = .error e := by
  rw [walk_whole hw (by simpa using hf), Nat.zero_add, Nat.zero_add, h]

/-- A DECODE whose walk meets an error fails with it (R116). -/
theorem exec_decode_error {e : ErrReport} (hp : s.pend = some p) (hready : DecodeReady i s p.ops)
    (h : walk s.tree s.mem.size p.ops.dst.toNat (streamOf s p.ops) 0 0 s.tree.root 0 = .error e) :
    exec i s = .next (erredCodec s e.code e.info) := by
  rw [exec_decode_ready hready hp, h]
  rfl

/-- Settles O46: the walk takes the whole codes, then meets the missing child, the full output or the end of the bits. -/
theorem decodeErrorsOfTheWalk : Obligations.DecodeErrorsOfTheWalk := by
  intro i s p ps hp hready hwhole hfit
  refine ⟨fun q n b rest hstream ⟨hd, hk⟩ hchild => ?_, fun x rest hstream hx hroom => ?_,
    fun q n hstream hq ⟨hd, hk⟩ => ?_⟩
  · refine exec_decode_error (e := ⟨_, _⟩) hp hready ?_
    rw [hstream, List.append_assoc]
    refine walk_error_after_whole hwhole hfit ?_
    rw [walk_inside hd hk, walk, if_pos hchild]
    rfl
  · obtain ⟨hne, m, hd, hk, _⟩ := hx x (by simp)
    refine exec_decode_error (e := ⟨_, _⟩) hp hready ?_
    rw [hstream, List.append_assoc]
    refine walk_error_after_whole hwhole hfit ?_
    rw [walk_leaf hd hk hne, if_pos hroom]
  · refine exec_decode_error (e := ⟨_, _⟩) hp hready ?_
    have hbits : (ps.flatMap Prod.fst).length + q.length = p.ops.bits.toNat := by
      rw [← List.length_append, ← hstream, streamOf_length]
    rw [hstream]
    refine walk_error_after_whole hwhole hfit ?_
    rw [← List.append_nil q, walk_inside hd hk, hbits, walk, if_neg (by simpa using hq), infoOf, BitVec.ofNat_toNat,
      BitVec.setWidth_eq]

/-! ## The padding bits -/

/-- DECODE's checks read of DMEM its size and the stream (R111, R121). -/
theorem checksOf_decode_with_mem {m : Memory} {o : Operands} (hi : i = .decode ∨ i = .decodeChk)
    (hsize : m.size = s.mem.size) (hstream : streamOf { s with mem := m } o = streamOf s o) :
    checksOf { s with mem := m } o i = checksOf s o i := by
  have hchecks : decodeChecks { s with mem := m } o = decodeChecks s o := by
    simp only [decodeChecks, hstream, hsize]
  rcases hi with rfl | rfl <;> simp only [checksOf, hchecks]

/-- A DECODE a check of which fails reports the first that does (R79, R121). -/
theorem exec_decode_of_firstError {e : ErrReport} (hi : i = .decode ∨ i = .decodeChk) (hp : s.pend = some p)
    (h : firstError (checksOf s p.ops i) = some e) : exec i s = .next (erredCodec s e.code e.info) := by
  have hsays := executeOf_says i s p
  rw [h] at hsays
  cases hr : executeOf i s p with
  | done u => rw [hr] at hsays; cases hsays
  | fail x =>
    rw [hr] at hsays
    obtain ⟨hx, _⟩ := hsays
    cases hx
    exact exec_of_codec_fail (isCodec_of_decode_form hi) hp hr
  | hang => exact absurd hr (executeOf_decode_ne_hang hi)

/-- A DECODE all of whose checks pass stores what its walk over the stream emits (R112, R116). -/
theorem exec_decode_of_passed (hi : i = .decode ∨ i = .decodeChk) (hp : s.pend = some p)
    (h : firstError (checksOf s p.ops i) = none) :
    ∃ out, walk s.tree s.mem.size p.ops.dst.toNat (streamOf s p.ops) 0 0 s.tree.root 0 = .ok out ∧
      exec i s = .next (completed { s with
        mem := s.mem.writeBytes p.ops.dst.toNat out
        out := ⟨BitVec.ofNat 32 out.length, p.ops.bits⟩ }) := by
  have hsays := executeOf_says i s p
  rw [h] at hsays
  cases hr : executeOf i s p with
  | done u =>
    have hcommand := hr
    rw [executeOf_decode_form hi] at hcommand
    obtain ⟨_, _, hdone⟩ := decodeCommand_done hcommand
    obtain ⟨_, _, out, hwalk, rfl⟩ := decodeStream_done hdone
    exact ⟨out, hwalk, exec_of_done hp hr⟩
  | fail x => rw [hr] at hsays; cases hsays.1
  | hang => exact absurd hr (executeOf_decode_ne_hang hi)

/-- Settles O47: the two memories fail the same check, or the two walks emit the same bytes. -/
theorem paddingBitsAreNeverRead : Obligations.PaddingBitsAreNeverRead := by
  intro i s t m p hi hp hw hwm hsize hstream h
  have hp' : ({ s with mem := m } : State).pend = some p := hp
  have hchecks := checksOf_decode_with_mem hi hsize hstream
  cases hfirst : firstError (checksOf s p.ops i) with
  | some e =>
    rw [exec_decode_of_firstError hi hp hfirst] at h
    cases h
    exact ⟨_, exec_decode_of_firstError hi hp' (hchecks ▸ hfirst), rfl, rfl, rfl, fun k hk => absurd hk (Nat.not_lt_zero k)⟩
  | none =>
    obtain ⟨out, hwalk, hnext⟩ := exec_decode_of_passed hi hp hfirst
    obtain ⟨out', hwalk', hnext'⟩ := exec_decode_of_passed hi hp' (hchecks ▸ hfirst)
    obtain rfl : out = out' := by
      simp only [hstream, hsize, hwalk] at hwalk'
      exact Except.ok.inj hwalk'
    rw [hnext] at h
    cases h
    refine ⟨_, hnext', rfl, rfl, rfl, fun k hk => ?_⟩
    have hlt : k < out.length := hk.trans_le (Nat.mod_le _ _)
    exact (Memory.read_writeBytes_inside (Memory.wf_rising hwm) _ out k hlt).trans
      (Memory.read_writeBytes_inside (Memory.wf_rising hw) _ out k hlt).symm

end Sys2Proof
end

section
/-! PROOFS. The pipeline: COUNT, BUILD and GENCODE of an input, then ENCODE and DECODE of it (O49). -/

namespace Sys2Proof

open Machine

/-- An ENCODE whose checks pass and whose packed bytes have room writes them (R107). -/
theorem exec_encode_of_ready {s : State} {p : Pend} (hp : s.pend = some p) (h : EncodeReady s p.ops)
    (hfit : p.ops.dst.toNat + ceil8 (encodedBits s p.ops).length ≤ s.mem.size) :
    exec .encode s = .next (encodeWrites s p.ops).succeed := by
  have hdone : executeOf .encode s p = .done (encodeWrites s p.ops) := by
    rw [executeOf, encodeCommand_of_ready h, if_pos (rangeOk_of_le hfit)]
  exact exec_of_done hp hdone

/-- A symbol that the table counts in the input is present (R84, R89). -/
theorem symGet_ne_zero_of_count {f : FreqTable} {bs : List Byte} (hf : ∀ b : Byte, (symGet f b).toNat = bs.count b)
    {b : Byte} (hb : b ∈ bs) : symGet f b ≠ 0 := by
  intro h0
  have hpos := List.count_pos_iff.mpr hb
  rw [← hf, h0] at hpos
  cases hpos

/-- The counts of a non-empty input leave BUILD a symbol to begin with (R84, R89). -/
theorem presentSymbols_ne_nil_of_count {f : FreqTable} {bs : List Byte} (hf : ∀ b : Byte, (symGet f b).toNat = bs.count b)
    (hne : bs ≠ []) : presentSymbols f ≠ [] := by
  obtain ⟨b, hb⟩ := List.exists_mem_of_ne_nil bs hne
  exact List.ne_nil_of_mem (mem_presentSymbols.mpr (symGet_ne_zero_of_count hf hb))

/-- The tree BUILD makes of an input's counts, and its path codes, give every byte of the input a code (R34, R103). -/
theorem input_coded {f : FreqTable} {bs : List Byte} {c : Codes} (hf : ∀ b : Byte, (symGet f b).toNat = bs.count b)
    (hc : PathCodes (buildTree f) c) {b : Byte} (hb : b ∈ bs) : (symGet c.entry b).len ≠ 0 := by
  have hshape := buildTree_shape f (presentSymbols_ne_nil_of_count hf (List.ne_nil_of_mem hb))
  rw [hshape.len_ne_zero_iff hc, leafset_bit]
  simpa using symGet_ne_zero_of_count hf hb

/-- COUNT of a valid range completes with the range's counts, DMEM as it was (R86, R87). -/
theorem exec_count_issued {s : State} {o : Operands} (h : o.src.toNat + o.len.toNat ≤ s.mem.size) :
    ∃ t, exec .count (issued s .count o) = .next t ∧ t.err.code = .ok ∧ t.mem = s.mem ∧
      ∀ b : Byte, (symGet t.freq b).toNat = (inputOf s o).count b := by
  obtain ⟨f, hnext, hf, _⟩ := countCountsTheRange (issued s .count o) _ rfl h
  exact ⟨_, hnext, rfl, rfl, hf⟩

/-- BUILD on a table with a symbol completes with the table's tree, DMEM as it was (R95). -/
theorem exec_build_issued {s : State} (o : Operands) (h : presentSymbols s.freq ≠ []) :
    ∃ t, exec .build (issued s .build o) = .next t ∧ t.err.code = .ok ∧ t.mem = s.mem ∧
      t.tree = buildTree s.freq :=
  ⟨_, exec_build_tree rfl h, rfl, rfl, rfl⟩

/-- GENCODE on a tree of BUILD's shape completes with its path codes, and leaves the invariant (R102). -/
theorem exec_gencode_issued {s : State} (o : Operands) (hmem : MemoryOk s) (hv : s.tree.valid = true)
    (h : TreeShape s.tree) :
    ∃ t, exec .gencode (issued s .gencode o) = .next t ∧ t.err.code = .ok ∧ t.mem = s.mem ∧ t.codes.valid = true ∧
      PathCodes s.tree t.codes ∧ Inv t := by
  obtain ⟨c, hnext, hvalid, hcodes⟩ := gencodeWritesThePathCodes (issued s .gencode o) _ rfl hv h
  exact ⟨_, hnext, rfl, rfl, hvalid, hcodes, hmem, nofun, .inr ⟨hv, h⟩, .inr ⟨hvalid, hv, hcodes⟩⟩

/-- COUNT, BUILD and GENCODE of a non-empty input succeed, and after them the invariant holds and every byte of the input has
a code (R117). -/
theorem count_build_gencode {s : State} {o : Operands} (hmem : MemoryOk s) (hlen : o.len ≠ 0)
    (hsrc : o.src.toNat + o.len.toNat ≤ s.mem.size) :
    ∃ s1 s2 s3,
      exec .count (issued s .count o) = .next s1 ∧ s1.err.code = .ok ∧
      exec .build (issued s1 .build s1.ops) = .next s2 ∧ s2.err.code = .ok ∧
      exec .gencode (issued s2 .gencode s2.ops) = .next s3 ∧ s3.err.code = .ok ∧
      Inv s3 ∧ s3.mem = s.mem ∧ s3.codes.valid = true ∧ ∀ b ∈ inputOf s o, (symGet s3.codes.entry b).len ≠ 0 := by
  obtain ⟨s1, hcount, hok1, hmem1, hfreq⟩ := exec_count_issued hsrc
  have hinput : inputOf s o ≠ [] := fun hnil => hlen <| BitVec.eq_of_toNat_eq <| by
    rw [← inputOf_length s o, hnil]
    rfl
  have hne := presentSymbols_ne_nil_of_count hfreq hinput
  obtain ⟨s2, hbuild, hok2, hmem2, htree⟩ := exec_build_issued s1.ops hne
  have hmem02 : s2.mem = s.mem := hmem2.trans hmem1
  obtain ⟨s3, hgencode, hok3, hmem3, hvalid, hcodes, hinv⟩ := exec_gencode_issued s2.ops
    (by rwa [MemoryOk, hmem02]) (by rw [htree]; rfl) (htree ▸ buildTree_shape _ hne)
  rw [htree] at hcodes
  exact ⟨s1, s2, s3, hcount, hok1, hbuild, hok2, hgencode, hok3, hinv, hmem3.trans hmem02, hvalid,
    fun b => input_coded hfreq hcodes⟩

/-- `issued` sets PEND, CMD and the operand registers together, as acceptance does (R44, R76). -/
theorem Inv.issue {s : State} (h : Inv s) (i : Instr) (o : Operands) : Inv (issued s i o) where
  memory := h.memory
  pend := fun _ hp => by cases hp; exact ⟨rfl, rfl⟩
  tree := h.tree
  codes := h.codes

/-- In an invariant state ENCODE of an input that has codes is undone by DECODE if the packed bytes have room, and fails with
ADDRESS_RANGE(1) otherwise (R107, R117). -/
theorem Inv.encode_decode {s : State} {p : Pend} {dst2 : Word} (h : Inv s) (hp : s.pend = some p)
    (hready : EncodeReady s p.ops) (hdst2 : dst2.toNat + p.ops.len.toNat ≤ s.mem.size) :
    let total := (encodedBits s p.ops).length
    if p.ops.dst.toNat + ceil8 total ≤ s.mem.size then
      ∃ t u, exec .encode s = .next t ∧ t.err.code = .ok ∧ t.out.bits.toNat = total ∧ t.out.len.toNat = ceil8 total ∧
        exec .decode (issued t .decode ⟨p.ops.dst, t.out.len, dst2, t.out.bits⟩) = .next u ∧ u.err.code = .ok ∧
        u.out.len = p.ops.len ∧
        ∀ k, k < p.ops.len.toNat → u.mem.read (dst2.toNat + k) = s.mem.read (p.ops.src.toNat + k)
    else exec .encode s = .next (erredCodec s .addressRange 1) := by
  intro total
  split
  next hfit =>
    have hencode := exec_encode_of_ready hp hready hfit
    have hbits := encodeWrites_out_bits h.memory.1 hready.range
    have hlen := encodeWrites_out_len h.memory.1 hready.range
    have hsize : (encodeWrites s p.ops).mem.size = s.mem.size := Memory.writeBytes_size _ _ _
    have hinv := exec_keeps_inv hp hencode h
    have hpacked : p.ops.dst.toNat + (encodeWrites s p.ops).succeed.out.len.toNat ≤ s.mem.size := by
      rw [State.succeed_out, hlen]
      exact hfit
    obtain ⟨u, hdecode, hok, hout, hread⟩ := decodeUndoesEncode s _ (issued (encodeWrites s p.ops).succeed .decode
        ⟨p.ops.dst, (encodeWrites s p.ops).out.len, dst2, (encodeWrites s p.ops).out.bits⟩) p _ h hp hencode rfl rfl
      hinv.memory.2 hsize rfl rfl rfl hpacked (fun _ _ => rfl) hdst2
    exact ⟨_, u, hencode, rfl, hbits, hlen, hdecode, hok, hout, hread⟩
  next hroom =>
    have hfail : executeOf .encode s p = .fail ⟨.addressRange, 1⟩ := by
      rw [executeOf, encodeCommand_of_ready hready, if_neg (by simpa only [Memory.rangeOk, decide_eq_true_eq] using hroom)]
    exact exec_of_codec_fail rfl hp hfail

/-- Settles O49: after GENCODE every input byte has a code, so that ENCODE fails for want of room alone, and DECODE undoes it. -/
theorem pipelineRoundTrip : Obligations.PipelineRoundTrip := by
  intro s src len dst dst2 hmem hlen hsrc hdst2
  obtain ⟨s1, s2, s3, h1, hok1, h2, hok2, h3, hok3, hinv, hsame, hvalid, hcoded⟩ :=
    count_build_gencode (o := ⟨src, len, 0, 0⟩) hmem hlen hsrc
  refine ⟨s1, s2, s3, h1, hok1, h2, hok2, h3, hok3, ?_⟩
  intro e total
  have hinput : inputOf e ⟨src, len, dst, 0⟩ = inputOf s ⟨src, len, 0, 0⟩ := by
    show (List.range _).map (fun k => s3.mem.read _) = _
    rw [hsame]
    rfl
  have hready : EncodeReady e ⟨src, len, dst, 0⟩ :=
    ⟨hvalid, by show _ ≤ s3.mem.size; rwa [hsame], hlen, by rwa [hinput]⟩
  have htotal : (encodedBits e ⟨src, len, dst, 0⟩).length = total := by
    rw [encodedBits, hinput]
    exact string_flatMap_length _ _
  have key := (hinv.issue .encode ⟨src, len, dst, 0⟩).encode_decode (dst2 := dst2) rfl hready
    (by show _ ≤ s3.mem.size; rwa [hsame])
  rw [← hsame, ← htotal]
  exact key

end Sys2Proof
end

section
/-! PROOFS. The step when neither agent has one (O6). -/

namespace Sys2Proof

open Machine

/-- With no command pending the core has no step (R77), and a host with no statement left has none either. -/
theorem nextTurn_idle {s : State} (hp : s.pend = none) (hh : s.host = []) : nextTurn s = .idle := by
  rw [nextTurn, hp, hh]

/-- Settles O6: the turn is idle, and an idle turn answers the state it was given. -/
theorem idleMachineStays : Obligations.IdleMachineStays := by
  intro s hp hh
  rw [step, nextTurn_idle hp hh, stepTurn]

end Sys2Proof
end

section
/-! PROOFS. The invariant in the state after power-on reset (O53). -/

namespace Sys2Proof

open Machine

/-- R9 admits the default DMEM_SIZE, and DMEM right after power-on lists no byte: every one of them is the draw's (R50). -/
theorem reset_memoryOk : MemoryOk State.reset :=
  ⟨by decide, (Memory.wf_iff _).mpr ⟨List.Pairwise.nil, fun _ hc => nomatch hc⟩⟩

/-- Settles O53: no command is pending, and the tree and the code table are the empty ones. -/
theorem invariantHoldsAtReset : Obligations.InvariantHoldsAtReset where
  memory := reset_memoryOk
  pend := fun _ hp => nomatch hp
  tree := .inl ⟨rfl, rfl⟩
  codes := .inl ⟨rfl, rfl⟩

end Sys2Proof
end
